-- ==== Sys2Proof/Word.lean ====
section
/-! DEFINITION. The word types of the asynchronous_serial_receiver (00_scope.md R9). -/

namespace Sys2Proof

/-- A `u8`. -/
abbrev Byte := BitVec 8

/-- A `u64`: a timestamp, a duration, a 64-bit register value. -/
abbrev U64 := BitVec 64

/-- A bit, or a level of the line: `false` is 0 (the start-bit level), `true` is 1 (the stop-bit and
idle level) (R9, R63). -/
abbrev Level := Bool

end Sys2Proof
end

