-- ==== Sys2Proof/Syntax.lean ====
section
/-! DEFINITION. The operations of the ASR: one constructor per row of spec/opcode_table.json. -/

namespace Sys2Proof

/-- The seven frame shapes the table lists by name (30_encoding.md R64): data bits, parity letter, stop bits. -/
inductive Shape where
  | s8N1 | s8E1 | s8O1 | s8N2 | s7E1 | s7O2 | s5N1
  deriving DecidableEq, Repr

/-- The operations. Port operations carry the fields of their command word (R75, R80). An internal stage has
no operand field: its 8-bit id is its whole encoding (R81), and its operands are the pass registers that POLL
has it read (log 2). A wire frame carries the `L` sampled bits, `bit[0]` (the start bit) first (R62, log 3). -/
inductive Instr where
  -- host (46_control.md)
  | reset
  | cfgw (r : Byte) (v : U64)
  | cfgr (r : Byte)
  | hdradd (len : Byte) (packed : U64)
  | hdrclr
  | start
  | stop
  -- producer and consumer (40_capture.md)
  | edge (level : Level) (ts : U64)
  | rxbyte (value : Byte) (ts : U64)
  | poll (now : U64)
  -- host
  | outpop
  -- internal stages (30_encoding.md R81)
  | bclose
  | split
  | tlbuild
  | levelat
  | sdec
  | hstop
  | anchor0
  | hunt
  | sample
  | maj3
  | resync
  | fdec
  | pseg
  | csum
  | emit
  -- wire frames (30_encoding.md R64)
  | frame8N1 (bits : List Level)
  | frame8E1 (bits : List Level)
  | frame8O1 (bits : List Level)
  | frame8N2 (bits : List Level)
  | frame7E1 (bits : List Level)
  | frame7O2 (bits : List Level)
  | frame5N1 (bits : List Level)
  deriving DecidableEq, Repr

/-- One item of the trace the machine is given (R84): what stands in `State.input`.
`command`: an 80-bit command word on the port (R75).
`stage`: one internal stage run alone, named by its id (R81); no agent can issue it (log 2).
`wire`: one sampled frame of a named shape, its bits in time order (R62, log 3). -/
inductive Input where
  | command (w : BitVec 80)
  | stage (id : Byte)
  | wire (shape : Shape) (bits : List Level)
  deriving DecidableEq, Repr

end Sys2Proof
end

