-- ==== Sys2Proof/WellFormed.lean ====
section
/-! DEFINITION. Which terms of `Instr` are operations of the ASR.

The fields of a command word have the width of their type, so every port operation is well formed, the ones
the ASR answers with `CMD_ERR` too (R192 to R195): those run. A wire frame has exactly `L` bits (R61, R64). -/

namespace Sys2Proof

/-- The frame length `L` of a shape (R64, the column L). -/
def Shape.width : Shape → Nat
  | .s8N1 => 10
  | .s8E1 => 11
  | .s8O1 => 11
  | .s8N2 => 11
  | .s7E1 => 10
  | .s7O2 => 11
  | .s5N1 => 7

/-- A frame instruction carries exactly the `L` bits of its shape; everything else is well formed. -/
def Instr.wf : Instr → Bool
  | .reset | .cfgw _ _ | .cfgr _ | .hdradd _ _ | .hdrclr | .start | .stop => true
  | .edge _ _ | .rxbyte _ _ | .poll _ | .outpop => true
  | .bclose | .split | .tlbuild | .levelat | .sdec | .hstop | .anchor0 | .hunt | .sample | .maj3 => true
  | .resync | .fdec | .pseg | .csum | .emit => true
  | .frame8N1 bits => bits.length == Shape.s8N1.width
  | .frame8E1 bits => bits.length == Shape.s8E1.width
  | .frame8O1 bits => bits.length == Shape.s8O1.width
  | .frame8N2 bits => bits.length == Shape.s8N2.width
  | .frame7E1 bits => bits.length == Shape.s7E1.width
  | .frame7O2 bits => bits.length == Shape.s7O2.width
  | .frame5N1 bits => bits.length == Shape.s5N1.width

end Sys2Proof
end

