-- ==== Sys2Proof/Decode.lean ====
section
/-! DEFINITION. From a trace item to an operation, and back (30_encoding.md section 4).

Decoding is total. `none` is an item that is no row of the table: for a command word, the undefined word of
R82 and R198. -/

namespace Sys2Proof

/-! ### Command words (R75, R80) -/

/-- Field `OP`, bits 79:72. -/
def opField (w : BitVec 80) : Byte := w.extractLsb' 72 8

/-- Field `A`, bits 71:64. -/
def aField (w : BitVec 80) : Byte := w.extractLsb' 64 8

/-- Field `V`, bits 63:0. -/
def vField (w : BitVec 80) : U64 := w.extractLsb' 0 64

/-- The operation of a command word (R80). A word that sets a bit its operation does not use, and every other
value of `OP`, is undefined (R75, R82 (a)). -/
def decodeCommand (w : BitVec 80) : Option Instr :=
  let a := aField w
  let v := vField w
  match (opField w).toNat with
  | 0x01 => if a = 0 ∧ v = 0 then some .reset else none
  | 0x02 => some (.cfgw a v)
  | 0x03 => if v = 0 then some (.cfgr a) else none
  | 0x04 => some (.hdradd a v)
  | 0x05 => if a = 0 ∧ v = 0 then some .hdrclr else none
  | 0x06 => if a = 0 ∧ v = 0 then some .start else none
  | 0x07 => if a = 0 ∧ v = 0 then some .stop else none
  | 0x08 => if a = 0 then some (.edge false v) else if a = 1 then some (.edge true v) else none
  | 0x09 => some (.rxbyte a v)
  | 0x0A => if a = 0 then some (.poll v) else none
  | 0x0B => if a = 0 ∧ v = 0 then some .outpop else none
  | _ => none

/-! ### Internal stages (R81) -/

/-- The stage an id names (R81). -/
def decodeStage (id : Byte) : Option Instr :=
  match id.toNat with
  | 0x10 => some .bclose
  | 0x11 => some .split
  | 0x12 => some .tlbuild
  | 0x13 => some .levelat
  | 0x14 => some .sdec
  | 0x15 => some .hstop
  | 0x16 => some .anchor0
  | 0x17 => some .hunt
  | 0x18 => some .sample
  | 0x19 => some .maj3
  | 0x1A => some .resync
  | 0x1B => some .fdec
  | 0x1C => some .pseg
  | 0x1D => some .csum
  | 0x1E => some .emit
  | _ => none

/-! ### Wire frames (R62, R64) -/

/-- The frame instruction of a shape. -/
def frameInstr (shape : Shape) (bits : List Level) : Instr :=
  match shape with
  | .s8N1 => .frame8N1 bits
  | .s8E1 => .frame8E1 bits
  | .s8O1 => .frame8O1 bits
  | .s8N2 => .frame8N2 bits
  | .s7E1 => .frame7E1 bits
  | .s7O2 => .frame7O2 bits
  | .s5N1 => .frame5N1 bits

/-- Every sequence of `L` bits is a frame, a wrong start or stop bit included (R82 (c)); a sequence of another
length is none. -/
def decodeWire (shape : Shape) (bits : List Level) : Option Instr :=
  if bits.length = shape.width then some (frameInstr shape bits) else none

/-- The decoder. -/
def decode : Input → Option Instr
  | .command w => decodeCommand w
  | .stage id => decodeStage id
  | .wire shape bits => decodeWire shape bits

/-! ### The encoder -/

/-- `OP A V` as one 80-bit word (R75). -/
def commandWord (op a : Byte) (v : U64) : BitVec 80 := op ++ a ++ v

/-- The trace item that stands for an operation: its word (R80), its id (R81) or its frame (R64). -/
def encode : Instr → Input
  | .reset => .command (commandWord 0x01 0 0)
  | .cfgw r v => .command (commandWord 0x02 r v)
  | .cfgr r => .command (commandWord 0x03 r 0)
  | .hdradd len packed => .command (commandWord 0x04 len packed)
  | .hdrclr => .command (commandWord 0x05 0 0)
  | .start => .command (commandWord 0x06 0 0)
  | .stop => .command (commandWord 0x07 0 0)
  | .edge level ts => .command (commandWord 0x08 (if level then 1 else 0) ts)
  | .rxbyte value ts => .command (commandWord 0x09 value ts)
  | .poll now => .command (commandWord 0x0A 0 now)
  | .outpop => .command (commandWord 0x0B 0 0)
  | .bclose => .stage 0x10
  | .split => .stage 0x11
  | .tlbuild => .stage 0x12
  | .levelat => .stage 0x13
  | .sdec => .stage 0x14
  | .hstop => .stage 0x15
  | .anchor0 => .stage 0x16
  | .hunt => .stage 0x17
  | .sample => .stage 0x18
  | .maj3 => .stage 0x19
  | .resync => .stage 0x1A
  | .fdec => .stage 0x1B
  | .pseg => .stage 0x1C
  | .csum => .stage 0x1D
  | .emit => .stage 0x1E
  | .frame8N1 bits => .wire .s8N1 bits
  | .frame8E1 bits => .wire .s8E1 bits
  | .frame8O1 bits => .wire .s8O1 bits
  | .frame8N2 bits => .wire .s8N2 bits
  | .frame7E1 bits => .wire .s7E1 bits
  | .frame7O2 bits => .wire .s7O2 bits
  | .frame5N1 bits => .wire .s5N1 bits

/-! ### The rows of the opcode table, by mask and match (R80) -/

/-- The mask and the match of each port operation, as R80 lists them. -/
def portRows : List (BitVec 80 × BitVec 80) :=
  [ (0xFFFFFFFFFFFFFFFFFFFF, 0x01000000000000000000),
    (0xFF000000000000000000, 0x02000000000000000000),
    (0xFF00FFFFFFFFFFFFFFFF, 0x03000000000000000000),
    (0xFF000000000000000000, 0x04000000000000000000),
    (0xFFFFFFFFFFFFFFFFFFFF, 0x05000000000000000000),
    (0xFFFFFFFFFFFFFFFFFFFF, 0x06000000000000000000),
    (0xFFFFFFFFFFFFFFFFFFFF, 0x07000000000000000000),
    (0xFFFE0000000000000000, 0x08000000000000000000),
    (0xFF000000000000000000, 0x09000000000000000000),
    (0xFFFF0000000000000000, 0x0A000000000000000000),
    (0xFFFFFFFFFFFFFFFFFFFF, 0x0B000000000000000000) ]

/-- R80: "a word `w` is the operation when `w AND mask = match`". -/
def matchesRow (w : BitVec 80) (row : BitVec 80 × BitVec 80) : Bool := w &&& row.1 == row.2

/-! ### A word of the opcode table -/

/-- The low `n` bits of `w`, bit 0 (the start bit, first in time, R62) first. -/
def wireBits (n w : Nat) : List Level := (List.range n).map fun i => w.testBit i

/-- The trace item of a word of `nbits` bits of the opcode table. 80 bits is a command word. 8 bits is a stage id when
the table has that id, or when bit 7 is set. Any other word is a frame: a wire row has 7, 10 or 11 bits (8 or 16 in
whole bytes). Bits alone do not tell two shapes of one length apart (R61): 5N1 for 7 bits, 8N1 for 10; for 11 bits 8N2
when both its stop bits are set, else 8E1 or 8O1 by the parity of the bits (log 4). -/
def tableInput (nbits w : Nat) : Input :=
  if nbits ≤ 8 then
    if nbits = 8 ∧ ((decodeStage (BitVec.ofNat 8 w)).isSome ∨ w.testBit 7) then .stage (BitVec.ofNat 8 w)
    else .wire .s5N1 (wireBits 7 w)
  else if nbits ≤ 16 then
    if nbits = 11 ∨ w.testBit 10 then
      let bits := wireBits 11 w
      if w.testBit 9 ∧ w.testBit 10 then .wire .s8N2 bits
      else if ((bits.drop 1).take 9).count true % 2 = 0 then .wire .s8E1 bits
      else .wire .s8O1 bits
    else .wire .s8N1 (wireBits 10 w)
  else .command (BitVec.ofNat 80 w)

/-- The operation the decoder reads from a word of the opcode table. -/
def decodeTableWord (nbits w : Nat) : Option Instr := decode (tableInput nbits w)

end Sys2Proof
end

