-- ==== Sys2Proof/Config.lean ====
section
/-! DEFINITION. What an implementation fixes, and the free values.

An `opaque` constant has no body: no proof can learn its value. The free values stand where a formula of
spec/ has no value for its operands. Each is applied to the state's `tick` (log 14) and to the operands. A
session's POLL never reaches one: `cfg_valid` (R34) and the stages' preconditions rule them all out; they are
reached only when an internal stage is run alone (log 2). -/

namespace Sys2Proof.Config

/-- `M = 1_000_000` (R9). -/
def mega : Nat := 1000000

/-- `HDR_MAX`, the longest header in bytes (R8, R33). -/
def hdrMax : Nat := 8

/-- Fixes `N_HDR`; its value is not known (U11, log 7). -/
opaque headerSlots : Nat

/-- `N_HDR`, the number of header slots: OPEN in R8. At least one slot, and at most what the 8-bit register
`HDR_COUNT` can count (R20); otherwise not known. DESIGN CHOICE, log 7. -/
def nHdr : Nat := headerSlots % 255 + 1

/-- `bt(p)` where R66 gives it no value: `BAUD = 0`, or `p` negative. Arguments: tick, `BAUD`, `p`. Log 8. -/
opaque freeBitTime : Nat → Nat → Int → Nat

/-- The duration of a run whose end lies before its start (R70 gives durations that are not negative).
Arguments: tick, start, end. Log 9. -/
opaque freeDuration : Nat → U64 → U64 → U64

/-- `level_at(t)` of a timeline with no entry (R121: a stream is never empty). Arguments: tick, `t`. Log 10. -/
opaque freeLevel : Nat → Int → Level

/-- The level of the first entry of an empty stream (R130: a stream is not empty). Argument: tick. Log 10. -/
opaque freeFirstLevel : Nat → Level

/-- Bit `i` of a frame register that holds no bit `i` (R161 reads `bit[0 .. L-1]`). Arguments: tick, `i`. Log 11. -/
opaque freeFrameBit : Nat → Nat → Level

/-- The data value of a frame of more than 8 data bits, which the `u8` field cannot hold (R22, R218).
Arguments: tick, the sum. Log 12. -/
opaque freeDataValue : Nat → Nat → Byte

/-- `parity_ok` under the reserved `PARITY = 3` (R23, U4). Arguments: tick, the number of ones. Log 12. -/
opaque freeParityOk : Nat → Nat → Bool

/-- The parity bit of a transmitted frame under the reserved `PARITY = 3` (R85: "computed so that the frame is well
formed"). Argument: the number of ones among the data bits. Log 30. -/
opaque freeParityBit : Nat → Level

/-- The received checksum of a packet with no byte (R72: a packet is never empty). Argument: tick. Log 13. -/
opaque freeLastByte : Nat → Byte

end Sys2Proof.Config
end

