-- ==== Sys2Proof/Machine/State.lean ====
section
/-! DEFINITION. The state of the ASR (10_state.md R10), as plain data; the reasons a step can stop; reset. -/

namespace Sys2Proof.Machine

/-! ### Records (30_encoding.md R70 to R72) -/

/-- `level` is the level the line has from `timestampUs` on (R70). -/
structure EdgeEvent where
  level : Level
  timestampUs : U64
  deriving DecidableEq, Repr

/-- An already-framed byte and its receipt time (R70). -/
structure RxByte where
  value : Byte
  timestampUs : U64
  deriving DecidableEq, Repr

/-- A RunLengthEntry: the line keeps `level` for `durationUs` (R70). -/
structure RunLength where
  level : Level
  durationUs : U64
  deriving DecidableEq, Repr

/-- An element of the timeline: from stream time `start` on, `level` (R70, R120). -/
structure TlEntry where
  start : Nat
  level : Level
  deriving DecidableEq, Repr

/-- One decoded frame (R71). -/
structure DecodedByte where
  value : Byte
  parityOk : Bool
  framingOk : Bool
  deriving DecidableEq, Repr

/-- The checksum verdict; `diff` is received minus computed, an integer (R72, R178). -/
structure Verdict where
  isMatch : Bool
  diff : Int
  deriving DecidableEq, Repr

/-- A packet: the slot of the header that opened it or none, its bytes, its verdict or none (R72). -/
structure Packet where
  hdr : Option Nat
  bytes : List DecodedByte
  chk : Option Verdict
  deriving DecidableEq, Repr

/-! ### Parts of the state -/

/-- The sequencer's `PHASE` (R16). -/
inductive Phase where
  | hunting | sampling | done
  deriving DecidableEq, Repr

/-- `VOTE`: the three point samples of the bit being resolved, the earliest in `v0` (R11). -/
structure Vote where
  v0 : Level
  v1 : Level
  v2 : Level
  deriving DecidableEq, Repr

/-- The configuration registers, numbers 0x00 to 0x0A (R20). -/
structure Cfg where
  baud : BitVec 32
  dataBits : BitVec 8
  parity : BitVec 2
  stopBits : BitVec 8
  idleGapUs : U64
  subIdleBits : BitVec 32
  sampleOffsetPct : BitVec 8
  voteSpacingPct : BitVec 8
  huntStepUs : BitVec 8
  resyncMarginPct : BitVec 8
  ctrl : U64
  deriving DecidableEq, Repr

/-- What a stage reads beside the pass: the configuration, and the tick free values are drawn from (log 14). -/
structure Env extends Cfg where
  tick : Nat
  deriving DecidableEq, Repr

/-- Everything that is dead outside a decode pass: the pass buffers, the working registers, the sequencer, the
lookup cursor (R10 groups P, W and H; R13), and the operands and results the stages hand one another (log 2). -/
structure Pass where
  /-- `RLE`, the burst handed over (20_memory.md R43). -/
  rle : List RunLength
  /-- `TL` (R44, R120). -/
  tl : List TlEntry
  /-- `DBYTES` (R45). -/
  dbytes : List DecodedByte
  /-- x0 `T_CUR`, the search cursor (R11). -/
  tCur : Nat
  /-- x1 `START_EDGE` (R11). -/
  startEdge : Nat
  /-- x2 `BIT_IDX` (R11). -/
  bitIdx : Nat
  /-- x3 `FRAME_SR`, the bits sampled so far, `bit[0]` first (R11). -/
  frameSr : List Level
  /-- x4 `TL_TOTAL` (R11, R120). -/
  tlTotal : Nat
  /-- x5 `VOTE` (R11). -/
  vote : Vote
  /-- `PHASE` (R16). -/
  phase : Phase
  /-- `first`: no trip of the SDEC loop has ended yet (R130). -/
  first : Bool
  /-- `TL_CURSOR`, hidden (R36 (a), R124, log 17). -/
  tlCursor : Nat
  /-- Operand `close_ts` of BCLOSE (R105). The model's own latch, as are the rest. -/
  closeTs : U64
  /-- SPLIT's result: the streams still to decode, the current `RLE_s` first (R106, log 16). -/
  streams : List (List RunLength)
  /-- Operand `t` of LEVELAT (R122). -/
  queryT : Int
  /-- LEVELAT's result (R122). -/
  level : Level
  /-- The boolean HSTOP, ANCHOR0 and HUNT return (R131 to R133). -/
  answer : Bool
  /-- The bit SAMPLE and MAJ3 return (R151, R152). -/
  bit : Level
  /-- PSEG's result, the operand of CSUM and EMIT (R171, R178, R180). -/
  packets : List Packet
  deriving DecidableEq, Repr

/-- What the last operation returned (R76, log 19). -/
inductive Result where
  | nothing
  | value (v : U64)
  | packet (p : Option Packet)
  deriving DecidableEq, Repr

/-- The complete state (R10), and the model's own `input` (log 1), `result` (log 19) and `tick` (log 14). -/
structure State where
  cfg : Cfg
  /-- `HDR`, slot 0 first (R33). -/
  hdr : List (List Byte)
  /-- `RUN` (R15). -/
  run : Bool
  /-- `CFG_ERR` (R32). -/
  cfgErr : Bool
  /-- `CMD_ERR`, sticky (R32). -/
  cmdErr : Bool
  /-- `EBUF`, oldest first (20_memory.md R41). -/
  ebuf : List EdgeEvent
  /-- `BBUF`, oldest first (R42). -/
  bbuf : List RxByte
  /-- `LAST_TS` (R14). -/
  lastTs : U64
  /-- Which physical capture buffer receives events, hidden (R36 (b), log 17). -/
  bank : Bool
  /-- Dead outside a pass (R13). -/
  pass : Pass
  /-- `OUTQ`, oldest first (R48). -/
  outq : List Packet
  /-- What the last operation returned. -/
  result : Result
  /-- The pending operations, in the one total order of 20_memory.md R46. -/
  input : List Input
  /-- Advanced by every issued operation; free values are drawn from it. -/
  tick : Nat
  deriving DecidableEq, Repr

/-- Why the machine stops with a fault. -/
inductive Fault where
  /-- Raised by SDEC, and by POLL through it, when the pass cannot end: `HUNT_STEP_US = 0`, which R29 calls illegal
  ("the hunt would not advance") and no session can run with (R34, R196). A stuck machine. Safe. Log 21. -/
  | passNeverEnds
  deriving DecidableEq, Repr

/-- Why a step has no meaning. -/
inductive Refusal where
  /-- An instruction the model does not cover, by its mnemonic. No arm of `exec` uses it. Safe. -/
  | notModelled (mnemonic : String)
  /-- Raised by EDGE and RXBYTE: a timestamp below `LAST_TS` inside a burst, for which R101 (b), R102 and R226
  give no meaning: "a model shall refuse it". Safe. Log 20. -/
  | contractViolation
  /-- Raised by `step`: a trace item that is no operation, a stage id the table does not have (R81) or a frame
  of the wrong length (R62). Never raised for a command word. Safe. Log 27. -/
  | undefinedTraceItem
  deriving DecidableEq, Repr

/-! ### Reset (R38) -/

/-- The configuration registers after reset (R38). -/
def Cfg.reset : Cfg where
  baud := 0
  dataBits := 0
  parity := 0
  stopBits := 0
  idleGapUs := 10000
  subIdleBits := 32
  sampleOffsetPct := 65
  voteSpacingPct := 5
  huntStepUs := 1
  resyncMarginPct := 10
  ctrl := 0

/-- The pass after reset: `RLE` and `DBYTES` are empty (R38); R38 leaves every other item unspecified, and
zero or empty is a DESIGN CHOICE (log 5). -/
def Pass.reset : Pass where
  rle := []
  tl := []
  dbytes := []
  tCur := 0
  startEdge := 0
  bitIdx := 0
  frameSr := []
  tlTotal := 0
  vote := ⟨false, false, false⟩
  phase := .hunting
  first := false
  tlCursor := 0
  closeTs := 0
  streams := []
  queryT := 0
  level := false
  answer := false
  bit := false
  packets := []

/-- The state after reset, which is also the power-on state (R38, R230). Nothing is pending: nothing runs until
an agent issues an operation (R230, log 1). -/
def State.reset : State where
  cfg := Cfg.reset
  hdr := []
  run := false
  cfgErr := false
  cmdErr := false
  ebuf := []
  bbuf := []
  lastTs := 0
  bank := false
  pass := Pass.reset
  outq := []
  result := .nothing
  input := []
  tick := 0

end Sys2Proof.Machine
end

