-- ==== Sys2Proof/Machine/Operands.lean ====
section
/-! DEFINITION. The derived quantities every operation reads its operands through: the frame template and its
length, times in bit periods, sample instants, the level of the line, header matching (30_encoding.md section
2, 41_timeline.md, 45_packet.md R172). -/

namespace Sys2Proof.Machine

/-- What the stages read of the state beside the pass. -/
def State.env (s : State) : Env := { s.cfg with tick := s.tick }

/-! ### CTRL (R31) -/

/-- `CTRL.CHK_EN`, bit 0. -/
def Cfg.chkEn (c : Cfg) : Bool := c.ctrl.getLsbD 0

/-- `CTRL.INPUT_SEL`, bit 1: false selects the edge input, true the byte input. -/
def Cfg.inputSel (c : Cfg) : Bool := c.ctrl.getLsbD 1

/-! ### The frame template (R60 to R64) -/

/-- `{start_bits: 1, data_bits, parity_bits, stop_bits}` (R60). -/
structure Template where
  dataBits : Nat
  parity : BitVec 2
  stopBits : Nat
  deriving DecidableEq, Repr

/-- The template the registers hold (R60). -/
def Cfg.template (c : Cfg) : Template := ⟨c.dataBits.toNat, c.parity, c.stopBits.toNat⟩

/-- The template of a shape (R64, the column DATA_BITS, PARITY, STOP_BITS). -/
def shapeTemplate : Shape → Template
  | .s8N1 => ⟨8, 0, 1⟩
  | .s8E1 => ⟨8, 1, 1⟩
  | .s8O1 => ⟨8, 2, 1⟩
  | .s8N2 => ⟨8, 0, 2⟩
  | .s7E1 => ⟨7, 1, 1⟩
  | .s7O2 => ⟨7, 2, 2⟩
  | .s5N1 => ⟨5, 0, 1⟩

/-- `parity_bits`: 0 when `PARITY = 0`, else 1 (R60). -/
def Template.parityBits (t : Template) : Nat := if t.parity = 0 then 0 else 1

/-- `L = 1 + n + parity_bits + m` (R61). -/
def Template.len (t : Template) : Nat := 1 + t.dataBits + t.parityBits + t.stopBits

/-- `L` of the configured template (R61). -/
def Cfg.frameLen (c : Cfg) : Nat := c.template.len

/-! ### Times (R65 to R69) -/

/-- `bt(p) = floor(M * p / (100 * BAUD))` (R66). Where that has no value (`BAUD = 0`, `p` negative) it is a free
value (log 8). -/
def bitTime (e : Env) (p : Int) : Nat :=
  if 0 ≤ p ∧ 0 < e.baud.toNat then Config.mega * p.toNat / (100 * e.baud.toNat)
  else Config.freeBitTime e.tick e.baud.toNat p

/-- `s(i, k)`: the instant of vote `k` (-1, 0, 1) of bit position `i` (R67). -/
def sampleTime (e : Env) (startEdge i : Nat) (k : Int) : Nat :=
  startEdge + bitTime e (100 * i + e.sampleOffsetPct.toNat + k * e.voteSpacingPct.toNat)

/-- `d >= k * T`, compared exactly: `d * BAUD >= M * k` (R69). -/
def lastsAtLeast (e : Env) (d k : Nat) : Bool := Config.mega * k ≤ d * e.baud.toNat

/-- `d < k * T`, compared exactly: `d * BAUD < M * k` (R69). -/
def lastsLessThan (e : Env) (d k : Nat) : Bool := d * e.baud.toNat < Config.mega * k

/-! ### The level of the line (R120, R122) -/

/-- The index of the last entry of a timeline that starts at or before `t` (of the first one if none does). For a
timeline built by TLBUILD and `0 <= t < TL_TOTAL` it is the one entry that covers `t` (R122). -/
def entryIndex : List TlEntry → Int → Nat
  | _ :: next :: rest, t => if t < next.start then 0 else entryIndex (next :: rest) t + 1
  | _, _ => 0

/-- The entry a query reads: the first before time 0, the last at or after the end, else the covering one
(R122). -/
def lookupIndex (tl : List TlEntry) (total : Nat) (t : Int) : Nat :=
  if t < 0 then 0 else if (total : Int) ≤ t then tl.length - 1 else entryIndex tl t

/-- `level_at(t)`: a function of (`TL`, `TL_TOTAL`, `t`) and of no earlier query (R122, R124). A timeline without
entries has no level to read: free (log 10). -/
def levelAt (e : Env) (tl : List TlEntry) (total : Nat) (t : Int) : Level :=
  match tl[lookupIndex tl total t]? with
  | some entry => entry.level
  | none => Config.freeLevel e.tick t

/-! ### Frames as bit lists -/

/-- `bit[i]` of a sampled frame; free where the frame has no bit `i` (R161 reads `bit[0 .. L-1]`, log 11). -/
def frameBit (e : Env) (bits : List Level) (i : Nat) : Level :=
  match bits[i]? with
  | some b => b
  | none => Config.freeFrameBit e.tick i

/-- `bit[1 .. n]`, the data bits, least significant first (R62). -/
def dataBitsOf (e : Env) (t : Template) (bits : List Level) : List Level :=
  (List.range t.dataBits).map fun i => frameBit e bits (1 + i)

/-- `bit[n+1+p .. L-1]`, the stop bits (R62). -/
def stopBitsOf (e : Env) (t : Template) (bits : List Level) : List Level :=
  (List.range t.stopBits).map fun j => frameBit e bits (t.dataBits + 1 + t.parityBits + j)

/-! ### Header matching (R172) -/

/-- `match(B, p)` for `rest = B[p ..)`: the smallest slot whose header is a literal prefix of the byte values;
none when no slot is. Flags play no part; a header must fit before the end. -/
def matchSlot (hdr : List (List Byte)) (rest : List DecodedByte) : Option Nat :=
  hdr.findIdx? fun h => h.isPrefixOf (rest.map (·.value))

end Sys2Proof.Machine
end

