-- ==== Sys2Proof/Machine/Flags.lean ====
section
/-! DEFINITION. Every flag of the ASR (10_state.md R18, R32, R34): `framing_ok`, `parity_ok`, the checksum
verdict, the bits of `STATUS`, and `cfg_valid`. -/

namespace Sys2Proof.Machine

/-! ### Flags of a byte (44_frame_decoder.md) -/

/-- The start bit was sampled 0 and every stop bit 1 (R162). -/
def framingOk (e : Env) (t : Template) (bits : List Level) : Bool :=
  !frameBit e bits 0 && (stopBitsOf e t bits).all id

/-- The number of ones among the data bits and the parity bit (R164). -/
def parityOnes (e : Env) (t : Template) (bits : List Level) : Nat :=
  (dataBitsOf e t bits).count true + (frameBit e bits (t.dataBits + 1)).toNat

/-- No parity: true. Even: the number of ones is even. Odd: it is odd (R164). `PARITY = 3` is reserved and no pass
runs with it: free (R23, U4, log 12). -/
def parityOk (e : Env) (t : Template) (bits : List Level) : Bool :=
  match t.parity.toNat with
  | 0 => true
  | 1 => parityOnes e t bits % 2 == 0
  | 2 => parityOnes e t bits % 2 == 1
  | _ => Config.freeParityOk e.tick (parityOnes e t bits)

/-! ### The verdict of a packet (45_packet.md R178) -/

/-- The 8-bit truncated sum of all bytes but the last (R178). -/
def checksum (bytes : List DecodedByte) : Nat := ((bytes.dropLast.map fun b => b.value.toNat).sum) % 256

/-- The last byte; a packet always has one (R72), and one without has a free value (log 13). -/
def receivedSum (e : Env) (bytes : List DecodedByte) : Byte :=
  match bytes.getLast? with
  | some b => b.value
  | none => Config.freeLastByte e.tick

/-- `{ match: computed = received, diff: received - computed }`, the difference an integer (R178). -/
def verdict (e : Env) (bytes : List DecodedByte) : Verdict :=
  let computed := checksum bytes
  let received := (receivedSum e bytes).toNat
  { isMatch := received == computed, diff := (received : Int) - (computed : Int) }

/-! ### STATUS (10_state.md R32) -/

/-- `PENDING`: the selected capture buffer is not empty (R32). -/
def State.pending (s : State) : Bool := if s.cfg.inputSel then !s.bbuf.isEmpty else !s.ebuf.isEmpty

/-- `OUT_AVAIL`: `OUTQ` is not empty (R32). -/
def State.outAvail (s : State) : Bool := !s.outq.isEmpty

/-- `STATUS`, assembled (R32, R193). -/
def State.status (s : State) : U64 :=
  BitVec.ofNat 64 (s.run.toNat + 2 * s.pending.toNat + 4 * s.outAvail.toNat + 8 * s.cfgErr.toNat + 16 * s.cmdErr.toNat)

/-! ### Legality of the configuration (10_state.md R34) -/

/-- `cfg_valid` (R34). -/
def Cfg.valid (c : Cfg) : Bool :=
  1 ≤ c.baud.toNat && c.baud.toNat ≤ 1000000 && 1 ≤ c.dataBits.toNat && c.dataBits.toNat ≤ 8 &&
    c.parity.toNat != 3 && 1 ≤ c.stopBits.toNat && 1 ≤ c.huntStepUs.toNat &&
    c.voteSpacingPct.toNat ≤ c.sampleOffsetPct.toNat

end Sys2Proof.Machine
end

