-- ==== Sys2Proof/Machine/Ops.lean ====
section
/-! DEFINITION. The named operations over registers, buffers and error bits that the meanings share.

Taking an exception: the ASR has none. "No condition transfers control. There is no trap entry: no state is
saved, no mode or mask changes, no vector is fetched, and there is no handler" (60_exceptions.md R216), and there
is no return (R221). What takes its place is recording a condition (R210): `commandError` for E7 and
`configError` for E6; E1 to E3 are flags of records (Flags.lean); E4 and E5 record nothing. -/

namespace Sys2Proof.Machine

/-! ### Conditions (60_exceptions.md R218, R219) -/

/-- E7 CommandError: the operation is ignored and the sticky `CMD_ERR` is set (R219). -/
def commandError (s : State) : State := { s with cmdErr := true }

/-- E6 ConfigInvalid: no session is opened and `CFG_ERR` is set (R218). -/
def configError (s : State) : State := { s with cfgErr := true }

/-- An undefined command word: no state change except `CMD_ERR <- 1` (R82 (a), R198). -/
def undefinedWord (s : State) : State := commandError s

/-- A trace item that is no row of the table: an undefined command word sets `CMD_ERR` (R198); an undefined stage id
or a frame of the wrong length is no operation of the ASR (log 27). -/
def undefinedItem (item : Input) (s : State) : Host.Outcome State Fault Refusal :=
  match item with
  | .command _ => .next (undefinedWord s)
  | .stage _ => .refused .undefinedTraceItem
  | .wire _ _ => .refused .undefinedTraceItem

/-- The state in which a fetched item runs: the item is gone from the trace, nothing has been returned yet (R76),
and the tick has moved on (log 14). -/
def State.issue (s : State) (rest : List Input) : State :=
  { s with input := rest, result := .nothing, tick := s.tick + 1 }

/-- Sets what the operation returns (R76). -/
def returnResult (s : State) (r : Result) : State := { s with result := r }

/-! ### The register file (10_state.md R20) -/

/-- The width of a writable register (R20). -/
def regWidth (r : Byte) : Nat :=
  match r.toNat with
  | 0x00 => 32
  | 0x01 => 8
  | 0x02 => 2
  | 0x03 => 8
  | 0x04 => 64
  | 0x05 => 32
  | 0x06 => 8
  | 0x07 => 8
  | 0x08 => 8
  | 0x09 => 8
  | _ => 64

/-- `reg[r] <- v` for a writable register, 0x00 to 0x0A, and a value that fits (R192). -/
def writeReg (c : Cfg) (r : Byte) (v : U64) : Cfg :=
  match r.toNat with
  | 0x00 => { c with baud := v.setWidth 32 }
  | 0x01 => { c with dataBits := v.setWidth 8 }
  | 0x02 => { c with parity := v.setWidth 2 }
  | 0x03 => { c with stopBits := v.setWidth 8 }
  | 0x04 => { c with idleGapUs := v }
  | 0x05 => { c with subIdleBits := v.setWidth 32 }
  | 0x06 => { c with sampleOffsetPct := v.setWidth 8 }
  | 0x07 => { c with voteSpacingPct := v.setWidth 8 }
  | 0x08 => { c with huntStepUs := v.setWidth 8 }
  | 0x09 => { c with resyncMarginPct := v.setWidth 8 }
  | 0x0A => { c with ctrl := v }
  | _ => c

/-- `zext_64(reg[r])` for an assigned register, 0x00 to 0x0D; none for an unassigned number (R20, R193). -/
def readReg (s : State) (r : Byte) : Option U64 :=
  match r.toNat with
  | 0x00 => some (s.cfg.baud.setWidth 64)
  | 0x01 => some (s.cfg.dataBits.setWidth 64)
  | 0x02 => some (s.cfg.parity.setWidth 64)
  | 0x03 => some (s.cfg.stopBits.setWidth 64)
  | 0x04 => some s.cfg.idleGapUs
  | 0x05 => some (s.cfg.subIdleBits.setWidth 64)
  | 0x06 => some (s.cfg.sampleOffsetPct.setWidth 64)
  | 0x07 => some (s.cfg.voteSpacingPct.setWidth 64)
  | 0x08 => some (s.cfg.huntStepUs.setWidth 64)
  | 0x09 => some (s.cfg.resyncMarginPct.setWidth 64)
  | 0x0A => some s.cfg.ctrl
  | 0x0B => some s.status
  | 0x0C => some s.lastTs
  | 0x0D => some (BitVec.ofNat 64 s.hdr.length)
  | _ => none

/-- Why a CFGW is ignored: a session is open, the register is read-only or unassigned, the value does not fit, or
it sets a reserved bit of `CTRL` (R192). The order of the tests does not matter (R220 (d)). -/
def cfgwRejected (s : State) (r : Byte) (v : U64) : Bool :=
  s.run || 0x0A < r.toNat || 2 ^ regWidth r ≤ v.toNat || (r.toNat == 0x0A && 4 ≤ v.toNat)

/-! ### The header table (10_state.md R33) -/

/-- The `len` bytes packed in a HDRADD word, byte `q` in bits 8q+7:8q (R78, R194). -/
def headerBytes (len : Byte) (packed : U64) : List Byte :=
  (List.range len.toNat).map fun q => packed.extractLsb' (8 * q) 8

/-- Why a HDRADD is ignored: a session is open, the length is not 1 to 8, the table is full, or a byte at or above
position `len` is not zero (R194). -/
def hdraddRejected (nHdr : Nat) (s : State) (len : Byte) (packed : U64) : Bool :=
  s.run || len.toNat < 1 || Config.hdrMax < len.toNat || s.hdr.length == nHdr || 2 ^ (8 * len.toNat) ≤ packed.toNat

/-! ### Buffers (20_memory.md) -/

/-- EDGE's append, and the timer (R101, R14). -/
def pushEdge (s : State) (level : Level) (ts : U64) : State :=
  { s with ebuf := s.ebuf ++ [⟨level, ts⟩], lastTs := ts }

/-- RXBYTE's append, and the timer (R102, R14). -/
def pushByte (s : State) (value : Byte) (ts : U64) : State :=
  { s with bbuf := s.bbuf ++ [⟨value, ts⟩], lastTs := ts }

/-- Both capture buffers emptied, as START and STOP do (R196, R197). -/
def clearCapture (s : State) : State := { s with ebuf := [], bbuf := [] }

/-- `next s.env s.pass` in place of the pass: how a stage that touches only the pass acts on the state. -/
def withPass (s : State) (next : Env → Pass → Pass) : State := { s with pass := next s.env s.pass }

/-- The current stream `RLE_s`: the first of the streams still to decode (R106, log 16). -/
def Pass.stream (p : Pass) : List RunLength := p.streams.headD []

end Sys2Proof.Machine
end

