-- ==== Sys2Proof/Machine/Control.lean ====
section
/-! DEFINITION. The host control operations (46_control.md). -/

namespace Sys2Proof.Machine

/-- RESET (R190): every item of R38 takes its reset value, in any session state. The trace still pending and the
tick are not the ASR's and stay (log 28). -/
def execReset (s : State) : Host.Outcome State Fault Refusal :=
  .next { State.reset with input := s.input, tick := s.tick }

/-- CFGW (R192). -/
def execCfgw (r : Byte) (v : U64) (s : State) : Host.Outcome State Fault Refusal :=
  .next (if cfgwRejected s r v then commandError s else { s with cfg := writeReg s.cfg r v })

/-- CFGR (R193): the register, zero-extended; for an unassigned number 0, and `CMD_ERR` is set. -/
def execCfgr (r : Byte) (s : State) : Host.Outcome State Fault Refusal :=
  .next (match readReg s r with
    | some v => returnResult s (.value v)
    | none => returnResult (commandError s) (.value 0))

/-- HDRADD (R194). -/
def execHdradd (len : Byte) (packed : U64) (s : State) : Host.Outcome State Fault Refusal :=
  .next (if hdraddRejected Config.nHdr s len packed then commandError s
    else { s with hdr := s.hdr ++ [headerBytes len packed] })

/-- HDRCLR (R195). -/
def execHdrclr (s : State) : Host.Outcome State Fault Refusal :=
  .next (if s.run then commandError s else { s with hdr := [] })

/-- START (R196): no effect on an open session; refused with `CFG_ERR` on an invalid configuration; else the
session opens with empty capture buffers. `OUTQ` is kept. -/
def execStart (s : State) : Host.Outcome State Fault Refusal :=
  .next (if s.run then s
    else if s.cfg.valid then { clearCapture s with cfgErr := false, run := true }
    else configError s)

/-- STOP (R197): events not yet closed are discarded. -/
def execStop (s : State) : Host.Outcome State Fault Refusal :=
  .next { clearCapture s with run := false }

/-- OUTPOP (R199): returns the oldest packet and removes it; none from an empty queue. -/
def execOutpop (s : State) : Host.Outcome State Fault Refusal :=
  .next { returnResult s (.packet s.outq.head?) with outq := s.outq.tail }

end Sys2Proof.Machine
end

