-- ==== Sys2Proof/Machine/Capture.lean ====
section
/-! DEFINITION. Capture and burst segmentation: EDGE, RXBYTE, and the stages BCLOSE and SPLIT (40_capture.md).
POLL, which runs the stages, is in Poll.lean. -/

namespace Sys2Proof.Machine

/-! ### EDGE, RXBYTE -/

/-- EDGE (R101): dropped while stopped or while the byte input is selected; refused if its timestamp lies below
`LAST_TS` inside a burst (R226); else appended. -/
def execEdge (level : Level) (ts : U64) (s : State) : Host.Outcome State Fault Refusal :=
  if !s.run || s.cfg.inputSel then .next s
  else if !s.ebuf.isEmpty && ts.toNat < s.lastTs.toNat then .refused .contractViolation
  else .next (pushEdge s level ts)

/-- RXBYTE (R102): as EDGE, for the byte input. -/
def execRxbyte (value : Byte) (ts : U64) (s : State) : Host.Outcome State Fault Refusal :=
  if !s.run || !s.cfg.inputSel then .next s
  else if !s.bbuf.isEmpty && ts.toNat < s.lastTs.toNat then .refused .contractViolation
  else .next (pushByte s value ts)

/-! ### BCLOSE -/

/-- `until - since`, the duration of a run; it is never negative (R70), and where it would be it is free (log 9). -/
def runDuration (e : Env) (since till : U64) : U64 :=
  if since.toNat ≤ till.toNat then till - since else Config.freeDuration e.tick since till

/-- The run-length form of a snapshot: each event's level lasts to the next event, the last one's to the close
(R105). -/
def runLengths (e : Env) (closeTs : U64) : List EdgeEvent → List RunLength
  | [] => []
  | [last] => [⟨last.level, runDuration e last.timestampUs closeTs⟩]
  | ev :: next :: rest =>
    ⟨ev.level, runDuration e ev.timestampUs next.timestampUs⟩ :: runLengths e closeTs (next :: rest)

/-- A byte of the byte path: both flags true (R108). -/
def framedByte (b : RxByte) : DecodedByte := ⟨b.value, true, true⟩

/-- BCLOSE on the edge path: the swap, and the burst in `RLE` (R105, R47). -/
def closeEdges (s : State) : State :=
  { s with ebuf := [], bank := !s.bank, pass := { s.pass with rle := runLengths s.env s.pass.closeTs s.ebuf } }

/-- BCLOSE on the byte path: the swap, and the bytes in `DBYTES` (R105, R108). -/
def closeBytes (s : State) : State :=
  { s with bbuf := [], bank := !s.bank, pass := { s.pass with dbytes := s.bbuf.map framedByte } }

/-- BCLOSE on the selected path (R105). -/
def closeBuffer (s : State) : State := if s.cfg.inputSel then closeBytes s else closeEdges s

/-- BCLOSE (R105). -/
def execBclose (s : State) : Host.Outcome State Fault Refusal := .next (closeBuffer s)

/-! ### SPLIT -/

/-- The loop of R106: `cur` collects a stream, and a run of at least `SUB_IDLE_BITS` bit periods ends it. -/
def splitFrom (e : Env) (cur : List RunLength) : List RunLength → List (List RunLength)
  | [] => if cur.isEmpty then [] else [cur]
  | x :: rest =>
    if lastsAtLeast e x.durationUs.toNat e.subIdleBits.toNat then (cur ++ [x]) :: splitFrom e [] rest
    else splitFrom e (cur ++ [x]) rest

/-- The streams of a burst; `SUB_IDLE_BITS = 0` disables the split (R106). -/
def splitStreams (e : Env) (rle : List RunLength) : List (List RunLength) :=
  if e.subIdleBits.toNat = 0 then [rle] else splitFrom e [] rle

/-- SPLIT on the pass. -/
def splitPass (e : Env) (p : Pass) : Pass := { p with streams := splitStreams e p.rle }

/-- SPLIT (R106). -/
def execSplit (s : State) : Host.Outcome State Fault Refusal := .next (withPass s splitPass)

end Sys2Proof.Machine
end

