-- ==== Sys2Proof/Machine/PacketSeg.lean ====
section
/-! DEFINITION. The packet boundary detector: PSEG, CSUM, EMIT (45_packet.md). -/

namespace Sys2Proof.Machine

/-! ### PSEG -/

/-- `P`: the positions at which some header matches, ascending (R171). -/
def headerPositions (hdr : List (List Byte)) (bytes : List DecodedByte) : List Nat :=
  (List.range bytes.length).filter fun p => (matchSlot hdr (bytes.drop p)).isSome

/-- The packets that open at the positions `ps`: each runs to the next position, the last to the end (R171). -/
def packetsFrom (hdr : List (List Byte)) (bytes : List DecodedByte) : List Nat → List Packet
  | [] => []
  | [p] => [⟨matchSlot hdr (bytes.drop p), bytes.drop p, none⟩]
  | p :: next :: rest =>
    ⟨matchSlot hdr (bytes.drop p), (bytes.drop p).take (next - p), none⟩ :: packetsFrom hdr bytes (next :: rest)

/-- The bytes before the first header, as one unclassified packet; no packet if there are none (R171, R174). -/
def leadingPacket (bytes : List DecodedByte) (first : Nat) : List Packet :=
  if first = 0 then [] else [⟨none, bytes.take first, none⟩]

/-- PSEG (R171): no byte, no packet; no header, one unclassified packet; else the leading bytes and one packet per
header position. -/
def segmentBytes (hdr : List (List Byte)) (bytes : List DecodedByte) : List Packet :=
  if bytes.isEmpty then []
  else
    match headerPositions hdr bytes with
    | [] => [⟨none, bytes, none⟩]
    | first :: rest => leadingPacket bytes first ++ packetsFrom hdr bytes (first :: rest)

/-- PSEG on the state: `DBYTES` cut into packets. -/
def psegState (s : State) : State := { s with pass := { s.pass with packets := segmentBytes s.hdr s.pass.dbytes } }

/-- PSEG (R171). -/
def execPseg (s : State) : Host.Outcome State Fault Refusal := .next (psegState s)

/-! ### CSUM -/

/-- A packet with its verdict (R178). -/
def checkPacket (e : Env) (pkt : Packet) : Packet := { pkt with chk := some (verdict e pkt.bytes) }

/-- CSUM on the pass: while `CTRL.CHK_EN = 1` every packet PSEG returned gets its verdict, classified or not; else
none does (R178, log 24). -/
def csumPass (e : Env) (p : Pass) : Pass :=
  if e.chkEn then { p with packets := p.packets.map (checkPacket e) } else p

/-- CSUM (R178). -/
def execCsum (s : State) : Host.Outcome State Fault Refusal := .next (withPass s csumPass)

/-! ### EMIT -/

/-- EMIT on the state: the packets appended to `OUTQ` in order (R180); the stream is finished, and the next one is
current (log 16). -/
def emitState (s : State) : State :=
  { s with outq := s.outq ++ s.pass.packets, pass := { s.pass with streams := s.pass.streams.tail } }

/-- EMIT (R180). -/
def execEmit (s : State) : Host.Outcome State Fault Refusal := .next (emitState s)

end Sys2Proof.Machine
end

