-- ==== Sys2Proof/Machine/Decoder.lean ====
section
/-! DEFINITION. The frame decoder: FDEC, and the wire frames of the table, which FDEC decodes
(44_frame_decoder.md, 30_encoding.md R62 and R64). -/

namespace Sys2Proof.Machine

/-- `sum over 0 <= i < n of bit[1+i] << i` (R68, R163). -/
def dataSum (bits : List Level) : Nat :=
  match bits with
  | [] => 0
  | b :: rest => b.toNat + 2 * dataSum rest

/-- The data value, zero-extended to `u8` (R163). More than 8 data bits do not fit and are legal in no session
(R22, R218): free (log 12). -/
def dataValue (e : Env) (t : Template) (bits : List Level) : Byte :=
  if t.dataBits ≤ 8 then BitVec.ofNat 8 (dataSum (dataBitsOf e t bits))
  else Config.freeDataValue e.tick (dataSum (dataBitsOf e t bits))

/-- FDEC (R161): the three results, each computed whatever the other two are. -/
def decodeFrameBits (e : Env) (t : Template) (bits : List Level) : DecodedByte where
  value := dataValue e t bits
  parityOk := parityOk e t bits
  framingOk := framingOk e t bits

/-- FDEC on the pass: `FRAME_SR` under the configured template, appended to `DBYTES` (R161, R45). -/
def fdecPass (e : Env) (p : Pass) : Pass :=
  { p with dbytes := p.dbytes ++ [decodeFrameBits e e.template p.frameSr] }

/-- FDEC (R161). -/
def execFdec (s : State) : Host.Outcome State Fault Refusal := .next (withPass s fdecPass)

/-- A sampled frame of a shape the table names: its bits are the SampledFrame, decoded by FDEC under the template
its row names (R161, R62, R64, log 3). -/
def receiveFrame (shape : Shape) (bits : List Level) (e : Env) (p : Pass) : Pass :=
  { p with frameSr := bits, dbytes := p.dbytes ++ [decodeFrameBits e (shapeTemplate shape) bits] }

/-- FRAME_8N1 (R161, R64). -/
def execFrame8N1 (bits : List Level) (s : State) : Host.Outcome State Fault Refusal :=
  .next (withPass s (receiveFrame .s8N1 bits))

/-- FRAME_8E1 (R161, R64). -/
def execFrame8E1 (bits : List Level) (s : State) : Host.Outcome State Fault Refusal :=
  .next (withPass s (receiveFrame .s8E1 bits))

/-- FRAME_8O1 (R161, R64). -/
def execFrame8O1 (bits : List Level) (s : State) : Host.Outcome State Fault Refusal :=
  .next (withPass s (receiveFrame .s8O1 bits))

/-- FRAME_8N2 (R161, R64). -/
def execFrame8N2 (bits : List Level) (s : State) : Host.Outcome State Fault Refusal :=
  .next (withPass s (receiveFrame .s8N2 bits))

/-- FRAME_7E1 (R161, R64). -/
def execFrame7E1 (bits : List Level) (s : State) : Host.Outcome State Fault Refusal :=
  .next (withPass s (receiveFrame .s7E1 bits))

/-- FRAME_7O2 (R161, R64). -/
def execFrame7O2 (bits : List Level) (s : State) : Host.Outcome State Fault Refusal :=
  .next (withPass s (receiveFrame .s7O2 bits))

/-- FRAME_5N1 (R161, R64). -/
def execFrame5N1 (bits : List Level) (s : State) : Host.Outcome State Fault Refusal :=
  .next (withPass s (receiveFrame .s5N1 bits))

end Sys2Proof.Machine
end

