-- ==== Sys2Proof/Machine/Timeline.lean ====
section
/-! DEFINITION. The timeline: TLBUILD and LEVELAT (41_timeline.md). -/

namespace Sys2Proof.Machine

/-- `TL` of a stream whose first entry starts at `acc` (R121). -/
def timelineFrom (acc : Nat) : List RunLength → List TlEntry
  | [] => []
  | x :: rest => ⟨acc, x.level⟩ :: timelineFrom (acc + x.durationUs.toNat) rest

/-- `TL_TOTAL`, the sum of all durations (R120). -/
def streamTotal (rle : List RunLength) : Nat := (rle.map fun x => x.durationUs.toNat).sum

/-- TLBUILD on the pass: the timeline of the current stream, and the hidden cursor reset (R121). -/
def buildTimeline (p : Pass) : Pass :=
  { p with tl := timelineFrom 0 p.stream, tlTotal := streamTotal p.stream, tlCursor := 0 }

/-- TLBUILD (R121). -/
def execTlbuild (s : State) : Host.Outcome State Fault Refusal := .next { s with pass := buildTimeline s.pass }

/-- `level_at(t)` on the timeline of the pass (R122). -/
def Pass.levelAt (p : Pass) (e : Env) (t : Int) : Level := Machine.levelAt e p.tl p.tlTotal t

/-- Where the hidden cursor rests after a query at `t`: on the entry read (R124, log 17). Nothing reads it. -/
def Pass.cursorAt (p : Pass) (t : Int) : Nat := lookupIndex p.tl p.tlTotal t

/-- LEVELAT on the pass: the level at `t`; the result does not depend on the cursor (R122, R124). -/
def levelatPass (e : Env) (p : Pass) : Pass :=
  { p with level := p.levelAt e p.queryT, tlCursor := p.cursorAt p.queryT }

/-- LEVELAT (R122). -/
def execLevelat (s : State) : Host.Outcome State Fault Refusal := .next (withPass s levelatPass)

end Sys2Proof.Machine
end

