-- ==== Sys2Proof/Machine/Sampler.lean ====
section
/-! DEFINITION. The bit sampler: SAMPLE, MAJ3, and the loop SAMPLEFRAME (43_bit_sampler.md). -/

namespace Sys2Proof.Machine

/-- `MAJ3(a, b, c)`: 1 when at least two of the three are 1 (R152). -/
def majority (v : Vote) : Level := decide (2 ≤ v.v0.toNat + v.v1.toNat + v.v2.toNat)

/-- MAJ3 on the pass: the majority of `VOTE` (R152). -/
def maj3Pass (p : Pass) : Pass := { p with bit := majority p.vote }

/-- MAJ3 (R152). -/
def execMaj3 (s : State) : Host.Outcome State Fault Refusal := .next { s with pass := maj3Pass s.pass }

/-- The three point samples of bit position `i`, early, centre, late (R151, R67). -/
def votesAt (e : Env) (p : Pass) (i : Nat) : Vote where
  v0 := p.levelAt e (sampleTime e p.startEdge i (-1))
  v1 := p.levelAt e (sampleTime e p.startEdge i 0)
  v2 := p.levelAt e (sampleTime e p.startEdge i 1)

/-- SAMPLE on the pass, for the bit position `BIT_IDX`: the votes, their majority appended to `FRAME_SR`, and
`BIT_IDX` moved on (R151, R150, R12, R17, log 15). R151 gives the operand only for `0 <= i < L`: run alone with
`BIT_IDX >= L` it samples on by the same formula (DESIGN CHOICE, log 32). -/
def samplePass (e : Env) (p : Pass) : Pass :=
  let votes := votesAt e p p.bitIdx
  { p with
    vote := votes
    bit := majority votes
    frameSr := p.frameSr ++ [majority votes]
    bitIdx := p.bitIdx + 1
    tlCursor := p.cursorAt (sampleTime e p.startEdge p.bitIdx 1) }

/-- SAMPLE (R151). -/
def execSample (s : State) : Host.Outcome State Fault Refusal := .next (withPass s samplePass)

/-- `n` turns of SAMPLEFRAME's loop (R150). -/
def sampleBits (e : Env) : Nat → Pass → Pass
  | 0, p => p
  | n + 1, p => sampleBits e n (samplePass e p)

/-- SAMPLEFRAME: every one of the `L` bit positions, whatever their values (R150). -/
def sampleFrame (e : Env) (p : Pass) : Pass := sampleBits e e.frameLen p

end Sys2Proof.Machine
end

