-- ==== Sys2Proof/Machine/Sync.lean ====
section
/-! DEFINITION. The frame synchroniser: HSTOP, ANCHOR0, HUNT, RESYNC, and the decode pass SDEC
(42_frame_sync.md). The stages move the sequencer as 10_state.md R17 says (log 15). -/

namespace Sys2Proof.Machine

/-! ### HSTOP -/

/-- Less than `L` bit periods remain after the search cursor (R131). -/
def hstopTest (e : Env) (p : Pass) : Bool :=
  p.tlTotal < p.tCur || lastsLessThan e (p.tlTotal - p.tCur) e.frameLen

/-- HSTOP on the pass: the test; when it holds the sequencer is DONE (R131, R17). -/
def hstopPass (e : Env) (p : Pass) : Pass :=
  { p with answer := hstopTest e p, phase := if hstopTest e p then .done else p.phase }

/-- HSTOP (R131). -/
def execHstop (s : State) : Host.Outcome State Fault Refusal := .next (withPass s hstopPass)

/-! ### The start edge -/

/-- A start edge is found at `t`: the anchor, and the sequencer at bit 0 of a frame (R17, R133, R150). -/
def anchorAt (p : Pass) (t : Nat) : Pass :=
  { p with answer := true, startEdge := t, bitIdx := 0, frameSr := [], phase := .sampling }

/-- The level of the current stream's first entry; free for an empty stream (R132, log 10). -/
def firstLevel (e : Env) (p : Pass) : Level :=
  match p.stream with
  | first :: _ => first.level
  | [] => Config.freeFirstLevel e.tick

/-- ANCHOR0 on the pass: a stream that starts at level 0 has an implicit start edge at time 0 (R132). -/
def anchor0Pass (e : Env) (p : Pass) : Pass :=
  if firstLevel e p then { p with answer := false } else anchorAt p 0

/-- ANCHOR0 (R132). -/
def execAnchor0 (s : State) : Host.Outcome State Fault Refusal := .next (withPass s anchor0Pass)

/-- A fall from the cursor to one step later (R133). -/
def fallAt (e : Env) (p : Pass) (t : Nat) : Bool :=
  p.levelAt e t && !p.levelAt e ((t + e.huntStepUs.toNat : Nat) : Int)

/-- HUNT on the pass: one step of the search (R133). -/
def huntPass (e : Env) (p : Pass) : Pass :=
  let next := p.tCur + e.huntStepUs.toNat
  let q := { p with tlCursor := p.cursorAt (next : Nat) }
  if fallAt e p p.tCur then anchorAt q next else { q with answer := false, tCur := next }

/-- HUNT (R133). -/
def execHunt (s : State) : Host.Outcome State Fault Refusal := .next (withPass s huntPass)

/-! ### RESYNC -/

/-- Where the cursor goes after a frame anchored at `startEdge` (R137). -/
def resyncTime (e : Env) (startEdge : Nat) : Nat :=
  startEdge + bitTime e (100 * ((e.frameLen : Int) - 1) + e.resyncMarginPct.toNat)

/-- RESYNC on the pass, after a good and a bad frame alike (R137, R138, R17). -/
def resyncPass (e : Env) (p : Pass) : Pass :=
  { p with tCur := resyncTime e p.startEdge, phase := .hunting }

/-- RESYNC (R137). -/
def execResync (s : State) : Host.Outcome State Fault Refusal := .next (withPass s resyncPass)

/-! ### SDEC -/

/-- The search of one trip: ANCHOR0 is tried in the first trip only, HUNT when it does not anchor (R130, R132). -/
def findStart (e : Env) (p : Pass) : Pass :=
  let tried := if p.first then anchor0Pass e p else { p with answer := false }
  let found := if tried.answer then tried else huntPass e tried
  { found with first := false }

/-- A frame found: sampled, decoded, and the cursor moved past it (R130). -/
def decodeFrame (e : Env) (p : Pass) : Pass := resyncPass e (fdecPass e (sampleFrame e p))

/-- One trip of the SDEC loop after HSTOP has answered false (R130). -/
def tripPass (e : Env) (p : Pass) : Pass :=
  let found := findStart e p
  if found.answer then decodeFrame e found else found

/-- The SDEC loop: trips until HSTOP answers true (R130). `fuel` bounds the number of HSTOP tests; none when it runs
out. -/
def tripsUntilStop (e : Env) : Nat → Pass → Option Pass
  | 0, _ => none
  | fuel + 1, p =>
    let tested := hstopPass e p
    if tested.answer then some tested else tripsUntilStop e fuel (tripPass e tested)

/-- Pass entry: the timeline, no bytes, the cursor at 0, HUNTING (R130). -/
def enterPass (p : Pass) : Pass :=
  { buildTimeline p with dbytes := [], tCur := 0, phase := .hunting, first := true }

/-- SDEC on the pass. Every trip but the first moves the cursor on by at least one microsecond while
`HUNT_STEP_US >= 1` (R139), so `TL_TOTAL + 3` tests are enough; none is left only for `HUNT_STEP_US = 0`, which
R29 makes illegal (log 21). -/
def sdecPass (e : Env) (p : Pass) : Option Pass := tripsUntilStop e ((enterPass p).tlTotal + 3) (enterPass p)

/-- SDEC (R130). -/
def execSdec (s : State) : Host.Outcome State Fault Refusal :=
  match sdecPass s.env s.pass with
  | some p => .next { s with pass := p }
  | none => .fault .passNeverEnds

end Sys2Proof.Machine
end

