-- ==== Sys2Proof/Machine/Poll.lean ====
section
/-! DEFINITION. POLL, and the close sequence it runs as one atomic operation (40_capture.md R100, R103;
20_memory.md R57). -/

namespace Sys2Proof.Machine

/-- PSEG, CSUM, EMIT, in this order (R100). -/
def finishStream (s : State) : State := emitState (withPass (psegState s) csumPass)

/-- The decode of the current stream: SDEC, then PSEG, CSUM, EMIT (R100). -/
def decodeStream (s : State) : Option State :=
  match sdecPass s.env s.pass with
  | some p => some (finishStream { s with pass := p })
  | none => none

/-- `n` streams in order (R100). -/
def decodeStreams : Nat → State → Option State
  | 0, s => some s
  | n + 1, s =>
    match decodeStream s with
    | some t => decodeStreams n t
    | none => none

/-- SPLIT, and every stream it yields (R100). -/
def decodeBurst (s : State) : Option State :=
  let cut := withPass s splitPass
  decodeStreams cut.pass.streams.length cut

/-- The close sequence with `close_ts = now` (R100): BCLOSE; then SPLIT and every stream on the edge path, PSEG, CSUM
and EMIT once on the byte path (R108). -/
def closeBurst (now : U64) (s : State) : Option State :=
  let closed := closeBuffer { s with pass := { s.pass with closeTs := now } }
  if s.cfg.inputSel then some (finishStream closed) else decodeBurst closed

/-- The burst closes: a session is open, the selected buffer is not empty, and the time since the last event exceeds
the idle gap, in unbounded integers (R103). -/
def pollCloses (now : U64) (s : State) : Bool :=
  s.run && s.pending && s.lastTs.toNat + s.cfg.idleGapUs.toNat < now.toNat

/-- POLL (R103). -/
def execPoll (now : U64) (s : State) : Host.Outcome State Fault Refusal :=
  if pollCloses now s then
    match closeBurst now s with
    | some t => .next t
    | none => .fault .passNeverEnds
  else .next s

end Sys2Proof.Machine
end

