-- ==== Sys2Proof/Machine/Dispatch.lean ====
section
/-! DEFINITION. From an operation to its meaning: one arm per constructor. -/

namespace Sys2Proof.Machine

def exec (i : Instr) (s : State) : Host.Outcome State Fault Refusal :=
  match i with
  -- host, producer, consumer
  | .reset => Sys2Proof.Machine.execReset s
  | .cfgw r v => Sys2Proof.Machine.execCfgw r v s
  | .cfgr r => Sys2Proof.Machine.execCfgr r s
  | .hdradd len packed => Sys2Proof.Machine.execHdradd len packed s
  | .hdrclr => Sys2Proof.Machine.execHdrclr s
  | .start => Sys2Proof.Machine.execStart s
  | .stop => Sys2Proof.Machine.execStop s
  | .edge level ts => Sys2Proof.Machine.execEdge level ts s
  | .rxbyte value ts => Sys2Proof.Machine.execRxbyte value ts s
  | .poll now => Sys2Proof.Machine.execPoll now s
  | .outpop => Sys2Proof.Machine.execOutpop s
  -- internal stages
  | .bclose => Sys2Proof.Machine.execBclose s
  | .split => Sys2Proof.Machine.execSplit s
  | .tlbuild => Sys2Proof.Machine.execTlbuild s
  | .levelat => Sys2Proof.Machine.execLevelat s
  | .sdec => Sys2Proof.Machine.execSdec s
  | .hstop => Sys2Proof.Machine.execHstop s
  | .anchor0 => Sys2Proof.Machine.execAnchor0 s
  | .hunt => Sys2Proof.Machine.execHunt s
  | .sample => Sys2Proof.Machine.execSample s
  | .maj3 => Sys2Proof.Machine.execMaj3 s
  | .resync => Sys2Proof.Machine.execResync s
  | .fdec => Sys2Proof.Machine.execFdec s
  | .pseg => Sys2Proof.Machine.execPseg s
  | .csum => Sys2Proof.Machine.execCsum s
  | .emit => Sys2Proof.Machine.execEmit s
  -- wire frames
  | .frame8N1 bits => Sys2Proof.Machine.execFrame8N1 bits s
  | .frame8E1 bits => Sys2Proof.Machine.execFrame8E1 bits s
  | .frame8O1 bits => Sys2Proof.Machine.execFrame8O1 bits s
  | .frame8N2 bits => Sys2Proof.Machine.execFrame8N2 bits s
  | .frame7E1 bits => Sys2Proof.Machine.execFrame7E1 bits s
  | .frame7O2 bits => Sys2Proof.Machine.execFrame7O2 bits s
  | .frame5N1 bits => Sys2Proof.Machine.execFrame5N1 bits s

end Sys2Proof.Machine
end

