-- ==== Sys2Proof/Machine/Step.lean ====
section
/-! DEFINITION. One step: the next item of the trace is fetched, decoded and run, as one atomic operation
(20_memory.md R46; 30_encoding.md R84). -/

namespace Sys2Proof.Machine

/-- One step. With nothing pending nothing runs (R230, log 23). An item that decodes is run; one
that does not is `undefinedItem`. -/
def step (s : State) : Host.Outcome State Fault Refusal :=
  match s.input with
  | [] => .next s
  | item :: rest =>
    match decode item with
    | some i => exec i (s.issue rest)
    | none => undefinedItem item (s.issue rest)

/-- The state with a word of the opcode table placed where the next step fetches: at the head of the trace
(log 1). -/
def State.withFetchWord (s : State) (nbits w : Nat) : State := { s with input := tableInput nbits w :: s.input }

end Sys2Proof.Machine
end

