-- ==== Sys2Proof/Machine/Records.lean ====
section
/-! DEFINITION. The bit layouts of the records (30_encoding.md R70, R71). No operation of the ASR moves a record in
this form; packets have no layout (R72). -/

namespace Sys2Proof.Machine

/-- 65 bits: `[64] level`, `[63:0] timestamp_us` (R70). -/
def packEdge (x : EdgeEvent) : BitVec 65 := BitVec.ofBool x.level ++ x.timestampUs

/-- The EdgeEvent of a 65-bit layout. -/
def unpackEdge (w : BitVec 65) : EdgeEvent := ⟨w.getLsbD 64, w.extractLsb' 0 64⟩

/-- 72 bits: `[71:64] value`, `[63:0] timestamp_us` (R70). -/
def packRxByte (x : RxByte) : BitVec 72 := x.value ++ x.timestampUs

/-- The RxByte of a 72-bit layout. -/
def unpackRxByte (w : BitVec 72) : RxByte := ⟨w.extractLsb' 64 8, w.extractLsb' 0 64⟩

/-- 65 bits: `[64] level`, `[63:0] duration_us` (R70). -/
def packRunLength (x : RunLength) : BitVec 65 := BitVec.ofBool x.level ++ x.durationUs

/-- The RunLengthEntry of a 65-bit layout. -/
def unpackRunLength (w : BitVec 65) : RunLength := ⟨w.getLsbD 64, w.extractLsb' 0 64⟩

/-- 65 bits: `[64] level`, `[63:0] start` (R70); none for a start that 64 bits do not hold. -/
def packTlEntry (x : TlEntry) : Option (BitVec 65) :=
  if x.start < 2 ^ 64 then some (BitVec.ofBool x.level ++ BitVec.ofNat 64 x.start) else none

/-- The TL element of a 65-bit layout. -/
def unpackTlEntry (w : BitVec 65) : TlEntry := ⟨(w.extractLsb' 0 64).toNat, w.getLsbD 64⟩

/-- 10 bits: `[9] framing_ok`, `[8] parity_ok`, `[7:0] value` (R71). -/
def packDecodedByte (x : DecodedByte) : BitVec 10 :=
  BitVec.ofBool x.framingOk ++ (BitVec.ofBool x.parityOk ++ x.value)

/-- The DecodedByte of a 10-bit layout. -/
def unpackDecodedByte (w : BitVec 10) : DecodedByte := ⟨w.extractLsb' 0 8, w.getLsbD 8, w.getLsbD 9⟩

end Sys2Proof.Machine
end

