-- ==== Sys2Proof/Machine/Transmit.lean ====
section
/-! DEFINITION. The ideal transmitter: the pseudo-operations TX and TXRAW, which write test inputs (30_encoding.md
R85, R62). Not part of the machine: they expand to EDGE words (log 30). -/

namespace Sys2Proof.Machine

/-- The low `n` bits of a data byte, least significant first (R62). -/
def transmitData (n : Nat) (value : Byte) : List Level := (List.range n).map fun i => value.getLsbD i

/-- The parity bit that makes the number of ones even or odd (R62); none without parity. -/
def transmitParity (t : Template) (data : List Level) : List Level :=
  match t.parity.toNat with
  | 0 => []
  | 1 => [data.count true % 2 == 1]
  | 2 => [data.count true % 2 == 0]
  | _ => [Config.freeParityBit (data.count true)]

/-- The `L` levels of a well-formed frame: start bit, data, parity, stop bits (R62). -/
def frameLevels (t : Template) (value : Byte) : List Level :=
  let data := transmitData t.dataBits value
  false :: (data ++ transmitParity t data ++ List.replicate t.stopBits true)

/-- An edge for each change of level, the first compared with `prev`; position `k` lies at `t0 + floor(k * pn / pd)`
(R85). -/
def edgesFrom (t0 pn pd : Nat) (prev : Level) (k : Nat) : List Level → List (Level × Nat)
  | [] => []
  | l :: rest =>
    if l = prev then edgesFrom t0 pn pd l (k + 1) rest
    else (l, t0 + k * pn / pd) :: edgesFrom t0 pn pd l (k + 1) rest

/-- TXRAW: the edges of a literal level sequence, after an idle line (R85). -/
def txraw (t0 pn pd : Nat) (levels : List Level) : List (Level × Nat) := edgesFrom t0 pn pd true 0 levels

/-- TX: the edges of the bytes' frames, back to back (R85). -/
def tx (t : Template) (t0 pn pd : Nat) (bytes : List Byte) : List (Level × Nat) :=
  txraw t0 pn pd (bytes.flatMap (frameLevels t))

/-- The EDGE words of a list of edges with timestamps below 2^64 (R80). -/
def edgeInputs (edges : List (Level × Nat)) : List Input :=
  edges.map fun x => encode (.edge x.1 (BitVec.ofNat 64 x.2))

end Sys2Proof.Machine
end

