-- ==== Sys2Proof/Safety.lean ====
section
/-! DEFINITION. What the statements speak about beside the machine: the invariant of a state, runs of operations,
what a run accepts and hands over, and when two states differ only in what is dead between passes. -/

namespace Sys2Proof.Machine

/-! ### The invariant -/

/-- A verdict as R72 and R178 allow it: a match exactly when the difference is 0, within -255 .. 255. -/
structure Verdict.Legal (v : Verdict) : Prop where
  match_iff : v.isMatch = true ↔ v.diff = 0
  lower : -255 ≤ v.diff
  upper : v.diff ≤ 255

/-- A packet as R72 allows it: not empty, a slot of the table or none, a legal verdict or none. -/
structure Packet.Legal (p : Packet) : Prop where
  nonempty : p.bytes ≠ []
  slot : ∀ k, p.hdr = some k → k < Config.nHdr
  verdict : ∀ v, p.chk = some v → v.Legal

/-- What every step keeps. -/
structure State.Inv (s : State) : Prop where
  /-- The reserved bits of `CTRL` read 0 (R31). -/
  ctrl_reserved : s.cfg.ctrl.toNat < 4
  /-- At most `N_HDR` headers (R33). -/
  hdr_count : s.hdr.length ≤ Config.nHdr
  /-- Each of 1 to 8 bytes (R33). -/
  hdr_lengths : ∀ h ∈ s.hdr, 1 ≤ h.length ∧ h.length ≤ Config.hdrMax
  /-- The configuration is legal throughout a session (R34). -/
  run_valid : s.run = true → s.cfg.valid = true
  /-- Nothing is captured outside a session (R101, R102, R197). -/
  stopped_empty : s.run = false → s.ebuf = [] ∧ s.bbuf = []
  /-- Only the selected buffer holds anything (R31). -/
  edge_path : s.cfg.inputSel = false → s.bbuf = []
  byte_path : s.cfg.inputSel = true → s.ebuf = []
  /-- Timestamps of a burst do not decrease (R101, R226). -/
  ebuf_sorted : (s.ebuf.map fun x => x.timestampUs.toNat).Pairwise (· ≤ ·)
  bbuf_sorted : (s.bbuf.map fun x => x.timestampUs.toNat).Pairwise (· ≤ ·)
  /-- `LAST_TS` is the timestamp of the most recent event (R14). -/
  ebuf_last : ∀ x, s.ebuf.getLast? = some x → x.timestampUs = s.lastTs
  bbuf_last : ∀ x, s.bbuf.getLast? = some x → x.timestampUs = s.lastTs
  /-- Every packet delivered, or about to be, is legal (R72). -/
  outq_legal : ∀ p ∈ s.outq, p.Legal
  packets_legal : ∀ p ∈ s.pass.packets, p.Legal

/-! ### The register file and the frame, as the statements spell them -/

/-- The configuration registers 0x00 to 0x0A in order, each zero-extended to 64 bits (R20). -/
def cfgRegisters (c : Cfg) : List U64 :=
  [c.baud.setWidth 64, c.dataBits.setWidth 64, c.parity.setWidth 64, c.stopBits.setWidth 64, c.idleGapUs,
    c.subIdleBits.setWidth 64, c.sampleOffsetPct.setWidth 64, c.voteSpacingPct.setWidth 64, c.huntStepUs.setWidth 64,
    c.resyncMarginPct.setWidth 64, c.ctrl]

/-- The widths of the registers 0x00 to 0x0A in order (R20). -/
def cfgWidths : List Nat := [32, 8, 2, 8, 64, 32, 8, 8, 8, 8, 64]

/-- `L` for `n` data bits, a parity code and `m` stop bits (R61). -/
def frameLength (n parity m : Nat) : Nat := 1 + n + (if parity = 0 then 0 else 1) + m

/-- The number of ones among the `n` data bits and the parity bit behind them (R164). -/
def onesWithParity (n : Nat) (bits : List Level) : Nat :=
  ((List.range n).map fun i => (bits.getD (1 + i) false).toNat).sum + (bits.getD (n + 1) false).toNat

/-- `b` is what R161 to R164 make of the sampled bits of a frame of `n` data bits, a parity code and `m` stop bits. -/
structure FrameJudged (n parity m : Nat) (bits : List Level) (b : DecodedByte) : Prop where
  value : b.value.toNat = ((List.range n).map fun i => (bits.getD (1 + i) false).toNat * 2 ^ i).sum
  framing : b.framingOk = true ↔
    bits.getD 0 false = false ∧
      ∀ j, frameLength n parity 0 ≤ j → j < frameLength n parity m → bits.getD j false = true
  parity_none : parity = 0 → b.parityOk = true
  parity_even : parity = 1 → (b.parityOk = true ↔ onesWithParity n bits % 2 = 0)
  parity_odd : parity = 2 → (b.parityOk = true ↔ onesWithParity n bits % 2 = 1)

/-- `TL` and `TL_TOTAL` are the timeline of a stream (R120): entry `j` starts where the durations before it end. -/
structure IsTimeline (rle : List RunLength) (tl : List TlEntry) (total : Nat) : Prop where
  length : tl.length = rle.length
  entry : ∀ (j : Nat) (h : j < rle.length),
    tl[j]? = some ⟨((rle.take j).map fun x => x.durationUs.toNat).sum, rle[j].level⟩
  total : total = (rle.map fun x => x.durationUs.toNat).sum

/-! ### The start edges of a decode pass

`falls c` says that the line falls one hunt step after the cursor `c` (R133), `stops c` that HSTOP is true there (R131),
`step` is the hunt step and `resync t` the cursor after the frame anchored at `t` (R137). -/

/-- The hunt walks from `cursor` to `last` in whole steps, and before `last` neither stops nor meets a fall. -/
def HuntReaches (falls stops : Nat → Prop) (step cursor last : Nat) : Prop :=
  ∃ j, last = cursor + j * step ∧ ∀ i, i < j → ¬ stops (cursor + i * step) ∧ ¬ falls (cursor + i * step)

/-- From `cursor` on the pass meets exactly the start edges of the list, in this order, and stops at `last`: each one step after
the first fall the hunt meets, from `cursor` for the first of them, then from where RESYNC leaves the cursor. -/
def MeetsEdges (falls stops : Nat → Prop) (step : Nat) (resync : Nat → Nat) : Nat → List Nat → Nat → Prop
  | cursor, [], last => HuntReaches falls stops step cursor last ∧ stops last
  | cursor, t :: rest, last =>
    ∃ c, HuntReaches falls stops step cursor c ∧ ¬ stops c ∧ falls c ∧ t = c + step ∧
      MeetsEdges falls stops step resync (resync t) rest last

/-! ### Runs -/

/-- The operations of a list, one after another, until one does not answer a next state. -/
def runInstrs : List Instr → State → Host.Outcome State Fault Refusal
  | [], s => .next s
  | i :: rest, s =>
    match exec i s with
    | .next t => runInstrs rest t
    | .fault r => .fault r
    | .refused r => .refused r

/-- A port operation: one the table gives an 80-bit command word (R80). -/
def isPortOp : Instr → Bool
  | .reset | .cfgw _ _ | .cfgr _ | .hdradd _ _ | .hdrclr | .start | .stop => true
  | .edge _ _ | .rxbyte _ _ | .poll _ | .outpop => true
  | .bclose | .split | .tlbuild | .levelat | .sdec | .hstop | .anchor0 | .hunt | .sample | .maj3 => false
  | .resync | .fdec | .pseg | .csum | .emit => false
  | .frame8N1 _ | .frame8E1 _ | .frame8O1 _ | .frame8N2 _ | .frame7E1 _ | .frame7O2 _ | .frame5N1 _ => false

/-- The event an operation adds to `EBUF` (R101): an EDGE in an open session with the edge input selected. -/
def acceptedEdge (i : Instr) (s : State) : List EdgeEvent :=
  match i with
  | .edge level ts => if s.run && !s.cfg.inputSel then [⟨level, ts⟩] else []
  | .reset | .cfgw _ _ | .cfgr _ | .hdradd _ _ | .hdrclr | .start | .stop | .outpop => []
  | .rxbyte _ _ | .poll _ => []
  | .bclose | .split | .tlbuild | .levelat | .sdec | .hstop | .anchor0 | .hunt | .sample | .maj3 => []
  | .resync | .fdec | .pseg | .csum | .emit => []
  | .frame8N1 _ | .frame8E1 _ | .frame8O1 _ | .frame8N2 _ | .frame7E1 _ | .frame7O2 _ | .frame5N1 _ => []

/-- The snapshot an operation takes of `EBUF` (R47): a POLL that closes, or BCLOSE, on the edge path. -/
def edgeSnapshot (i : Instr) (s : State) : List EdgeEvent :=
  match i with
  | .poll now => if pollCloses now s && !s.cfg.inputSel then s.ebuf else []
  | .bclose => if s.cfg.inputSel then [] else s.ebuf
  | .reset | .cfgw _ _ | .cfgr _ | .hdradd _ _ | .hdrclr | .start | .stop | .outpop => []
  | .edge _ _ | .rxbyte _ _ => []
  | .split | .tlbuild | .levelat | .sdec | .hstop | .anchor0 | .hunt | .sample | .maj3 => []
  | .resync | .fdec | .pseg | .csum | .emit => []
  | .frame8N1 _ | .frame8E1 _ | .frame8O1 _ | .frame8N2 _ | .frame7E1 _ | .frame7O2 _ | .frame5N1 _ => []

/-- Everything `f` records along a run, in order. -/
def collectRun (f : Instr → State → List EdgeEvent) : List Instr → State → List EdgeEvent
  | [], _ => []
  | i :: rest, s =>
    f i s ++ match exec i s with
      | .next t => collectRun f rest t
      | .fault _ => []
      | .refused _ => []

/-! ### What is dead between passes (R13) -/

/-- The two states are equal in everything but the pass: what R13 calls dead between passes. -/
def SameButPass (s t : State) : Prop := { s with pass := t.pass } = t

/-- Two outcomes that a host cannot tell apart: the same stop, or next states equal but for the pass. -/
def SameOutcome : Host.Outcome State Fault Refusal → Host.Outcome State Fault Refusal → Prop
  | .next s, .next t => SameButPass s t
  | .fault a, .fault b => a = b
  | .refused a, .refused b => a = b
  | _, _ => False

/-- The stages a closing POLL runs on the edge path when SPLIT yields `n` streams (R100). -/
def closeStages (n : Nat) : List Instr :=
  [.bclose, .split] ++ (List.replicate n [Instr.sdec, .pseg, .csum, .emit]).flatten

end Sys2Proof.Machine
end

