-- ==== Sys2Proof/Certificates/Slice0/Obligations.lean ====
section
/-! DEFINITION. The statements about the machine, for the provers. Each docstring names the rules it formalises;
where a clause rests on a choice of the model's own, it names the log entry. -/

open Sys2Proof Sys2Proof.Machine

/-! ### Encoding -/

/-- Decoding the encoding of a well-formed operation gives it back, every operand kept (R75, R80, R81, R62). -/
def Obligations.DecodeOfEncodeIsTheOperation : Prop :=
  ∀ i : Instr, i.wf = true → decode (encode i) = some i

/-- An item that decodes is the encoding of what it decodes to: no two items mean one operation (R75, R80, R81). -/
def Obligations.EncodeOfDecodeIsTheItem : Prop :=
  ∀ (item : Input) (i : Instr), decode item = some i → encode i = item

/-- R80: a word is an operation exactly when `w AND mask = match`, and its operands are the fields of R75. -/
def Obligations.CommandWordIsTheOperationOfItsRow : Prop :=
  ∀ w : BitVec 80,
    (w &&& 0xFFFFFFFFFFFFFFFFFFFF = 0x01000000000000000000 ↔ decodeCommand w = some .reset) ∧
    (w &&& 0xFF000000000000000000 = 0x02000000000000000000 ↔
      decodeCommand w = some (.cfgw (w.extractLsb' 64 8) (w.extractLsb' 0 64))) ∧
    (w &&& 0xFF00FFFFFFFFFFFFFFFF = 0x03000000000000000000 ↔ decodeCommand w = some (.cfgr (w.extractLsb' 64 8))) ∧
    (w &&& 0xFF000000000000000000 = 0x04000000000000000000 ↔
      decodeCommand w = some (.hdradd (w.extractLsb' 64 8) (w.extractLsb' 0 64))) ∧
    (w &&& 0xFFFFFFFFFFFFFFFFFFFF = 0x05000000000000000000 ↔ decodeCommand w = some .hdrclr) ∧
    (w &&& 0xFFFFFFFFFFFFFFFFFFFF = 0x06000000000000000000 ↔ decodeCommand w = some .start) ∧
    (w &&& 0xFFFFFFFFFFFFFFFFFFFF = 0x07000000000000000000 ↔ decodeCommand w = some .stop) ∧
    (w &&& 0xFFFE0000000000000000 = 0x08000000000000000000 ↔
      decodeCommand w = some (.edge (w.getLsbD 64) (w.extractLsb' 0 64))) ∧
    (w &&& 0xFF000000000000000000 = 0x09000000000000000000 ↔
      decodeCommand w = some (.rxbyte (w.extractLsb' 64 8) (w.extractLsb' 0 64))) ∧
    (w &&& 0xFFFF0000000000000000 = 0x0A000000000000000000 ↔ decodeCommand w = some (.poll (w.extractLsb' 0 64))) ∧
    (w &&& 0xFFFFFFFFFFFFFFFFFFFF = 0x0B000000000000000000 ↔ decodeCommand w = some .outpop)

/-- Words of the programs P1 to P4, decoded, three undefined words of P4 among them (R80). Then a stage id of R81 and the frame
of 0x4D of R62: that a trace item carries a stage or a frame, and which operation that is, is the model's choice (logs 2, 3). -/
def Obligations.WordsOfTheSpecDecode : Prop :=
  decode (.command 0x02000000000000002580) = some (.cfgw 0 9600) ∧
  decode (.command 0x0402000000000000C04D) = some (.hdradd 2 0xC04D) ∧
  decode (.command 0x0801000000000000044C) = some (.edge true 1100) ∧
  decode (.command 0x09600000000000000FA0) = some (.rxbyte 0x60 4000) ∧
  decode (.command 0x0A0000000000000045ED) = some (.poll 17901) ∧
  decode (.command 0xFF000000000000000000) = none ∧
  decode (.command 0x080200000000000003E8) = none ∧
  decode (.command 0x17000000000000000000) = none ∧
  decode (.stage 0x17) = some .hunt ∧
  decode (.wire .s8N1 [false, true, false, true, true, false, false, true, false, true]) =
    some (.frame8N1 [false, true, false, true, true, false, false, true, false, true])

/-- The record layouts of R70 and R71 lose nothing. -/
def Obligations.RecordLayoutsLoseNothing : Prop :=
  (∀ x, unpackEdge (packEdge x) = x) ∧ (∀ x, unpackRxByte (packRxByte x) = x) ∧
  (∀ x, unpackRunLength (packRunLength x) = x) ∧ (∀ x, unpackDecodedByte (packDecodedByte x) = x) ∧
  (∀ x w, packTlEntry x = some w → unpackTlEntry w = x) ∧ (∀ x : TlEntry, x.start < 2 ^ 64 → (packTlEntry x).isSome)

/-! ### The step -/

/-- A pending item that decodes is run, in the state from which it is gone, nothing returned yet, the tick moved on
(logs 1, 14, 19). -/
def Obligations.StepRunsTheDecodedOperation : Prop :=
  ∀ (s : State) (item : Input) (rest : List Input) (i : Instr), s.input = item :: rest → decode item = some i →
    step s = exec i { s with input := rest, result := .nothing, tick := s.tick + 1 }

/-- R198: a command word that matches no row of R80 changes nothing except `CMD_ERR`. -/
def Obligations.UndefinedWordOnlySetsCmdErr : Prop :=
  ∀ (s : State) (w : BitVec 80) (rest : List Input), s.input = .command w :: rest →
    (∀ row ∈ portRows, w &&& row.1 ≠ row.2) →
    step s = .next { s with input := rest, result := .nothing, tick := s.tick + 1, cmdErr := true }

/-- R230: with nothing pending nothing runs (log 23). -/
def Obligations.NothingRunsWithoutAnOperation : Prop := ∀ s : State, s.input = [] → step s = .next s

/-! ### Reset and the invariant -/

/-- R190, R38: RESET puts every specified item at its reset value, in any state; power-on is the same (R230). -/
def Obligations.ResetPutsEveryItemAtItsResetValue : Prop :=
  ∀ s : State, ∃ t : State, exec .reset s = .next t ∧
    ∀ u : State, u = t ∨ u = State.reset →
      u.cfg = { baud := 0, dataBits := 0, parity := 0, stopBits := 0, idleGapUs := 10000, subIdleBits := 32,
                sampleOffsetPct := 65, voteSpacingPct := 5, huntStepUs := 1, resyncMarginPct := 10, ctrl := 0 } ∧
      u.hdr = [] ∧ u.run = false ∧ u.cfgErr = false ∧ u.cmdErr = false ∧ u.ebuf = [] ∧ u.bbuf = [] ∧
      u.pass.rle = [] ∧ u.pass.dbytes = [] ∧ u.outq = [] ∧ u.lastTs = 0

/-- The invariant holds after reset. -/
def Obligations.InvariantHoldsAtReset : Prop := State.reset.Inv

/-- Every step keeps the invariant, from every state that has it, whatever is pending. -/
def Obligations.EveryStepKeepsTheInvariant : Prop :=
  ∀ s t : State, s.Inv → step s = .next t → t.Inv

/-! ### Host operations -/

/-- R192: CFGW is ignored with `CMD_ERR` set while a session is open, for a read-only or unassigned register, for a
value that does not fit, and for a reserved bit of `CTRL`; else it stores the value, and nothing else changes. -/
def Obligations.CfgwStoresTheValueOrSetsCmdErr : Prop :=
  ∀ (s : State) (r : Byte) (v : U64),
    (s.run = true ∨ 0x0A < r.toNat ∨ 2 ^ cfgWidths.getD r.toNat 64 ≤ v.toNat ∨ (r = 0x0A ∧ v.extractLsb' 2 62 ≠ 0) →
      exec (.cfgw r v) s = .next { s with cmdErr := true }) ∧
    (s.run = false → r.toNat ≤ 0x0A → v.toNat < 2 ^ cfgWidths.getD r.toNat 64 →
      (r = 0x0A → v.extractLsb' 2 62 = 0) →
      ∃ c, exec (.cfgw r v) s = .next { s with cfg := c } ∧ cfgRegisters c = (cfgRegisters s.cfg).set r.toNat v)

/-- R193: CFGR returns the assigned register and has no side effect; for an unassigned number it returns 0 and sets
`CMD_ERR`. -/
def Obligations.CfgrReturnsTheRegister : Prop :=
  ∀ (s : State) (r : Byte),
    (∀ v, (cfgRegisters s.cfg ++ [s.status, s.lastTs, BitVec.ofNat 64 s.hdr.length])[r.toNat]? = some v →
      exec (.cfgr r) s = .next { s with result := .value v }) ∧
    (0x0D < r.toNat → exec (.cfgr r) s = .next { s with result := .value 0, cmdErr := true })

/-- R32: the bits of `STATUS`. -/
def Obligations.StatusReadsTheSessionAndTheBuffers : Prop :=
  ∀ s : State, ∃ v : U64, exec (.cfgr 0x0B) s = .next { s with result := .value v } ∧
    v.getLsbD 0 = s.run ∧
    v.getLsbD 1 = (if s.cfg.ctrl.getLsbD 1 then decide (s.bbuf ≠ []) else decide (s.ebuf ≠ [])) ∧
    v.getLsbD 2 = decide (s.outq ≠ []) ∧ v.getLsbD 3 = s.cfgErr ∧ v.getLsbD 4 = s.cmdErr ∧ v.extractLsb' 5 59 = 0

/-- R194: HDRADD appends the header of its bytes, byte `q` in bits 8q+7:8q, or sets `CMD_ERR`. -/
def Obligations.HdraddAppendsTheHeaderOrSetsCmdErr : Prop :=
  ∀ (s : State) (len : Byte) (packed : U64),
    (s.run = true ∨ len.toNat < 1 ∨ 8 < len.toNat ∨ s.hdr.length = Config.nHdr ∨ 2 ^ (8 * len.toNat) ≤ packed.toNat →
      exec (.hdradd len packed) s = .next { s with cmdErr := true }) ∧
    (s.run = false → 1 ≤ len.toNat → len.toNat ≤ 8 → s.hdr.length ≠ Config.nHdr →
      packed.toNat < 2 ^ (8 * len.toNat) →
      ∃ h : List Byte, exec (.hdradd len packed) s = .next { s with hdr := s.hdr ++ [h] } ∧ h.length = len.toNat ∧
        ∀ q, q < len.toNat → h[q]? = some (BitVec.ofNat 8 (packed.toNat / 2 ^ (8 * q))))

/-- R195: HDRCLR empties the header table, or sets `CMD_ERR` while a session is open. -/
def Obligations.HdrclrEmptiesTheTable : Prop :=
  ∀ s : State, (s.run = true → exec .hdrclr s = .next { s with cmdErr := true }) ∧
    (s.run = false → exec .hdrclr s = .next { s with hdr := [] })

/-- R196 with the `cfg_valid` of R34: START opens a session with empty capture buffers, is refused with `CFG_ERR` on an
invalid configuration, and has no effect on an open session. -/
def Obligations.StartOpensASessionOnAValidConfiguration : Prop :=
  ∀ s : State,
    (s.run = true → exec .start s = .next s) ∧
    (s.run = false →
      (1 ≤ s.cfg.baud.toNat ∧ s.cfg.baud.toNat ≤ 1000000 ∧ 1 ≤ s.cfg.dataBits.toNat ∧ s.cfg.dataBits.toNat ≤ 8 ∧
        s.cfg.parity.toNat ≠ 3 ∧ 1 ≤ s.cfg.stopBits.toNat ∧ 1 ≤ s.cfg.huntStepUs.toNat ∧
        s.cfg.voteSpacingPct.toNat ≤ s.cfg.sampleOffsetPct.toNat →
        exec .start s = .next { s with cfgErr := false, ebuf := [], bbuf := [], run := true }) ∧
      (¬ (1 ≤ s.cfg.baud.toNat ∧ s.cfg.baud.toNat ≤ 1000000 ∧ 1 ≤ s.cfg.dataBits.toNat ∧ s.cfg.dataBits.toNat ≤ 8 ∧
        s.cfg.parity.toNat ≠ 3 ∧ 1 ≤ s.cfg.stopBits.toNat ∧ 1 ≤ s.cfg.huntStepUs.toNat ∧
        s.cfg.voteSpacingPct.toNat ≤ s.cfg.sampleOffsetPct.toNat) →
        exec .start s = .next { s with cfgErr := true }))

/-- R197: STOP closes the session and discards the events not yet closed; the rest is kept. With no session open it has no effect
(in a state that keeps the invariant: outside a session nothing is captured). -/
def Obligations.StopDiscardsTheCapture : Prop :=
  ∀ s : State, exec .stop s = .next { s with run := false, ebuf := [], bbuf := [] } ∧
    (s.Inv → s.run = false → exec .stop s = .next s)

/-- R199: OUTPOP returns the oldest packet and removes it, or returns none. -/
def Obligations.OutpopTakesTheOldestPacket : Prop :=
  ∀ s : State,
    (s.outq = [] → exec .outpop s = .next { s with result := .packet none }) ∧
    (∀ pkt rest, s.outq = pkt :: rest → exec .outpop s = .next { s with result := .packet (some pkt), outq := rest })

/-! ### Capture -/

/-- R101: EDGE is dropped while stopped or deselected, refused when its timestamp goes back inside a burst, else
appended. -/
def Obligations.EdgeIsAppendedDroppedOrRefused : Prop :=
  ∀ (s : State) (level : Level) (ts : U64),
    (s.run = false ∨ s.cfg.ctrl.getLsbD 1 = true → exec (.edge level ts) s = .next s) ∧
    (s.run = true → s.cfg.ctrl.getLsbD 1 = false →
      (s.ebuf ≠ [] ∧ ts.toNat < s.lastTs.toNat → exec (.edge level ts) s = .refused .contractViolation) ∧
      (s.ebuf = [] ∨ s.lastTs.toNat ≤ ts.toNat →
        exec (.edge level ts) s = .next { s with ebuf := s.ebuf ++ [⟨level, ts⟩], lastTs := ts }))

/-- R102: RXBYTE, the same on the byte input. -/
def Obligations.RxbyteIsAppendedDroppedOrRefused : Prop :=
  ∀ (s : State) (value : Byte) (ts : U64),
    (s.run = false ∨ s.cfg.ctrl.getLsbD 1 = false → exec (.rxbyte value ts) s = .next s) ∧
    (s.run = true → s.cfg.ctrl.getLsbD 1 = true →
      (s.bbuf ≠ [] ∧ ts.toNat < s.lastTs.toNat → exec (.rxbyte value ts) s = .refused .contractViolation) ∧
      (s.bbuf = [] ∨ s.lastTs.toNat ≤ ts.toNat →
        exec (.rxbyte value ts) s = .next { s with bbuf := s.bbuf ++ [⟨value, ts⟩], lastTs := ts }))

/-- R103: a POLL with no session, no event, or no more than the idle gap since the last event changes nothing. -/
def Obligations.PollBeforeTheIdleGapChangesNothing : Prop :=
  ∀ (s : State) (now : U64),
    s.run = false ∨ (s.cfg.ctrl.getLsbD 1 = false ∧ s.ebuf = []) ∨ (s.cfg.ctrl.getLsbD 1 = true ∧ s.bbuf = []) ∨
      now.toNat ≤ s.lastTs.toNat + s.cfg.idleGapUs.toNat →
    exec (.poll now) s = .next s

/-- R103, R100, R48, R72, R178: a POLL past the idle gap on the edge input, in a legal configuration, completes: it empties
`EBUF`, appends packets to `OUTQ`, and leaves everything else but the pass and the hidden bank alone (log 17). No packet is
empty, its header is a slot of the table or none, and it has a verdict exactly when `CHK_EN` is set. -/
def Obligations.PollPastTheIdleGapClosesTheBurst : Prop :=
  ∀ (s : State) (now : U64), s.run = true → s.cfg.valid = true → s.cfg.ctrl.getLsbD 1 = false → s.ebuf ≠ [] →
    s.lastTs.toNat + s.cfg.idleGapUs.toNat < now.toNat →
    ∃ (p : Pass) (new : List Packet),
      exec (.poll now) s = .next { s with ebuf := [], bank := !s.bank, pass := p, outq := s.outq ++ new } ∧
      ∀ pkt ∈ new, pkt.bytes ≠ [] ∧ (∀ k, pkt.hdr = some k → k < s.hdr.length) ∧
        (pkt.chk.isSome = s.cfg.ctrl.getLsbD 0)

/-- R108, R171, R172, R174, R178, R180: a POLL past the idle gap on the byte input appends the bytes to `OUTQ`, in order, both flags
true, cut into packets exactly where a header matches: a packet carries the match at its first byte, no header matches at a later
byte of it, and only the first packet may be unclassified. With `CHK_EN` set every packet has the verdict of R178, else none has.
(The hidden bank moves: log 17.) -/
def Obligations.PollOnTheByteInputDeliversTheBytes : Prop :=
  ∀ (s : State) (now : U64), s.run = true → s.cfg.ctrl.getLsbD 1 = true → s.bbuf ≠ [] →
    s.lastTs.toNat + s.cfg.idleGapUs.toNat < now.toNat →
    ∃ (p : Pass) (new : List Packet),
      exec (.poll now) s = .next { s with bbuf := [], bank := !s.bank, pass := p, outq := s.outq ++ new } ∧
      new.flatMap (·.bytes) = s.bbuf.map (fun b => ⟨b.value, true, true⟩) ∧
      ∀ (before after : List Packet) (pkt : Packet), new = before ++ pkt :: after →
        let rest := pkt.bytes ++ after.flatMap (·.bytes)
        pkt.bytes ≠ [] ∧ pkt.hdr = matchSlot s.hdr rest ∧ (pkt.hdr = none → before = []) ∧
        (∀ q, 0 < q → q < pkt.bytes.length → matchSlot s.hdr (rest.drop q) = none) ∧
        (s.cfg.ctrl.getLsbD 0 = false → pkt.chk = none) ∧
        (s.cfg.ctrl.getLsbD 0 = true → ∀ (init : List DecodedByte) (last : DecodedByte), pkt.bytes = init ++ [last] →
          let computed := (init.map fun b => b.value.toNat).sum % 256
          pkt.chk = some ⟨decide (computed = last.value.toNat), (last.value.toNat : Int) - (computed : Int)⟩)

/-- R100, R108: a closing POLL is its stages run one after another. On the edge input: BCLOSE, SPLIT, and SDEC, PSEG, CSUM, EMIT for
each of the streams SPLIT yields; on the byte input: BCLOSE, PSEG, CSUM, EMIT, once.
(A stage run alone, its operands and results in the pass, is the model's: log 2.) -/
def Obligations.ClosingPollIsItsStagesInOrder : Prop :=
  ∀ (s : State) (now : U64), s.run = true → s.lastTs.toNat + s.cfg.idleGapUs.toNat < now.toNat →
    let closing := { s with pass := { s.pass with closeTs := now } }
    (s.cfg.ctrl.getLsbD 1 = false → s.ebuf ≠ [] →
      ∃ cut, runInstrs [.bclose, .split] closing = .next cut ∧
        exec (.poll now) s = runInstrs (closeStages cut.pass.streams.length) closing) ∧
    (s.cfg.ctrl.getLsbD 1 = true → s.bbuf ≠ [] →
      exec (.poll now) s = runInstrs [.bclose, .pseg, .csum, .emit] closing)

/-- R105 on the edge input: BCLOSE takes the whole of `EBUF` and leaves one run for each event, lasting to the next event, the
last to the close. (The hidden bank select moves with it: log 17.)
(A stage run alone, its operands and results in the pass, is the model's: log 2.) -/
def Obligations.BcloseTurnsTheEventsIntoRuns : Prop :=
  ∀ s : State, s.cfg.ctrl.getLsbD 1 = false → s.ebuf ≠ [] →
    (s.ebuf.map (fun x => x.timestampUs.toNat) ++ [s.pass.closeTs.toNat]).Pairwise (· ≤ ·) →
    ∃ rle : List RunLength,
      exec .bclose s = .next { s with ebuf := [], bank := !s.bank, pass := { s.pass with rle := rle } } ∧
      rle.length = s.ebuf.length ∧
      ∀ (j : Nat) (h : j < s.ebuf.length), ∃ x, rle[j]? = some x ∧ x.level = s.ebuf[j].level ∧
        s.ebuf[j].timestampUs.toNat + x.durationUs.toNat =
          (s.ebuf.map (fun x => x.timestampUs.toNat) ++ [s.pass.closeTs.toNat]).getD (j + 1) 0

/-- R105 and R108 on the byte input: BCLOSE takes the whole of `BBUF` into `DBYTES`, both flags true.
(A stage run alone, its operands and results in the pass, is the model's: log 2.) -/
def Obligations.BcloseTakesTheBytes : Prop :=
  ∀ s : State, s.cfg.ctrl.getLsbD 1 = true →
    exec .bclose s = .next { s with
      bbuf := [], bank := !s.bank, pass := { s.pass with dbytes := s.bbuf.map fun b => ⟨b.value, true, true⟩ } }

/-- R105 (c): the durations of a burst add up to the time from its first event to the close.
(A stage run alone, its operands and results in the pass, is the model's: log 2.) -/
def Obligations.BurstDurationsSpanTheBurst : Prop :=
  ∀ (s t : State) (first : EdgeEvent) (rest : List EdgeEvent), s.cfg.ctrl.getLsbD 1 = false → s.ebuf = first :: rest →
    (s.ebuf.map (fun x => x.timestampUs.toNat) ++ [s.pass.closeTs.toNat]).Pairwise (· ≤ ·) →
    exec .bclose s = .next t →
    first.timestampUs.toNat + (t.pass.rle.map fun x => x.durationUs.toNat).sum = s.pass.closeTs.toNat

/-- R106: SPLIT cuts the burst, in order and without loss, after every run that lasts at least `SUB_IDLE_BITS` bit periods and
nowhere else; 0 disables it. (A stage run alone is the model's: log 2; that its result stays in the pass: log 16.) -/
def Obligations.SplitCutsAfterEveryLongRun : Prop :=
  ∀ s : State, ∃ streams : List (List RunLength),
    exec .split s = .next { s with pass := { s.pass with streams := streams } } ∧ streams.flatten = s.pass.rle ∧
    (s.cfg.subIdleBits.toNat = 0 → streams = [s.pass.rle]) ∧
    (s.cfg.subIdleBits.toNat ≠ 0 →
      (∀ st ∈ streams, st ≠ [] ∧
        ∀ x ∈ st.dropLast, x.durationUs.toNat * s.cfg.baud.toNat < 1000000 * s.cfg.subIdleBits.toNat) ∧
      (∀ st ∈ streams.dropLast, ∃ x, st.getLast? = some x ∧
        1000000 * s.cfg.subIdleBits.toNat ≤ x.durationUs.toNat * s.cfg.baud.toNat))

/-! ### The timeline -/

/-- R121, R120: TLBUILD builds the timeline of the current stream.
(A stage run alone, its operands and results in the pass, is the model's: log 2.) -/
def Obligations.TlbuildAddsUpTheDurations : Prop :=
  ∀ (s : State) (rle : List RunLength) (rest : List (List RunLength)), s.pass.streams = rle :: rest →
    ∃ (tl : List TlEntry) (total : Nat),
      exec .tlbuild s = .next { s with pass := { s.pass with tl := tl, tlTotal := total, tlCursor := 0 } } ∧
      IsTimeline rle tl total

/-- R122: LEVELAT reads the first level before time 0, the last at or after the end, and in between the level of the entry that
covers the time. (The hidden cursor moves: log 17.)
(A stage run alone, its operands and results in the pass, is the model's: log 2.) -/
def Obligations.LevelatReadsTheCoveringEntry : Prop :=
  ∀ (s : State) (rle : List RunLength), rle ≠ [] → IsTimeline rle s.pass.tl s.pass.tlTotal →
    ∃ (l : Level) (c : Nat), exec .levelat s = .next { s with pass := { s.pass with level := l, tlCursor := c } } ∧
      (s.pass.queryT < 0 → rle.head?.map (·.level) = some l) ∧
      ((s.pass.tlTotal : Int) ≤ s.pass.queryT → rle.getLast?.map (·.level) = some l) ∧
      (∀ (j : Nat) (h : j < rle.length),
        ((((rle.take j).map fun x => x.durationUs.toNat).sum : Nat) : Int) ≤ s.pass.queryT →
        s.pass.queryT < ((((rle.take (j + 1)).map fun x => x.durationUs.toNat).sum : Nat) : Int) → l = rle[j].level)

/-! ### The frame synchroniser -/

/-- R131: HSTOP answers whether fewer than `L` bit periods remain after the cursor; then the sequencer is DONE (R17).
(A stage run alone is the model's: log 2; that HSTOP moves `PHASE` where R131 says it writes nothing: log 15.) -/
def Obligations.HstopTestsTheTimeThatRemains : Prop :=
  ∀ s : State, ∃ b : Bool,
    exec .hstop s = .next { s with pass := { s.pass with answer := b, phase := if b then .done else s.pass.phase } } ∧
    (b = true ↔ s.pass.tlTotal < s.pass.tCur ∨
      (s.pass.tlTotal - s.pass.tCur) * s.cfg.baud.toNat <
        1000000 * frameLength s.cfg.dataBits.toNat s.cfg.parity.toNat s.cfg.stopBits.toNat)

/-- R132, R17: ANCHOR0 anchors a frame at time 0 exactly when the stream's first entry is at level 0. That it empties `FRAME_SR`,
as R150 does at the start of SAMPLEFRAME, is the model's deduction (log 15).
(A stage run alone, its operands and results in the pass, is the model's: log 2.) -/
def Obligations.Anchor0AnchorsAStreamThatStartsLow : Prop :=
  ∀ (s : State) (x : RunLength) (xs : List RunLength) (rest : List (List RunLength)), s.pass.streams = (x :: xs) :: rest →
    (x.level = false → exec .anchor0 s = .next { s with pass := { s.pass with
      answer := true, startEdge := 0, bitIdx := 0, frameSr := [], phase := .sampling } }) ∧
    (x.level = true → exec .anchor0 s = .next { s with pass := { s.pass with answer := false } })

/-- R133, R17: HUNT anchors a frame one step after the cursor when the line falls there, else moves the cursor on. That it empties
`FRAME_SR` with an edge found, as R150 does at the start of SAMPLEFRAME, and leaves `T_CUR` then, is the model's deduction (log 15).
(The hidden cursor moves: log 17.) (A stage run alone, its operands and results in the pass, is the model's: log 2.) -/
def Obligations.HuntAnchorsAFallOrMovesOn : Prop :=
  ∀ s : State, ∃ c : Nat,
    (levelAt s.env s.pass.tl s.pass.tlTotal s.pass.tCur = true ∧
        levelAt s.env s.pass.tl s.pass.tlTotal (s.pass.tCur + s.cfg.huntStepUs.toNat : Nat) = false →
      exec .hunt s = .next { s with pass := { s.pass with
        answer := true, startEdge := s.pass.tCur + s.cfg.huntStepUs.toNat, bitIdx := 0, frameSr := [], phase := .sampling,
        tlCursor := c } }) ∧
    (¬ (levelAt s.env s.pass.tl s.pass.tlTotal s.pass.tCur = true ∧
        levelAt s.env s.pass.tl s.pass.tlTotal (s.pass.tCur + s.cfg.huntStepUs.toNat : Nat) = false) →
      exec .hunt s = .next { s with pass := { s.pass with
        answer := false, tCur := s.pass.tCur + s.cfg.huntStepUs.toNat, tlCursor := c } })

/-- R133: hunting step by step finds the first fall on the grid of steps from the cursor, and nothing before it.
(A stage run alone, its operands and results in the pass, is the model's: log 2.) -/
def Obligations.HuntFindsTheFirstFall : Prop :=
  ∀ (s : State) (k : Nat),
    let lv := fun j : Nat => levelAt s.env s.pass.tl s.pass.tlTotal (s.pass.tCur + j * s.cfg.huntStepUs.toNat : Nat)
    (∀ j, j < k → ¬ (lv j = true ∧ lv (j + 1) = false)) → lv k = true → lv (k + 1) = false →
    ∃ t, runInstrs (List.replicate (k + 1) .hunt) s = .next t ∧ t.pass.answer = true ∧ t.pass.phase = .sampling ∧
      t.pass.startEdge = s.pass.tCur + (k + 1) * s.cfg.huntStepUs.toNat

/-- R137, R66, R17: RESYNC moves the cursor `L - 1` bit periods and the margin past the start edge, in whole microseconds.
(A stage run alone, its operands and results in the pass, is the model's: log 2.) -/
def Obligations.ResyncMovesTheCursorPastTheFrame : Prop :=
  ∀ s : State, 1 ≤ s.cfg.baud.toNat →
    exec .resync s = .next { s with pass := { s.pass with
      phase := .hunting
      tCur := s.pass.startEdge +
        1000000 * (100 * (frameLength s.cfg.dataBits.toNat s.cfg.parity.toNat s.cfg.stopBits.toNat - 1) +
          s.cfg.resyncMarginPct.toNat) / (100 * s.cfg.baud.toNat) } }

/-- R130, R131, R139: SDEC completes wherever the hunt advances; it touches the pass alone, ends DONE, and is the trips of its loop
over the current stream's timeline until fewer than `L` bit periods remain. Pass entry: no bytes, the cursor at 0, HUNTING, the
first trip (R130, R17). `DBYTES` then holds one byte for each start edge, in increasing order (R45). The start edges are exactly
those the pass meets (R132, R133, R137): 0 first, when the stream starts low and HSTOP is false there; then, from the cursor (0, or
the RESYNC position of the edge before), one step after the first fall on the grid of hunt steps, until HSTOP is true. R150, R151,
R161: each byte is FDEC of the `L` votes taken from its start edge.
(A stage run alone, its operands and results in the pass, is the model's: log 2.) -/
def Obligations.SdecDecodesTheCurrentStream : Prop :=
  ∀ (s : State) (rle : List RunLength) (rest : List (List RunLength)), s.pass.streams = rle :: rest →
    1 ≤ s.cfg.huntStepUs.toNat →
    ∃ (p : Pass) (edges : List Nat),
      let huntStep := s.cfg.huntStepUs.toNat
      let level := fun t : Nat => levelAt s.env p.tl p.tlTotal t
      let falls := fun cursor : Nat => level cursor = true ∧ level (cursor + huntStep) = false
      let stops := fun cursor : Nat => p.tlTotal < cursor ∨ (p.tlTotal - cursor) * s.cfg.baud.toNat <
        1000000 * frameLength s.cfg.dataBits.toNat s.cfg.parity.toNat s.cfg.stopBits.toNat
      let anchored := rle.head?.map (·.level) = some false ∧ ¬ stops 0
      let meets := MeetsEdges falls stops huntStep (resyncTime s.env)
      let vote := fun (t i : Nat) (k : Int) => level (sampleTime s.env t i k)
      exec .sdec s = .next { s with pass := p } ∧
      enterPass s.pass = { s.pass with
        tl := p.tl, tlTotal := p.tlTotal, tlCursor := 0, dbytes := [], tCur := 0, phase := .hunting, first := true } ∧
      tripsUntilStop s.env (p.tlTotal / huntStep + 3) (enterPass s.pass) = some p ∧
      p.phase = .done ∧ IsTimeline rle p.tl p.tlTotal ∧ stops p.tCur ∧
      p.streams = s.pass.streams ∧ p.rle = s.pass.rle ∧ p.packets = s.pass.packets ∧
      edges.Pairwise (fun t u => t < u ∧ resyncTime s.env t + huntStep ≤ u) ∧
      (anchored → ∃ later, edges = 0 :: later ∧ meets (resyncTime s.env 0) later p.tCur) ∧
      (¬ anchored → meets 0 edges p.tCur) ∧
      p.dbytes = edges.map fun t => decodeFrameBits s.env s.cfg.template
        ((List.range s.cfg.frameLen).map fun i => majority ⟨vote t i (-1), vote t i 0, vote t i 1⟩)

/-- R139: after the first trip the cursor strictly increases, and a pass makes at most `TL_TOTAL / HUNT_STEP_US + 2` trips
before the test that stops it. -/
def Obligations.EveryDecodePassEnds : Prop :=
  ∀ (e : Env) (p : Pass), 1 ≤ e.huntStepUs.toNat →
    (∀ q : Pass, q.first = false → q.tCur < (tripPass e q).tCur) ∧
    ∃ q, tripsUntilStop e ((enterPass p).tlTotal / e.huntStepUs.toNat + 3) (enterPass p) = some q ∧ sdecPass e p = some q

/-- R130: a trip of the pass is its stages run one after another: the anchor or one HUNT and, when a start edge is found, `L` SAMPLEs,
FDEC and RESYNC. (A stage run alone, its operands and results in the pass, is the model's: log 2.) -/
def Obligations.ATripIsItsStagesInOrder : Prop :=
  ∀ s : State,
    let frame := List.replicate s.env.frameLen Instr.sample ++ [.fdec, .resync]
    (s.pass.first = false → fallAt s.env s.pass s.pass.tCur = true →
      runInstrs (.hunt :: frame) s = .next { s with pass := tripPass s.env s.pass }) ∧
    (s.pass.first = false → fallAt s.env s.pass s.pass.tCur = false →
      exec .hunt s = .next { s with pass := tripPass s.env s.pass }) ∧
    (s.pass.first = true → firstLevel s.env s.pass = false →
      runInstrs (.anchor0 :: frame) s = .next { s with pass := { tripPass s.env s.pass with first := true } }) ∧
    (s.pass.first = true → firstLevel s.env s.pass = true → fallAt s.env s.pass s.pass.tCur = true →
      runInstrs ([.anchor0, .hunt] ++ frame) s = .next { s with pass := { tripPass s.env s.pass with first := true } }) ∧
    (s.pass.first = true → firstLevel s.env s.pass = true → fallAt s.env s.pass s.pass.tCur = false →
      runInstrs [.anchor0, .hunt] s = .next { s with pass := { tripPass s.env s.pass with first := true } })

/-! ### The bit sampler -/

/-- R151, R67: SAMPLE takes the three instants of bit `BIT_IDX`, each one floor of an exact product from the start edge, and appends
the majority (R12, R17).
(A stage run alone is the model's: log 2; that SAMPLE keeps `FRAME_SR` and `BIT_IDX`: log 15. R151 gives the operand only for
`0 <= i < L`: that SAMPLE run alone with `BIT_IDX >= L` samples on in the same way is the model's choice, log 32.) -/
def Obligations.SampleVotesAtTheThreeInstants : Prop :=
  ∀ s : State, 1 ≤ s.cfg.baud.toNat → s.cfg.voteSpacingPct.toNat ≤ s.cfg.sampleOffsetPct.toNat →
    let at_ := fun p : Nat => levelAt s.env s.pass.tl s.pass.tlTotal
      (s.pass.startEdge + 1000000 * p / (100 * s.cfg.baud.toNat) : Nat)
    let a := at_ (100 * s.pass.bitIdx + s.cfg.sampleOffsetPct.toNat - s.cfg.voteSpacingPct.toNat)
    let b := at_ (100 * s.pass.bitIdx + s.cfg.sampleOffsetPct.toNat)
    let c := at_ (100 * s.pass.bitIdx + s.cfg.sampleOffsetPct.toNat + s.cfg.voteSpacingPct.toNat)
    let m := (a && b) || (a && c) || (b && c)
    ∃ cur : Nat, exec .sample s = .next { s with pass := { s.pass with
      vote := ⟨a, b, c⟩, bit := m, frameSr := s.pass.frameSr ++ [m], bitIdx := s.pass.bitIdx + 1, tlCursor := cur } }

/-- R152: MAJ3's truth table; nothing else changes.
(A stage run alone, its operands and results in the pass, is the model's: log 2.) -/
def Obligations.Maj3IsTheMajority : Prop :=
  ∀ s : State, ∃ m : Level, exec .maj3 s = .next { s with pass := { s.pass with bit := m } } ∧
    m = ((s.pass.vote.v0 && s.pass.vote.v1) || (s.pass.vote.v0 && s.pass.vote.v2) || (s.pass.vote.v1 && s.pass.vote.v2))

/-- R150, R153: `L` SAMPLEs read the bits of a frame whenever at most one of the three samples of each bit is wrong.
(A stage run alone, its operands and results in the pass, is the model's: log 2.) -/
def Obligations.OneBadSampleOfABitIsOutvoted : Prop :=
  ∀ (s : State) (bits : List Level), s.pass.bitIdx = 0 → s.pass.frameSr = [] → bits.length = s.env.frameLen →
    (∀ (i : Nat) (h : i < bits.length), ∃ j k : Int, j ≠ k ∧ -1 ≤ j ∧ j ≤ 1 ∧ -1 ≤ k ∧ k ≤ 1 ∧
      levelAt s.env s.pass.tl s.pass.tlTotal (sampleTime s.env s.pass.startEdge i j) = bits[i] ∧
      levelAt s.env s.pass.tl s.pass.tlTotal (sampleTime s.env s.pass.startEdge i k) = bits[i]) →
    ∃ t, runInstrs (List.replicate s.env.frameLen .sample) s = .next t ∧ t.pass.frameSr = bits ∧
      t.pass.bitIdx = s.env.frameLen

/-! ### The frame decoder -/

/-- R61: the frame length, and its range under the legal configurations of R34. -/
def Obligations.FrameLengthIsTheTemplates : Prop :=
  ∀ c : Cfg, c.frameLen = frameLength c.dataBits.toNat c.parity.toNat c.stopBits.toNat ∧
    (c.valid = true → 3 ≤ c.frameLen ∧ c.frameLen ≤ 265)

/-- R66: `bt(p)` is one floor of an exact product. -/
def Obligations.BitTimeIsOneFloor : Prop :=
  ∀ (e : Env) (p : Nat), 1 ≤ e.baud.toNat →
    (bitTime e p * (100 * e.baud.toNat) ≤ 1000000 * p ∧ 1000000 * p < (bitTime e p + 1) * (100 * e.baud.toNat))

/-- R161 to R164: FDEC appends one byte, its value, framing flag and parity flag computed from the sampled bits whatever they
are. (A stage run alone, its operands and results in the pass, is the model's: log 2.) -/
def Obligations.FdecJudgesTheSampledFrame : Prop :=
  ∀ s : State, s.cfg.dataBits.toNat ≤ 8 →
    s.pass.frameSr.length = frameLength s.cfg.dataBits.toNat s.cfg.parity.toNat s.cfg.stopBits.toNat →
    ∃ b : DecodedByte, exec .fdec s = .next { s with pass := { s.pass with dbytes := s.pass.dbytes ++ [b] } } ∧
      FrameJudged s.cfg.dataBits.toNat s.cfg.parity.toNat s.cfg.stopBits.toNat s.pass.frameSr b

/-- R64, R161: a frame of each named shape, whatever its bits, is decoded under that shape's template (log 3). -/
def Obligations.NamedFramesAreDecodedUnderTheirShape : Prop :=
  ∀ (s : State) (bits : List Level),
    let judged := fun (n parity m : Nat) (i : Instr) => bits.length = frameLength n parity m →
      ∃ b : DecodedByte,
        exec i s = .next { s with pass := { s.pass with frameSr := bits, dbytes := s.pass.dbytes ++ [b] } } ∧
        FrameJudged n parity m bits b
    judged 8 0 1 (.frame8N1 bits) ∧ judged 8 1 1 (.frame8E1 bits) ∧ judged 8 2 1 (.frame8O1 bits) ∧
    judged 8 0 2 (.frame8N2 bits) ∧ judged 7 1 1 (.frame7E1 bits) ∧ judged 7 2 2 (.frame7O2 bits) ∧
    judged 5 0 1 (.frame5N1 bits)

/-- R62, R161: the frame an ideal transmitter sends for a byte has `L` bits and decodes to that byte with both flags true, in every
legal template. -/
def Obligations.ATransmittedFrameDecodesToItsByte : Prop :=
  ∀ (e : Env) (v : Byte), e.valid = true → v.toNat < 2 ^ e.dataBits.toNat →
    (frameLevels e.template v).length = e.frameLen ∧
    decodeFrameBits e e.template (frameLevels e.template v) = ⟨v, true, true⟩

/-- R140, R134 (S1 and S2 of 95_test_vectors.md): a burst of any length decodes when a single frame does. The sender's frames follow one
another back to back with a bit period of `period` microseconds, the line idle behind them, the first at stream time 0; the hunt
steps by 1. If the centre sample of every bit of one frame falls inside the bit and so does one of its neighbours, and the cursor
after a frame falls inside the frame's last two bits, then SDEC yields the bytes sent, all flags true: the error does not
add up from frame to frame. (A stage run alone, its operands and results in the pass, is the model's: log 2.) -/
def Obligations.ASenderWithinToleranceIsDecoded : Prop :=
  ∀ (s : State) (rle : List RunLength) (rest : List (List RunLength)) (tl : List TlEntry) (total period : Nat) (bytes : List Byte),
    let len := s.cfg.frameLen
    let line := bytes.flatMap (frameLevels s.cfg.template)
    let bt := fun p : Nat => 1000000 * p / (100 * s.cfg.baud.toNat)
    let centre := fun i : Nat => 100 * i + s.cfg.sampleOffsetPct.toNat
    let cursor := bt (100 * (len - 1) + s.cfg.resyncMarginPct.toNat)
    s.cfg.valid = true → s.cfg.huntStepUs.toNat = 1 → s.pass.streams = rle :: rest → IsTimeline rle tl total →
    rle.head?.map (·.level) = some false → bytes ≠ [] → (∀ v ∈ bytes, v.toNat < 2 ^ s.cfg.dataBits.toNat) →
    (∀ t : Nat, levelAt s.env tl total t = line.getD (t / period) true) →
    (∀ i, i < len → i * period ≤ bt (centre i) ∧ bt (centre i) < (i + 1) * period ∧
      (i * period ≤ bt (centre i - s.cfg.voteSpacingPct.toNat) ∨ bt (centre i + s.cfg.voteSpacingPct.toNat) < (i + 1) * period)) →
    (len - 2) * period ≤ cursor → cursor < len * period →
    ((bytes.length - 1) * (len * period)) * s.cfg.baud.toNat + 1000000 * len ≤ total * s.cfg.baud.toNat →
    ∃ p : Pass, exec .sdec s = .next { s with pass := p } ∧ p.dbytes = bytes.map fun v => ⟨v, true, true⟩

/-! ### Packets -/

/-- R172: the match is the lowest slot whose header fits and equals the byte values literally. -/
def Obligations.MatchIsTheLowestSlotThatFits : Prop :=
  ∀ (hdr : List (List Byte)) (rest : List DecodedByte),
    let fits := fun k : Nat => ∃ h, hdr[k]? = some h ∧ h.length ≤ rest.length ∧
      ∀ q, q < h.length → (rest[q]?.map (·.value)) = h[q]?
    (∀ k, matchSlot hdr rest = some k ↔ fits k ∧ ∀ j, j < k → ¬ fits j) ∧
    (matchSlot hdr rest = none ↔ ∀ k, ¬ fits k)

/-- R173: PSEG's packets are not empty, carry no verdict yet, and their bytes in order are the bytes of the stream; none exactly when
there are no bytes. (A stage run alone, its operands and results in the pass, is the model's: log 2.) -/
def Obligations.PsegPartitionsTheBytes : Prop :=
  ∀ s : State, ∃ pkts : List Packet,
    exec .pseg s = .next { s with pass := { s.pass with packets := pkts } } ∧
    pkts.flatMap (·.bytes) = s.pass.dbytes ∧ (∀ p ∈ pkts, p.bytes ≠ [] ∧ p.chk = none) ∧
    (pkts = [] ↔ s.pass.dbytes = [])

/-- R171, R174: PSEG cuts exactly where a header matches: a packet carries the match at its first byte, no header matches at a later
byte of it, and only the first packet may be unclassified.
(A stage run alone, its operands and results in the pass, is the model's: log 2.) -/
def Obligations.PsegCutsExactlyAtHeaders : Prop :=
  ∀ (s t : State), exec .pseg s = .next t →
    ∀ (before after : List Packet) (p : Packet), t.pass.packets = before ++ p :: after →
      p.hdr = matchSlot s.hdr (p.bytes ++ after.flatMap (·.bytes)) ∧
      (p.hdr = none → before = []) ∧
      ∀ q, 0 < q → q < p.bytes.length → matchSlot s.hdr ((p.bytes ++ after.flatMap (·.bytes)).drop q) = none

/-- R178: CSUM gives every packet its verdict while `CHK_EN` is set, and none otherwise.
(A stage run alone is the model's: log 2; that it acts on all of PSEG's packets at once: log 24.) -/
def Obligations.CsumGivesEveryPacketItsVerdict : Prop :=
  ∀ s : State,
    (s.cfg.ctrl.getLsbD 0 = false → exec .csum s = .next s) ∧
    (s.cfg.ctrl.getLsbD 0 = true → (∀ p ∈ s.pass.packets, p.bytes ≠ []) →
      ∃ pkts : List Packet, exec .csum s = .next { s with pass := { s.pass with packets := pkts } } ∧
        pkts.length = s.pass.packets.length ∧
        ∀ (j : Nat) (p : Packet), s.pass.packets[j]? = some p → ∀ (init : List DecodedByte) (last : DecodedByte),
          p.bytes = init ++ [last] →
          let computed := (init.map fun b => b.value.toNat).sum % 256
          pkts[j]? = some { p with
            chk := some ⟨decide (computed = last.value.toNat), (last.value.toNat : Int) - (computed : Int)⟩ })

/-- R180: EMIT appends the packets, in order, at the end of `OUTQ`. (The next stream becomes current: log 16.)
(A stage run alone, its operands and results in the pass, is the model's: log 2.) -/
def Obligations.EmitAppendsThePackets : Prop :=
  ∀ s : State, exec .emit s = .next { s with
    outq := s.outq ++ s.pass.packets, pass := { s.pass with streams := s.pass.streams.tail } }

/-! ### The whole machine -/

/-- R54: no edge is lost, none is seen twice. Every operation in an open session, but RESET and STOP, conserves the edges: the
snapshot it takes and the `EBUF` it leaves are the `EBUF` it met and the edge it accepts, in order. So over a session the
snapshots in closing order followed by `EBUF` are the accepted EDGEs in order. -/
def Obligations.NoEdgeIsLostOrSeenTwice : Prop :=
  (∀ (i : Instr) (s t : State), i ≠ .reset → i ≠ .stop → s.run = true → exec i s = .next t →
    edgeSnapshot i s ++ t.ebuf = s.ebuf ++ acceptedEdge i s) ∧
  ∀ (s s0 t : State) (is : List Instr), s.run = false → exec .start s = .next s0 → s0.run = true →
    (∀ i ∈ is, i ≠ .reset ∧ i ≠ .stop) → runInstrs is s0 = .next t →
    collectRun edgeSnapshot is s0 ++ t.ebuf = collectRun acceptedEdge is s0

/-- R13: what is dead between passes never shows: port operations on two states that differ in it alone have the same outcome but
for it. -/
def Obligations.DeadStateNeverShows : Prop :=
  ∀ (i : Instr) (s t : State), isPortOp i = true → SameButPass s t → SameOutcome (exec i s) (exec i t)

/-- R216: in a state that keeps the invariant every port operation completes, but for the EDGE or RXBYTE whose timestamp goes back
inside a burst, which R226 leaves without a meaning. -/
def Obligations.EveryPortOperationCompletes : Prop :=
  ∀ (i : Instr) (s : State), s.Inv → isPortOp i = true →
    (∃ t, exec i s = .next t) ∨
    (exec i s = .refused .contractViolation ∧ ∃ ts : U64, ts.toNat < s.lastTs.toNat ∧
      ((∃ l, i = .edge l ts) ∨ (∃ b, i = .rxbyte b ts)))

/-- R56, R20 (a): while a session is open no operation but RESET changes a configuration register or the header table. -/
def Obligations.ConfigurationIsLockedWhileRunning : Prop :=
  ∀ (i : Instr) (s t : State), i ≠ .reset → s.run = true → exec i s = .next t → t.cfg = s.cfg ∧ t.hdr = s.hdr

/-- R15, R190, R197, R196: only START opens a session, and only STOP and RESET close one. -/
def Obligations.OnlyStartStopAndResetMoveTheSession : Prop :=
  ∀ (i : Instr) (s t : State), exec i s = .next t →
    (s.run = false → t.run = true → i = .start ∧ s.cfg.valid = true) ∧
    (s.run = true → t.run = false → i = .stop ∨ i = .reset)

/-- R190: only RESET clears `CMD_ERR`; packets leave `OUTQ` only from its head, by OUTPOP, or all at once, by RESET, and join it
only at its end. -/
def Obligations.OnlyResetClearsCmdErrAndDiscardsOutput : Prop :=
  ∀ (i : Instr) (s t : State), i ≠ .reset → exec i s = .next t →
    (s.cmdErr = true → t.cmdErr = true) ∧
    ((i = .outpop ∧ t.outq = s.outq.tail) ∨ ∃ new, t.outq = s.outq ++ new)

/-- The stages and frames that work on the pass alone complete in every state and leave everything else unchanged (SDEC has its own
statement). (A stage run alone, SAMPLE past the frame among them, and a frame as an operation, are the model's: logs 2, 32 and 3.) -/
def Obligations.PassStagesTouchOnlyThePass : Prop :=
  ∀ (s : State) (bits : List Level),
    ∀ i ∈ [Instr.split, .tlbuild, .levelat, .hstop, .anchor0, .hunt, .sample, .maj3, .resync, .fdec, .pseg, .csum,
      .frame8N1 bits, .frame8E1 bits, .frame8O1 bits, .frame8N2 bits, .frame7E1 bits, .frame7O2 bits, .frame5N1 bits],
    ∃ p : Pass, exec i s = .next { s with pass := p }
end

