-- ==== Sys2Proof/Laws/Capture.lean ====
section
/-! SUPPORT. What BCLOSE and SPLIT make of a buffer and of a burst (40_capture.md R105, R106). -/

namespace Sys2Proof.Machine

/-- A run ends where the next event lies. -/
theorem runDuration_add (e : Env) (a b : U64) (h : a.toNat ≤ b.toNat) : a.toNat + (runDuration e a b).toNat = b.toNat := by
  simp only [runDuration, h, if_true]
  rw [BitVec.toNat_sub_of_le (BitVec.le_def.2 h)]; omega

/-- One run for each event, lasting to the next event, the last to the close. -/
theorem runLengths_get (e : Env) (c : U64) : ∀ ev : List EdgeEvent,
    (ev.map (fun x => x.timestampUs.toNat) ++ [c.toNat]).Pairwise (· ≤ ·) →
    (runLengths e c ev).length = ev.length ∧
      ∀ (j : Nat) (h : j < ev.length), ∃ x, (runLengths e c ev)[j]? = some x ∧ x.level = ev[j].level ∧
        ev[j].timestampUs.toNat + x.durationUs.toNat =
          (ev.map (fun x => x.timestampUs.toNat) ++ [c.toNat]).getD (j + 1) 0 := by
  intro ev
  induction ev with
  | nil => simp [runLengths]
  | cons a rest ih =>
    intro h
    cases rest with
    | nil =>
      simp only [runLengths]
      refine ⟨rfl, ?_⟩
      intro j hj
      have : j = 0 := by simp at hj; omega
      subst this
      refine ⟨_, rfl, rfl, ?_⟩
      simp at h
      simpa using runDuration_add e _ _ h
    | cons b rest =>
      have h2 := (List.pairwise_cons.1 h).2
      have h1 := (List.pairwise_cons.1 h).1
      obtain ⟨i1, i2⟩ := ih h2
      simp only [runLengths]
      refine ⟨by simp [i1], ?_⟩
      intro j hj
      cases j with
      | zero => exact ⟨_, rfl, rfl, by simpa using runDuration_add e _ _ (h1 _ (by simp))⟩
      | succ j =>
        obtain ⟨x, e1, e2, e3⟩ := i2 j (by simpa using hj)
        exact ⟨x, by simpa using e1, by simpa using e2, by simpa using e3⟩

/-- The durations of a burst add up to the time from its first event to the close. -/
theorem runLengths_sum (e : Env) (c : U64) : ∀ (a : EdgeEvent) (rest : List EdgeEvent),
    ((a :: rest).map (fun x => x.timestampUs.toNat) ++ [c.toNat]).Pairwise (· ≤ ·) →
    a.timestampUs.toNat + ((runLengths e c (a :: rest)).map fun x => x.durationUs.toNat).sum = c.toNat := by
  intro a rest
  induction rest generalizing a with
  | nil => intro h; simp at h; simpa [runLengths] using runDuration_add e _ _ h
  | cons b rest ih =>
    intro h
    have h2 := (List.pairwise_cons.1 h).2
    have h1 := (List.pairwise_cons.1 h).1
    have := ih b h2
    have := runDuration_add e _ _ (h1 b.timestampUs.toNat (by simp))
    simp only [runLengths, List.map_cons, List.sum_cons]
    omega

/-- SPLIT loses nothing. -/
theorem splitFrom_flatten (e : Env) : ∀ (l cur : List RunLength), (splitFrom e cur l).flatten = cur ++ l := by
  intro l
  induction l with
  | nil => intro cur; simp only [splitFrom]; split <;> simp_all
  | cons x l ih => intro cur; simp only [splitFrom]; split <;> simp [ih]

/-- Every stream ends with a run that reaches the threshold, the last one perhaps excepted, and holds no other. -/
theorem splitFrom_cuts (e : Env) : ∀ l cur : List RunLength,
    (∀ x ∈ cur, lastsAtLeast e x.durationUs.toNat e.subIdleBits.toNat = false) →
    (∀ st ∈ splitFrom e cur l, st ≠ [] ∧
      ∀ x ∈ st.dropLast, lastsAtLeast e x.durationUs.toNat e.subIdleBits.toNat = false) ∧
    (∀ st ∈ (splitFrom e cur l).dropLast, ∃ x, st.getLast? = some x ∧
      lastsAtLeast e x.durationUs.toNat e.subIdleBits.toNat = true) := by
  intro l
  induction l with
  | nil =>
    intro cur hc
    simp only [splitFrom]
    split
    · simp
    · rename_i h
      simp at h ⊢
      exact ⟨h, fun x hx => hc x (List.dropLast_subset _ hx)⟩
  | cons x l ih =>
    intro cur hc
    simp only [splitFrom]
    split
    · rename_i hx
      obtain ⟨i1, i2⟩ := ih [] (by simp)
      refine ⟨?_, ?_⟩
      · intro st hst
        rcases List.mem_cons.1 hst with rfl | hst
        · simpa using hc
        · exact i1 st hst
      · intro st hst
        cases hrest : splitFrom e [] l with
        | nil => simp [hrest] at hst
        | cons y ys =>
          rw [hrest] at hst i2
          rw [List.dropLast_cons_of_ne_nil (by simp)] at hst
          rcases List.mem_cons.1 hst with rfl | hst
          · exact ⟨x, by simp, hx⟩
          · exact i2 st hst
    · rename_i hx
      exact ih _ (by intro y hy; rcases List.mem_append.1 hy with h | h; exact hc y h; simp at h; subst h; simpa using hx)

end Sys2Proof.Machine
end

