-- ==== Sys2Proof/Laws/Timeline.lean ====
section
/-! SUPPORT. The timeline TLBUILD builds, the lookup on it, and the times derived from the bit period
(41_timeline.md; 30_encoding.md R61, R66). -/

namespace Sys2Proof.Machine

/-- Entry `j` of a timeline starts where the durations before it end. -/
theorem timelineFrom_get : ∀ (rle : List RunLength) (acc : Nat),
    (timelineFrom acc rle).length = rle.length ∧ ∀ (j : Nat) (h : j < rle.length), (timelineFrom acc rle)[j]? = some ⟨acc + ((rle.take j).map fun x => x.durationUs.toNat).sum, rle[j].level⟩ := by
  intro rle
  induction rle with
  | nil => intro acc; simp [timelineFrom]
  | cons x l ih =>
    intro acc
    obtain ⟨a, b⟩ := ih (acc + x.durationUs.toNat)
    refine ⟨by simp [timelineFrom, a], ?_⟩
    intro j hj
    cases j with
    | zero => simp [timelineFrom]
    | succ j => simp [timelineFrom, b j (by simpa using hj), Nat.add_assoc]

/-- TLBUILD builds the timeline of the stream (R120). -/
theorem isTimeline_timelineFrom (rle : List RunLength) : IsTimeline rle (timelineFrom 0 rle) (streamTotal rle) := by
  obtain ⟨a, b⟩ := timelineFrom_get rle 0
  exact ⟨a, fun j h => by simpa using b j h, rfl⟩

/-- The lookup finds entry `j` when no later entry has started and every earlier one has. -/
theorem entryIndex_eq : ∀ (tl : List TlEntry) (t : Int) (j : Nat), j < tl.length →
    (∀ i (h : i < tl.length), 0 < i → i ≤ j → (tl[i].start : Int) ≤ t) →
    (∀ h : j + 1 < tl.length, t < tl[j + 1].start) → entryIndex tl t = j := by
  intro tl
  induction tl with
  | nil => intro t j h; simp at h
  | cons a l ih =>
    intro t j hj h1 h2
    cases l with
    | nil => simp [entryIndex]; simp at hj; omega
    | cons b l =>
      simp only [entryIndex]
      cases j with
      | zero => have := h2 (by simp); simp at this; simp [this]
      | succ j =>
        have := h1 1 (by simp) (by omega) (by omega)
        simp at this
        rw [if_neg (by omega)]
        rw [ih t j (by simpa using hj)]
        · intro i hi h0 hij; exact h1 (i+1) (by simpa using hi) (by omega) (by omega)
        · intro h; exact h2 (by simpa using h)

/-- A longer prefix has no smaller sum. -/
theorem sum_take_mono (l : List Nat) : ∀ i j, i ≤ j → (l.take i).sum ≤ (l.take j).sum := by
  induction l with
  | nil => simp
  | cons x l ih =>
    intro i j h
    cases i with
    | zero => simp
    | succ i => cases j with
      | zero => omega
      | succ j => simp; exact ih i j (by omega)

/-- `L` by the three registers (R61). -/
theorem frameLen_eq (c : Cfg) : c.frameLen = frameLength c.dataBits.toNat c.parity.toNat c.stopBits.toNat := by
  have hp : (c.parity = 0) ↔ (c.parity.toNat = 0) := by
    constructor
    · intro h; rw [h]; rfl
    · intro h; exact BitVec.eq_of_toNat_eq h
  simp only [Cfg.frameLen, Template.len, Cfg.template, Template.parityBits, frameLength, hp]

/-- `bt` where R66 defines it. -/
theorem bitTime_nat (e : Env) (p : Nat) (h : 1 ≤ e.baud.toNat) : bitTime e p = 1000000 * p / (100 * e.baud.toNat) := by
  simp only [bitTime]
  rw [if_pos ⟨by omega, by omega⟩]
  simp [Config.mega]

end Sys2Proof.Machine
end

