-- ==== Sys2Proof/Laws/Decoder.lean ====
section
/-! SUPPORT. What FDEC makes of the bits of a frame, as sums and as positions (44_frame_decoder.md R161 to R164). -/

namespace Sys2Proof.Machine

/-- A bit the frame has. -/
theorem frameBit_eq (e : Env) (bits : List Level) (i : Nat) (h : i < bits.length) :
    frameBit e bits i = bits.getD i false := by
  simp [frameBit, List.getD_eq_getElem?_getD, List.getElem?_eq_getElem h]

/-- The data bits of a frame that is long enough. -/
theorem dataBitsOf_eq (e : Env) (t : Template) (bits : List Level) (h : t.dataBits < bits.length) :
    dataBitsOf e t bits = (List.range t.dataBits).map fun i => bits.getD (1 + i) false := by
  apply List.map_congr_left
  intro i hi
  rw [List.mem_range] at hi
  exact frameBit_eq e bits _ (by omega)

/-- The data value as the sum of R163. -/
theorem dataSum_map (f : Nat → Level) (n : Nat) :
    dataSum ((List.range n).map f) = ((List.range n).map fun i => (f i).toNat * 2 ^ i).sum := by
  induction n generalizing f with
  | zero => rfl
  | succ n ih =>
    have h := ih (f ∘ Nat.succ)
    rw [List.range_succ_eq_map, List.map_cons, List.map_map, dataSum, h]
    simp only [List.map_cons, List.map_map, List.sum_cons, Function.comp_def, Nat.pow_zero, Nat.mul_one]
    rw [← List.sum_map_mul_left]
    congr 2
    apply List.map_congr_left
    intro i _
    rw [Nat.pow_succ]
    ring

/-- `n` bits make a number below `2^n`. -/
theorem dataSum_lt (bits : List Level) : dataSum bits < 2 ^ bits.length := by
  induction bits with
  | nil => simp [dataSum]
  | cons b rest ih =>
    have := Bool.toNat_le b
    rw [dataSum, List.length_cons, Nat.pow_succ]
    omega

/-- The number of ones as a sum. -/
theorem count_true_map (f : Nat → Level) (n : Nat) :
    ((List.range n).map f).count true = ((List.range n).map fun i => (f i).toNat).sum := by
  induction n with
  | zero => rfl
  | succ n ih =>
    rw [List.range_succ, List.map_append, List.map_append, List.count_append, List.sum_append, ih]
    cases h : f n <;> simp [h]

theorem Template.len_eq (t : Template) : t.len = frameLength t.dataBits t.parity.toNat t.stopBits := by
  have hp : (t.parity = 0) ↔ (t.parity.toNat = 0) := by
    constructor
    · intro h; rw [h]; rfl
    · intro h; exact BitVec.eq_of_toNat_eq h
  simp only [Template.len, Template.parityBits, frameLength, hp]

/-- FDEC judges a frame of the template's length as R161 to R164 say; under `PARITY = 3` they say nothing
of the parity flag. -/
theorem decodeFrameBits_judged (e : Env) (t : Template) (bits : List Level) (hn : t.dataBits ≤ 8)
    (hl : bits.length = frameLength t.dataBits t.parity.toNat t.stopBits) :
    FrameJudged t.dataBits t.parity.toNat t.stopBits bits (decodeFrameBits e t bits) := by
  have hlen : t.dataBits < bits.length := by rw [hl, frameLength]; omega
  have hdata := dataBitsOf_eq e t bits hlen
  have hpb : t.parityBits = if t.parity.toNat = 0 then 0 else 1 := by
    have := Template.len_eq t
    simp only [Template.len, frameLength] at this
    omega
  refine ⟨?_, ?_, ?_, ?_, ?_⟩
  · have h := dataSum_lt (dataBitsOf e t bits)
    rw [hdata, List.length_map, List.length_range] at h
    have h8 : 2 ^ t.dataBits ≤ 2 ^ 8 := Nat.pow_le_pow_right (by omega) hn
    show (dataValue e t bits).toNat = _
    rw [dataValue, if_pos hn, hdata, ← dataSum_map, BitVec.toNat_ofNat]
    exact Nat.mod_eq_of_lt (Nat.lt_of_lt_of_le h h8)
  · show framingOk e t bits = true ↔ _
    rw [framingOk, Bool.and_eq_true, Bool.not_eq_true', frameBit_eq e bits 0 (by omega), stopBitsOf, List.all_map,
      List.all_eq_true]
    simp only [List.mem_range, Function.comp_apply, id]
    apply and_congr_right'
    constructor
    · intro h j h1 h2
      simp only [frameLength] at h1 h2
      have := h (j - (t.dataBits + 1 + t.parityBits)) (by rw [hpb]; omega)
      rw [frameBit_eq e bits _ (by rw [hl, hpb, frameLength]; omega)] at this
      rwa [show t.dataBits + 1 + t.parityBits + (j - (t.dataBits + 1 + t.parityBits)) = j by rw [hpb]; omega] at this
    · intro h j hj
      rw [frameBit_eq e bits _ (by rw [hl, hpb, frameLength]; omega)]
      apply h <;> simp only [hpb, frameLength] <;> split <;> omega
  · intro h
    show parityOk e t bits = true
    simp only [parityOk, h]
  all_goals
    intro h
    have hones : parityOnes e t bits = onesWithParity t.dataBits bits := by
      rw [parityOnes, onesWithParity, hdata, count_true_map,
        frameBit_eq e bits _ (by rw [hl, frameLength, h]; simp; omega)]
    show parityOk e t bits = true ↔ _
    simp [parityOk, h, hones]

end Sys2Proof.Machine
end

