-- ==== Sys2Proof/Laws/Encoding.lean ====
section
/-! SUPPORT. The fields of a command word, and the word its fields make (30_encoding.md R75). -/

namespace Sys2Proof

/-- Bit `i` of a command word, by field. -/
theorem commandWord_getLsbD (op a : Byte) (v : U64) (i : Nat) :
    (commandWord op a v).getLsbD i =
      if i < 64 then v.getLsbD i else if i - 64 < 8 then a.getLsbD (i - 64) else op.getLsbD (i - 64 - 8) := by
  have h : (commandWord op a v).getLsbD i = BitVec.getLsbD (w := 8 + 8 + 64) (op ++ a ++ v) i := rfl
  rw [h, BitVec.getLsbD_append, BitVec.getLsbD_append]

@[simp] theorem opField_commandWord (op a : Byte) (v : U64) : opField (commandWord op a v) = op := by
  apply BitVec.eq_of_getLsbD_eq
  intro i hi
  rw [opField, BitVec.getLsbD_extractLsb', commandWord_getLsbD]
  simp [hi, show ¬ (72 + i < 64) by omega, show ¬ (72 + i - 64 < 8) by omega, show 72 + i - 64 - 8 = i by omega]

@[simp] theorem aField_commandWord (op a : Byte) (v : U64) : aField (commandWord op a v) = a := by
  apply BitVec.eq_of_getLsbD_eq
  intro i hi
  rw [aField, BitVec.getLsbD_extractLsb', commandWord_getLsbD]
  simp [hi]

@[simp] theorem vField_commandWord (op a : Byte) (v : U64) : vField (commandWord op a v) = v := by
  apply BitVec.eq_of_getLsbD_eq
  intro i hi
  rw [vField, BitVec.getLsbD_extractLsb', commandWord_getLsbD]
  simp [hi]

/-- A word is its three fields (R75). -/
theorem commandWord_fields (w : BitVec 80) : commandWord (opField w) (aField w) (vField w) = w := by
  apply BitVec.eq_of_getLsbD_eq
  intro i hi
  rw [commandWord_getLsbD, opField, aField, vField]
  simp only [BitVec.getLsbD_extractLsb']
  by_cases h1 : i < 64
  · simp [h1]
  · by_cases h2 : i - 64 < 8
    · simp [h1, h2, show 64 + (i - 64) = i by omega]
    · simp [h1, h2, show i - 64 - 8 < 8 by omega, show 72 + (i - 64 - 8) = i by omega]

/-- Two words are equal when their fields are. -/
theorem commandWord_inj {op op' a a' : Byte} {v v' : U64} :
    commandWord op a v = commandWord op' a' v' ↔ op = op' ∧ a = a' ∧ v = v' := by
  constructor
  · intro h
    exact ⟨by simpa using congrArg opField h, by simpa using congrArg aField h, by simpa using congrArg vField h⟩
  · rintro ⟨rfl, rfl, rfl⟩
    rfl

/-- The AND of two words is taken field by field. -/
theorem commandWord_and (op op' a a' : Byte) (v v' : U64) :
    commandWord op a v &&& commandWord op' a' v' = commandWord (op &&& op') (a &&& a') (v &&& v') := by
  apply BitVec.eq_of_getLsbD_eq
  intro i hi
  simp only [BitVec.getLsbD_and, commandWord_getLsbD]
  split <;> [rfl; split <;> rfl]

end Sys2Proof
end

