-- ==== Sys2Proof/Laws/Flags.lean ====
section
/-! SUPPORT. What the tests on the configuration and the session say (10_state.md R31, R32, R34; 40_capture.md
R103). -/

namespace Sys2Proof.Machine

theorem inputSel_eq (c : Cfg) : c.inputSel = c.ctrl.getLsbD 1 := rfl

theorem chkEn_eq (c : Cfg) : c.chkEn = c.ctrl.getLsbD 0 := rfl

/-- `cfg_valid`, clause by clause (R34). -/
theorem valid_iff (c : Cfg) :
    c.valid = true ↔
      1 ≤ c.baud.toNat ∧ c.baud.toNat ≤ 1000000 ∧ 1 ≤ c.dataBits.toNat ∧ c.dataBits.toNat ≤ 8 ∧ c.parity.toNat ≠ 3 ∧
        1 ≤ c.stopBits.toNat ∧ 1 ≤ c.huntStepUs.toNat ∧ c.voteSpacingPct.toNat ≤ c.sampleOffsetPct.toNat := by
  simp only [Cfg.valid, Bool.and_eq_true, decide_eq_true_eq, bne_iff_ne]
  tauto

/-- `PENDING` on the edge input. -/
theorem pending_edges {s : State} (h : s.cfg.inputSel = false) : s.pending = decide (s.ebuf ≠ []) := by
  rw [State.pending, h]
  cases s.ebuf <;> simp

/-- `PENDING` on the byte input. -/
theorem pending_bytes {s : State} (h : s.cfg.inputSel = true) : s.pending = decide (s.bbuf ≠ []) := by
  rw [State.pending, h]
  cases s.bbuf <;> simp

/-- When a POLL closes the burst (R103). -/
theorem pollCloses_iff (now : U64) (s : State) :
    pollCloses now s = true ↔
      s.run = true ∧ s.pending = true ∧ s.lastTs.toNat + s.cfg.idleGapUs.toNat < now.toNat := by
  simp [pollCloses, and_assoc]

/-- `PENDING` says that one of the buffers holds something. -/
theorem pending_iff (s : State) :
    s.pending = true ↔
      (s.cfg.inputSel = false ∧ s.ebuf ≠ []) ∨ (s.cfg.inputSel = true ∧ s.bbuf ≠ []) := by
  cases h : s.cfg.inputSel
  · rw [pending_edges h]
    simp
  · rw [pending_bytes h]
    simp

/-- Why a HDRADD is ignored (R194). -/
theorem hdraddRejected_iff (nHdr : Nat) (s : State) (len : Byte) (packed : U64) :
    hdraddRejected nHdr s len packed = true ↔
      s.run = true ∨ len.toNat < 1 ∨ 8 < len.toNat ∨ s.hdr.length = nHdr ∨ 2 ^ (8 * len.toNat) ≤ packed.toNat := by
  simp only [hdraddRejected, Bool.or_eq_true, decide_eq_true_eq, beq_iff_eq, or_assoc]
  rfl

/-- Why a CFGW is ignored (R192). -/
theorem cfgwRejected_iff (s : State) (r : Byte) (v : U64) :
    cfgwRejected s r v = true ↔
      s.run = true ∨ 0x0A < r.toNat ∨ 2 ^ regWidth r ≤ v.toNat ∨ (r.toNat = 0x0A ∧ 4 ≤ v.toNat) := by
  simp only [cfgwRejected, Bool.or_eq_true, decide_eq_true_eq, beq_iff_eq, or_assoc, Bool.and_eq_true]

end Sys2Proof.Machine
end

