-- ==== Sys2Proof/Laws/Packets.lean ====
section
/-! SUPPORT. What the header match and PSEG make of a byte sequence, and the verdict CSUM makes (45_packet.md R171 to
R178). -/

namespace Sys2Proof.Machine

/-! ### The match -/

/-- A header is a prefix when it fits and every byte of it is there. -/
theorem isPrefixOf_iff_getElem? (h l : List Byte) :
    h.isPrefixOf l = true ↔ h.length ≤ l.length ∧ ∀ q, q < h.length → l[q]? = h[q]? := by
  rw [List.isPrefixOf_iff_prefix, List.prefix_iff_getElem?]
  constructor
  · intro hp
    refine ⟨?_, fun q hq => by rw [hp q hq, List.getElem?_eq_getElem hq]⟩
    by_contra hlt
    have h1 := hp l.length (by omega)
    rw [List.getElem?_eq_none (Nat.le_refl _)] at h1
    cases h1
  · intro hp q hq
    rw [hp.2 q hq, List.getElem?_eq_getElem hq]

/-- A slot that matches is a slot of the table. -/
theorem matchSlot_lt {hdr : List (List Byte)} {rest : List DecodedByte} {k : Nat} (h : matchSlot hdr rest = some k) :
    k < hdr.length := by
  rw [matchSlot, List.findIdx?_eq_some_iff_getElem] at h
  exact h.1

/-! ### The positions -/

/-- A header position is a position where some header matches. -/
theorem mem_headerPositions (hdr : List (List Byte)) (bytes : List DecodedByte) (p : Nat) :
    p ∈ headerPositions hdr bytes ↔ p < bytes.length ∧ (matchSlot hdr (bytes.drop p)).isSome = true := by
  simp [headerPositions]

/-- Header positions ascend. -/
theorem headerPositions_sorted (hdr : List (List Byte)) (bytes : List DecodedByte) :
    (headerPositions hdr bytes).Pairwise (· < ·) :=
  List.pairwise_lt_range.filter _

/-! ### The packets -/

/-- The packets from ascending positions hold the bytes from the first of them on. -/
theorem packetsFrom_bytes (hdr : List (List Byte)) (bytes : List DecodedByte) (p : Nat) (ps : List Nat)
    (hs : (p :: ps).Pairwise (· < ·)) (hl : ∀ x ∈ p :: ps, x < bytes.length) :
    (packetsFrom hdr bytes (p :: ps)).flatMap (·.bytes) = bytes.drop p := by
  induction ps generalizing p with
  | nil => simp [packetsFrom]
  | cons next rest ih =>
    have hlt : p < next := (List.pairwise_cons.1 hs).1 next (by simp)
    rw [packetsFrom, List.flatMap_cons, ih next (List.pairwise_cons.1 hs).2 fun x hx => hl x (List.mem_cons_of_mem _ hx)]
    show (bytes.drop p).take (next - p) ++ bytes.drop next = bytes.drop p
    rw [show bytes.drop next = (bytes.drop p).drop (next - p) by rw [List.drop_drop]; congr 1; omega,
      List.take_append_drop]

/-- Each of them opens at one of the positions, is not empty, and has no verdict. -/
theorem packetsFrom_mem (hdr : List (List Byte)) (bytes : List DecodedByte) (p : Nat) (ps : List Nat)
    (hs : (p :: ps).Pairwise (· < ·)) (hl : ∀ x ∈ p :: ps, x < bytes.length) :
    ∀ q ∈ packetsFrom hdr bytes (p :: ps),
      q.bytes ≠ [] ∧ q.chk = none ∧ ∃ x ∈ p :: ps, q.hdr = matchSlot hdr (bytes.drop x) := by
  induction ps generalizing p with
  | nil =>
    intro q hq
    simp only [packetsFrom, List.mem_singleton] at hq
    subst hq
    have := hl p (by simp)
    exact ⟨by simpa using this, rfl, p, by simp, rfl⟩
  | cons next rest ih =>
    have hlt : p < next := (List.pairwise_cons.1 hs).1 next (by simp)
    intro q hq
    rw [packetsFrom, List.mem_cons] at hq
    rcases hq with rfl | hq
    · have := hl p (by simp)
      refine ⟨?_, rfl, p, by simp, rfl⟩
      rw [← List.length_pos_iff]
      simp only [List.length_take, List.length_drop]
      omega
    · obtain ⟨h1, h2, x, h3, h4⟩ :=
        ih next (List.pairwise_cons.1 hs).2 (fun x hx => hl x (List.mem_cons_of_mem _ hx)) q hq
      exact ⟨h1, h2, x, List.mem_cons_of_mem _ h3, h4⟩

/-- A packet ends where the next position lies: no header matches inside it. `before` and `after` are its neighbours. -/
theorem packetsFrom_cuts (hdr : List (List Byte)) (bytes : List DecodedByte) (p : Nat) (ps : List Nat)
    (hs : (p :: ps).Pairwise (· < ·)) (hl : ∀ x ∈ p :: ps, x < bytes.length)
    (hm : ∀ i, p ≤ i → i < bytes.length → ((matchSlot hdr (bytes.drop i)).isSome = true ↔ i ∈ p :: ps))
    (before after : List Packet) (q : Packet) (h : packetsFrom hdr bytes (p :: ps) = before ++ q :: after) :
    q.hdr.isSome = true ∧ q.hdr = matchSlot hdr (q.bytes ++ after.flatMap (·.bytes)) ∧
      ∀ k, 0 < k → k < q.bytes.length → matchSlot hdr ((q.bytes ++ after.flatMap (·.bytes)).drop k) = none := by
  induction ps generalizing p before with
  | nil =>
    rw [packetsFrom] at h
    cases before with
    | nil =>
      simp only [List.nil_append, List.cons.injEq] at h
      obtain ⟨rfl, rfl⟩ := h
      have hp := hl p (by simp)
      refine ⟨(hm p (by omega) hp).2 (by simp), by simp, ?_⟩
      intro k h0 hk
      simp only [List.length_drop] at hk
      have h1 := (not_congr (hm (p + k) (by omega) (by omega))).2 (by simp; omega)
      simp only [List.flatMap_nil, List.append_nil, List.drop_drop]
      simpa using h1
    | cons b bs => simp at h
  | cons next rest ih =>
    have hlt : p < next := (List.pairwise_cons.1 hs).1 next (by simp)
    have hnext := hl next (by simp)
    have hs' := (List.pairwise_cons.1 hs).2
    have hl' : ∀ x ∈ next :: rest, x < bytes.length := fun x hx => hl x (List.mem_cons_of_mem _ hx)
    rw [packetsFrom] at h
    cases before with
    | nil =>
      simp only [List.nil_append, List.cons.injEq] at h
      obtain ⟨rfl, rfl⟩ := h
      have hall : (bytes.drop p).take (next - p) ++ (packetsFrom hdr bytes (next :: rest)).flatMap (·.bytes) =
          bytes.drop p := by
        rw [packetsFrom_bytes hdr bytes next rest hs' hl',
          show bytes.drop next = (bytes.drop p).drop (next - p) by rw [List.drop_drop]; congr 1; omega,
          List.take_append_drop]
      refine ⟨(hm p (by omega) (by omega)).2 (by simp), by rw [hall], ?_⟩
      intro k h0 hk
      rw [hall, List.drop_drop]
      simp only [List.length_take, List.length_drop] at hk
      have h1 := (not_congr (hm (p + k) (by omega) (by omega))).2 (by
        simp only [List.mem_cons, not_or]
        refine ⟨by omega, by omega, fun hx => ?_⟩
        have := (List.pairwise_cons.1 hs').1 _ hx
        omega)
      simpa using h1
    | cons b bs =>
      simp only [List.cons_append, List.cons.injEq] at h
      refine ih next hs' hl' ?_ bs h.2
      intro i h1 h2
      rw [hm i (by omega) h2, List.mem_cons]
      constructor
      · rintro (rfl | h)
        · omega
        · exact h
      · exact .inr

/-- PSEG's result when some header matches: the leading bytes, then one packet per position. -/
theorem segmentBytes_eq (hdr : List (List Byte)) (bytes : List DecodedByte) (first : Nat) (rest : List Nat)
    (h : headerPositions hdr bytes = first :: rest) :
    segmentBytes hdr bytes = leadingPacket bytes first ++ packetsFrom hdr bytes (first :: rest) := by
  have hne : bytes.isEmpty = false := by
    cases bytes with
    | nil => simp [headerPositions] at h
    | cons a l => rfl
  simp [segmentBytes, hne, h]

/-- PSEG's result when no header matches. -/
theorem segmentBytes_none (hdr : List (List Byte)) (bytes : List DecodedByte) (h : headerPositions hdr bytes = []) :
    segmentBytes hdr bytes = if bytes.isEmpty then [] else [⟨none, bytes, none⟩] := by
  simp only [segmentBytes, h]

/-- PSEG drops no byte and adds none (R173). -/
theorem segmentBytes_bytes (hdr : List (List Byte)) (bytes : List DecodedByte) :
    (segmentBytes hdr bytes).flatMap (·.bytes) = bytes := by
  cases h : headerPositions hdr bytes with
  | nil =>
    rw [segmentBytes_none _ _ h]
    cases bytes <;> simp
  | cons first rest =>
    have hs := headerPositions_sorted hdr bytes
    have hl : ∀ x ∈ headerPositions hdr bytes, x < bytes.length := fun x hx => ((mem_headerPositions _ _ _).1 hx).1
    rw [h] at hs hl
    rw [segmentBytes_eq _ _ _ _ h, List.flatMap_append, packetsFrom_bytes hdr bytes first rest hs hl, leadingPacket]
    split
    · rename_i h0
      simp [h0]
    · simp

/-- PSEG's packets are not empty, carry a slot of the table or none, and no verdict. -/
theorem segmentBytes_mem (hdr : List (List Byte)) (bytes : List DecodedByte) :
    ∀ q ∈ segmentBytes hdr bytes, q.bytes ≠ [] ∧ q.chk = none ∧ ∀ k, q.hdr = some k → k < hdr.length := by
  intro q hq
  cases h : headerPositions hdr bytes with
  | nil =>
    rw [segmentBytes_none _ _ h] at hq
    split at hq
    · simp at hq
    · rename_i hne
      simp only [List.mem_singleton] at hq
      subst hq
      exact ⟨by simpa using hne, rfl, by simp⟩
  | cons first rest =>
    have hs := headerPositions_sorted hdr bytes
    have hl : ∀ x ∈ headerPositions hdr bytes, x < bytes.length := fun x hx => ((mem_headerPositions _ _ _).1 hx).1
    rw [h] at hs hl
    rw [segmentBytes_eq _ _ _ _ h, List.mem_append] at hq
    rcases hq with hq | hq
    · rw [leadingPacket] at hq
      split at hq
      · simp at hq
      · rename_i h0
        simp only [List.mem_singleton] at hq
        subst hq
        have := hl first (by simp)
        refine ⟨?_, rfl, by simp⟩
        rw [← List.length_pos_iff]
        simp only [List.length_take]
        omega
    · obtain ⟨h1, h2, x, -, h4⟩ := packetsFrom_mem hdr bytes first rest hs hl q hq
      exact ⟨h1, h2, fun k hk => matchSlot_lt (by rw [← h4, hk])⟩

/-! ### The verdict -/

/-- Every verdict is legal: a match exactly when the difference is 0, within -255 .. 255 (R178, R72). -/
theorem verdict_legal (e : Env) (bytes : List DecodedByte) : (verdict e bytes).Legal := by
  have h1 := (receivedSum e bytes).isLt
  have h2 : checksum bytes < 256 := Nat.mod_lt _ (by decide)
  refine ⟨?_, ?_, ?_⟩ <;> simp only [verdict, beq_iff_eq] <;> omega

/-- CSUM keeps the bytes and the slot of every packet. -/
theorem csumPass_mem (e : Env) (p : Pass) (h : ∀ q ∈ p.packets, q.Legal) : ∀ q ∈ (csumPass e p).packets, q.Legal := by
  unfold csumPass
  split
  · intro q hq
    simp only [List.mem_map] at hq
    obtain ⟨r, hr, rfl⟩ := hq
    refine ⟨(h r hr).nonempty, (h r hr).slot, ?_⟩
    intro v hv
    simp only [checkPacket, Option.some.injEq] at hv
    subst hv
    exact verdict_legal e r.bytes
  · exact h

end Sys2Proof.Machine
end

