-- ==== Sys2Proof/Laws/State.lean ====
section
/-! SUPPORT. One lemma per field for every operation on the whole state: what it writes, and what it leaves. -/

namespace Sys2Proof.Machine

/-! What the stages read of a state is its configuration and its tick. -/

@[simp] theorem State.env_toCfg (s : State) : s.env.toCfg = s.cfg := rfl
@[simp] theorem State.env_tick (s : State) : s.env.tick = s.tick := rfl

@[simp] theorem commandError_cfg (s : State) : (commandError s).cfg = s.cfg := rfl
@[simp] theorem commandError_hdr (s : State) : (commandError s).hdr = s.hdr := rfl
@[simp] theorem commandError_run (s : State) : (commandError s).run = s.run := rfl
@[simp] theorem commandError_cfgErr (s : State) : (commandError s).cfgErr = s.cfgErr := rfl
@[simp] theorem commandError_cmdErr (s : State) : (commandError s).cmdErr = true := rfl
@[simp] theorem commandError_ebuf (s : State) : (commandError s).ebuf = s.ebuf := rfl
@[simp] theorem commandError_bbuf (s : State) : (commandError s).bbuf = s.bbuf := rfl
@[simp] theorem commandError_lastTs (s : State) : (commandError s).lastTs = s.lastTs := rfl
@[simp] theorem commandError_bank (s : State) : (commandError s).bank = s.bank := rfl
@[simp] theorem commandError_pass (s : State) : (commandError s).pass = s.pass := rfl
@[simp] theorem commandError_outq (s : State) : (commandError s).outq = s.outq := rfl
@[simp] theorem commandError_result (s : State) : (commandError s).result = s.result := rfl
@[simp] theorem commandError_input (s : State) : (commandError s).input = s.input := rfl
@[simp] theorem commandError_tick (s : State) : (commandError s).tick = s.tick := rfl

@[simp] theorem configError_cfg (s : State) : (configError s).cfg = s.cfg := rfl
@[simp] theorem configError_hdr (s : State) : (configError s).hdr = s.hdr := rfl
@[simp] theorem configError_run (s : State) : (configError s).run = s.run := rfl
@[simp] theorem configError_cfgErr (s : State) : (configError s).cfgErr = true := rfl
@[simp] theorem configError_cmdErr (s : State) : (configError s).cmdErr = s.cmdErr := rfl
@[simp] theorem configError_ebuf (s : State) : (configError s).ebuf = s.ebuf := rfl
@[simp] theorem configError_bbuf (s : State) : (configError s).bbuf = s.bbuf := rfl
@[simp] theorem configError_lastTs (s : State) : (configError s).lastTs = s.lastTs := rfl
@[simp] theorem configError_bank (s : State) : (configError s).bank = s.bank := rfl
@[simp] theorem configError_pass (s : State) : (configError s).pass = s.pass := rfl
@[simp] theorem configError_outq (s : State) : (configError s).outq = s.outq := rfl
@[simp] theorem configError_result (s : State) : (configError s).result = s.result := rfl
@[simp] theorem configError_input (s : State) : (configError s).input = s.input := rfl
@[simp] theorem configError_tick (s : State) : (configError s).tick = s.tick := rfl

@[simp] theorem returnResult_cfg (s : State) (r : Result) : (returnResult s r).cfg = s.cfg := rfl
@[simp] theorem returnResult_hdr (s : State) (r : Result) : (returnResult s r).hdr = s.hdr := rfl
@[simp] theorem returnResult_run (s : State) (r : Result) : (returnResult s r).run = s.run := rfl
@[simp] theorem returnResult_cfgErr (s : State) (r : Result) : (returnResult s r).cfgErr = s.cfgErr := rfl
@[simp] theorem returnResult_cmdErr (s : State) (r : Result) : (returnResult s r).cmdErr = s.cmdErr := rfl
@[simp] theorem returnResult_ebuf (s : State) (r : Result) : (returnResult s r).ebuf = s.ebuf := rfl
@[simp] theorem returnResult_bbuf (s : State) (r : Result) : (returnResult s r).bbuf = s.bbuf := rfl
@[simp] theorem returnResult_lastTs (s : State) (r : Result) : (returnResult s r).lastTs = s.lastTs := rfl
@[simp] theorem returnResult_bank (s : State) (r : Result) : (returnResult s r).bank = s.bank := rfl
@[simp] theorem returnResult_pass (s : State) (r : Result) : (returnResult s r).pass = s.pass := rfl
@[simp] theorem returnResult_outq (s : State) (r : Result) : (returnResult s r).outq = s.outq := rfl
@[simp] theorem returnResult_result (s : State) (r : Result) : (returnResult s r).result = r := rfl
@[simp] theorem returnResult_input (s : State) (r : Result) : (returnResult s r).input = s.input := rfl
@[simp] theorem returnResult_tick (s : State) (r : Result) : (returnResult s r).tick = s.tick := rfl

@[simp] theorem pushEdge_cfg (s : State) (l : Level) (ts : U64) : (pushEdge s l ts).cfg = s.cfg := rfl
@[simp] theorem pushEdge_hdr (s : State) (l : Level) (ts : U64) : (pushEdge s l ts).hdr = s.hdr := rfl
@[simp] theorem pushEdge_run (s : State) (l : Level) (ts : U64) : (pushEdge s l ts).run = s.run := rfl
@[simp] theorem pushEdge_cfgErr (s : State) (l : Level) (ts : U64) : (pushEdge s l ts).cfgErr = s.cfgErr := rfl
@[simp] theorem pushEdge_cmdErr (s : State) (l : Level) (ts : U64) : (pushEdge s l ts).cmdErr = s.cmdErr := rfl
@[simp] theorem pushEdge_ebuf (s : State) (l : Level) (ts : U64) : (pushEdge s l ts).ebuf = s.ebuf ++ [⟨l, ts⟩] := rfl
@[simp] theorem pushEdge_bbuf (s : State) (l : Level) (ts : U64) : (pushEdge s l ts).bbuf = s.bbuf := rfl
@[simp] theorem pushEdge_lastTs (s : State) (l : Level) (ts : U64) : (pushEdge s l ts).lastTs = ts := rfl
@[simp] theorem pushEdge_bank (s : State) (l : Level) (ts : U64) : (pushEdge s l ts).bank = s.bank := rfl
@[simp] theorem pushEdge_pass (s : State) (l : Level) (ts : U64) : (pushEdge s l ts).pass = s.pass := rfl
@[simp] theorem pushEdge_outq (s : State) (l : Level) (ts : U64) : (pushEdge s l ts).outq = s.outq := rfl
@[simp] theorem pushEdge_result (s : State) (l : Level) (ts : U64) : (pushEdge s l ts).result = s.result := rfl
@[simp] theorem pushEdge_input (s : State) (l : Level) (ts : U64) : (pushEdge s l ts).input = s.input := rfl
@[simp] theorem pushEdge_tick (s : State) (l : Level) (ts : U64) : (pushEdge s l ts).tick = s.tick := rfl

@[simp] theorem pushByte_cfg (s : State) (b : Byte) (ts : U64) : (pushByte s b ts).cfg = s.cfg := rfl
@[simp] theorem pushByte_hdr (s : State) (b : Byte) (ts : U64) : (pushByte s b ts).hdr = s.hdr := rfl
@[simp] theorem pushByte_run (s : State) (b : Byte) (ts : U64) : (pushByte s b ts).run = s.run := rfl
@[simp] theorem pushByte_cfgErr (s : State) (b : Byte) (ts : U64) : (pushByte s b ts).cfgErr = s.cfgErr := rfl
@[simp] theorem pushByte_cmdErr (s : State) (b : Byte) (ts : U64) : (pushByte s b ts).cmdErr = s.cmdErr := rfl
@[simp] theorem pushByte_ebuf (s : State) (b : Byte) (ts : U64) : (pushByte s b ts).ebuf = s.ebuf := rfl
@[simp] theorem pushByte_bbuf (s : State) (b : Byte) (ts : U64) : (pushByte s b ts).bbuf = s.bbuf ++ [⟨b, ts⟩] := rfl
@[simp] theorem pushByte_lastTs (s : State) (b : Byte) (ts : U64) : (pushByte s b ts).lastTs = ts := rfl
@[simp] theorem pushByte_bank (s : State) (b : Byte) (ts : U64) : (pushByte s b ts).bank = s.bank := rfl
@[simp] theorem pushByte_pass (s : State) (b : Byte) (ts : U64) : (pushByte s b ts).pass = s.pass := rfl
@[simp] theorem pushByte_outq (s : State) (b : Byte) (ts : U64) : (pushByte s b ts).outq = s.outq := rfl
@[simp] theorem pushByte_result (s : State) (b : Byte) (ts : U64) : (pushByte s b ts).result = s.result := rfl
@[simp] theorem pushByte_input (s : State) (b : Byte) (ts : U64) : (pushByte s b ts).input = s.input := rfl
@[simp] theorem pushByte_tick (s : State) (b : Byte) (ts : U64) : (pushByte s b ts).tick = s.tick := rfl

@[simp] theorem clearCapture_cfg (s : State) : (clearCapture s).cfg = s.cfg := rfl
@[simp] theorem clearCapture_hdr (s : State) : (clearCapture s).hdr = s.hdr := rfl
@[simp] theorem clearCapture_run (s : State) : (clearCapture s).run = s.run := rfl
@[simp] theorem clearCapture_cfgErr (s : State) : (clearCapture s).cfgErr = s.cfgErr := rfl
@[simp] theorem clearCapture_cmdErr (s : State) : (clearCapture s).cmdErr = s.cmdErr := rfl
@[simp] theorem clearCapture_ebuf (s : State) : (clearCapture s).ebuf = [] := rfl
@[simp] theorem clearCapture_bbuf (s : State) : (clearCapture s).bbuf = [] := rfl
@[simp] theorem clearCapture_lastTs (s : State) : (clearCapture s).lastTs = s.lastTs := rfl
@[simp] theorem clearCapture_bank (s : State) : (clearCapture s).bank = s.bank := rfl
@[simp] theorem clearCapture_pass (s : State) : (clearCapture s).pass = s.pass := rfl
@[simp] theorem clearCapture_outq (s : State) : (clearCapture s).outq = s.outq := rfl
@[simp] theorem clearCapture_result (s : State) : (clearCapture s).result = s.result := rfl
@[simp] theorem clearCapture_input (s : State) : (clearCapture s).input = s.input := rfl
@[simp] theorem clearCapture_tick (s : State) : (clearCapture s).tick = s.tick := rfl

@[simp] theorem withPass_cfg (s : State) (f : Env → Pass → Pass) : (withPass s f).cfg = s.cfg := rfl
@[simp] theorem withPass_hdr (s : State) (f : Env → Pass → Pass) : (withPass s f).hdr = s.hdr := rfl
@[simp] theorem withPass_run (s : State) (f : Env → Pass → Pass) : (withPass s f).run = s.run := rfl
@[simp] theorem withPass_cfgErr (s : State) (f : Env → Pass → Pass) : (withPass s f).cfgErr = s.cfgErr := rfl
@[simp] theorem withPass_cmdErr (s : State) (f : Env → Pass → Pass) : (withPass s f).cmdErr = s.cmdErr := rfl
@[simp] theorem withPass_ebuf (s : State) (f : Env → Pass → Pass) : (withPass s f).ebuf = s.ebuf := rfl
@[simp] theorem withPass_bbuf (s : State) (f : Env → Pass → Pass) : (withPass s f).bbuf = s.bbuf := rfl
@[simp] theorem withPass_lastTs (s : State) (f : Env → Pass → Pass) : (withPass s f).lastTs = s.lastTs := rfl
@[simp] theorem withPass_bank (s : State) (f : Env → Pass → Pass) : (withPass s f).bank = s.bank := rfl
@[simp] theorem withPass_pass (s : State) (f : Env → Pass → Pass) : (withPass s f).pass = f s.env s.pass := rfl
@[simp] theorem withPass_outq (s : State) (f : Env → Pass → Pass) : (withPass s f).outq = s.outq := rfl
@[simp] theorem withPass_result (s : State) (f : Env → Pass → Pass) : (withPass s f).result = s.result := rfl
@[simp] theorem withPass_input (s : State) (f : Env → Pass → Pass) : (withPass s f).input = s.input := rfl
@[simp] theorem withPass_tick (s : State) (f : Env → Pass → Pass) : (withPass s f).tick = s.tick := rfl

@[simp] theorem issue_cfg (s : State) (rest : List Input) : (s.issue rest).cfg = s.cfg := rfl
@[simp] theorem issue_hdr (s : State) (rest : List Input) : (s.issue rest).hdr = s.hdr := rfl
@[simp] theorem issue_run (s : State) (rest : List Input) : (s.issue rest).run = s.run := rfl
@[simp] theorem issue_cfgErr (s : State) (rest : List Input) : (s.issue rest).cfgErr = s.cfgErr := rfl
@[simp] theorem issue_cmdErr (s : State) (rest : List Input) : (s.issue rest).cmdErr = s.cmdErr := rfl
@[simp] theorem issue_ebuf (s : State) (rest : List Input) : (s.issue rest).ebuf = s.ebuf := rfl
@[simp] theorem issue_bbuf (s : State) (rest : List Input) : (s.issue rest).bbuf = s.bbuf := rfl
@[simp] theorem issue_lastTs (s : State) (rest : List Input) : (s.issue rest).lastTs = s.lastTs := rfl
@[simp] theorem issue_bank (s : State) (rest : List Input) : (s.issue rest).bank = s.bank := rfl
@[simp] theorem issue_pass (s : State) (rest : List Input) : (s.issue rest).pass = s.pass := rfl
@[simp] theorem issue_outq (s : State) (rest : List Input) : (s.issue rest).outq = s.outq := rfl
@[simp] theorem issue_result (s : State) (rest : List Input) : (s.issue rest).result = .nothing := rfl
@[simp] theorem issue_input (s : State) (rest : List Input) : (s.issue rest).input = rest := rfl
@[simp] theorem issue_tick (s : State) (rest : List Input) : (s.issue rest).tick = s.tick + 1 := rfl

@[simp] theorem closeEdges_cfg (s : State) : (closeEdges s).cfg = s.cfg := rfl
@[simp] theorem closeEdges_hdr (s : State) : (closeEdges s).hdr = s.hdr := rfl
@[simp] theorem closeEdges_run (s : State) : (closeEdges s).run = s.run := rfl
@[simp] theorem closeEdges_cfgErr (s : State) : (closeEdges s).cfgErr = s.cfgErr := rfl
@[simp] theorem closeEdges_cmdErr (s : State) : (closeEdges s).cmdErr = s.cmdErr := rfl
@[simp] theorem closeEdges_ebuf (s : State) : (closeEdges s).ebuf = [] := rfl
@[simp] theorem closeEdges_bbuf (s : State) : (closeEdges s).bbuf = s.bbuf := rfl
@[simp] theorem closeEdges_lastTs (s : State) : (closeEdges s).lastTs = s.lastTs := rfl
@[simp] theorem closeEdges_bank (s : State) : (closeEdges s).bank = !s.bank := rfl
@[simp] theorem closeEdges_pass (s : State) : (closeEdges s).pass = { s.pass with rle := runLengths s.env s.pass.closeTs s.ebuf } := rfl
@[simp] theorem closeEdges_outq (s : State) : (closeEdges s).outq = s.outq := rfl
@[simp] theorem closeEdges_result (s : State) : (closeEdges s).result = s.result := rfl
@[simp] theorem closeEdges_input (s : State) : (closeEdges s).input = s.input := rfl
@[simp] theorem closeEdges_tick (s : State) : (closeEdges s).tick = s.tick := rfl

@[simp] theorem closeBytes_cfg (s : State) : (closeBytes s).cfg = s.cfg := rfl
@[simp] theorem closeBytes_hdr (s : State) : (closeBytes s).hdr = s.hdr := rfl
@[simp] theorem closeBytes_run (s : State) : (closeBytes s).run = s.run := rfl
@[simp] theorem closeBytes_cfgErr (s : State) : (closeBytes s).cfgErr = s.cfgErr := rfl
@[simp] theorem closeBytes_cmdErr (s : State) : (closeBytes s).cmdErr = s.cmdErr := rfl
@[simp] theorem closeBytes_ebuf (s : State) : (closeBytes s).ebuf = s.ebuf := rfl
@[simp] theorem closeBytes_bbuf (s : State) : (closeBytes s).bbuf = [] := rfl
@[simp] theorem closeBytes_lastTs (s : State) : (closeBytes s).lastTs = s.lastTs := rfl
@[simp] theorem closeBytes_bank (s : State) : (closeBytes s).bank = !s.bank := rfl
@[simp] theorem closeBytes_pass (s : State) : (closeBytes s).pass = { s.pass with dbytes := s.bbuf.map framedByte } := rfl
@[simp] theorem closeBytes_outq (s : State) : (closeBytes s).outq = s.outq := rfl
@[simp] theorem closeBytes_result (s : State) : (closeBytes s).result = s.result := rfl
@[simp] theorem closeBytes_input (s : State) : (closeBytes s).input = s.input := rfl
@[simp] theorem closeBytes_tick (s : State) : (closeBytes s).tick = s.tick := rfl

@[simp] theorem psegState_cfg (s : State) : (psegState s).cfg = s.cfg := rfl
@[simp] theorem psegState_hdr (s : State) : (psegState s).hdr = s.hdr := rfl
@[simp] theorem psegState_run (s : State) : (psegState s).run = s.run := rfl
@[simp] theorem psegState_cfgErr (s : State) : (psegState s).cfgErr = s.cfgErr := rfl
@[simp] theorem psegState_cmdErr (s : State) : (psegState s).cmdErr = s.cmdErr := rfl
@[simp] theorem psegState_ebuf (s : State) : (psegState s).ebuf = s.ebuf := rfl
@[simp] theorem psegState_bbuf (s : State) : (psegState s).bbuf = s.bbuf := rfl
@[simp] theorem psegState_lastTs (s : State) : (psegState s).lastTs = s.lastTs := rfl
@[simp] theorem psegState_bank (s : State) : (psegState s).bank = s.bank := rfl
@[simp] theorem psegState_pass (s : State) : (psegState s).pass = { s.pass with packets := segmentBytes s.hdr s.pass.dbytes } := rfl
@[simp] theorem psegState_outq (s : State) : (psegState s).outq = s.outq := rfl
@[simp] theorem psegState_result (s : State) : (psegState s).result = s.result := rfl
@[simp] theorem psegState_input (s : State) : (psegState s).input = s.input := rfl
@[simp] theorem psegState_tick (s : State) : (psegState s).tick = s.tick := rfl

@[simp] theorem emitState_cfg (s : State) : (emitState s).cfg = s.cfg := rfl
@[simp] theorem emitState_hdr (s : State) : (emitState s).hdr = s.hdr := rfl
@[simp] theorem emitState_run (s : State) : (emitState s).run = s.run := rfl
@[simp] theorem emitState_cfgErr (s : State) : (emitState s).cfgErr = s.cfgErr := rfl
@[simp] theorem emitState_cmdErr (s : State) : (emitState s).cmdErr = s.cmdErr := rfl
@[simp] theorem emitState_ebuf (s : State) : (emitState s).ebuf = s.ebuf := rfl
@[simp] theorem emitState_bbuf (s : State) : (emitState s).bbuf = s.bbuf := rfl
@[simp] theorem emitState_lastTs (s : State) : (emitState s).lastTs = s.lastTs := rfl
@[simp] theorem emitState_bank (s : State) : (emitState s).bank = s.bank := rfl
@[simp] theorem emitState_pass (s : State) : (emitState s).pass = { s.pass with streams := s.pass.streams.tail } := rfl
@[simp] theorem emitState_outq (s : State) : (emitState s).outq = s.outq ++ s.pass.packets := rfl
@[simp] theorem emitState_result (s : State) : (emitState s).result = s.result := rfl
@[simp] theorem emitState_input (s : State) : (emitState s).input = s.input := rfl
@[simp] theorem emitState_tick (s : State) : (emitState s).tick = s.tick := rfl

end Sys2Proof.Machine
end

