-- ==== Sys2Proof/Laws/Sync.lean ====
section
/-! SUPPORT. What the stages of a decode pass keep and what they move, the start edges it meets, and why it ends (42_frame_sync.md R130,
R139; 43_bit_sampler.md R150). -/

namespace Sys2Proof.Machine

/-- What no stage inside a decode pass writes: the stream, its timeline, and what belongs to other stages. -/
structure KeepsStream (p q : Pass) : Prop where
  rle : q.rle = p.rle
  tl : q.tl = p.tl
  tlTotal : q.tlTotal = p.tlTotal
  streams : q.streams = p.streams
  packets : q.packets = p.packets

theorem KeepsStream.refl (p : Pass) : KeepsStream p p := ⟨rfl, rfl, rfl, rfl, rfl⟩

theorem KeepsStream.trans {p q r : Pass} (h : KeepsStream p q) (k : KeepsStream q r) : KeepsStream p r :=
  ⟨k.rle.trans h.rle, k.tl.trans h.tl, k.tlTotal.trans h.tlTotal, k.streams.trans h.streams, k.packets.trans h.packets⟩

/-! ### Sampling -/

/-- The votes of a bit depend on the timeline and the start edge alone. -/
theorem votesAt_congr (e : Env) {p q : Pass} (h : KeepsStream p q) (hs : q.startEdge = p.startEdge) (i : Nat) :
    votesAt e q i = votesAt e p i := by
  simp only [votesAt, Pass.levelAt, h.tl, h.tlTotal, hs]

/-- What `n` SAMPLEs do: they append `n` bits and move `BIT_IDX` by `n`; the anchor and the cursor stay. -/
theorem sampleBits_spec (e : Env) (n : Nat) (p : Pass) :
    KeepsStream p (sampleBits e n p) ∧ (sampleBits e n p).startEdge = p.startEdge ∧
      (sampleBits e n p).tCur = p.tCur ∧ (sampleBits e n p).first = p.first ∧
      (sampleBits e n p).dbytes = p.dbytes ∧ (sampleBits e n p).bitIdx = p.bitIdx + n ∧
      (sampleBits e n p).frameSr = p.frameSr ++ (List.range n).map fun i => majority (votesAt e p (p.bitIdx + i)) := by
  induction n generalizing p with
  | zero => simp [sampleBits, KeepsStream.refl]
  | succ n ih =>
    have hk : KeepsStream p (samplePass e p) := ⟨rfl, rfl, rfl, rfl, rfl⟩
    obtain ⟨h1, h2, h3, h4, h5, h6, h7⟩ := ih (samplePass e p)
    have hv : ∀ i, votesAt e (samplePass e p) i = votesAt e p i := votesAt_congr e hk rfl
    refine ⟨hk.trans h1, h2, h3, h4, h5, ?_, ?_⟩
    · rw [sampleBits, h6]
      show p.bitIdx + 1 + n = p.bitIdx + (n + 1)
      omega
    · rw [sampleBits, h7, List.range_succ_eq_map]
      simp only [hv, List.map_cons, List.map_map]
      show p.frameSr ++ [majority (votesAt e p p.bitIdx)] ++ _ = _
      rw [List.append_assoc]
      congr 1
      simp only [List.singleton_append, Nat.add_zero, List.cons.injEq, true_and]
      apply List.map_congr_left
      intro i _
      show majority (votesAt e p (p.bitIdx + 1 + i)) = majority (votesAt e p (p.bitIdx + (i + 1)))
      rw [show p.bitIdx + 1 + i = p.bitIdx + (i + 1) by omega]

/-! ### A trip -/

/-- One step of the search keeps the stream; it anchors one step on, or moves the cursor one step on. -/
theorem huntPass_spec (e : Env) (p : Pass) :
    KeepsStream p (huntPass e p) ∧ (huntPass e p).first = p.first ∧
      (((huntPass e p).answer = true ∧ (huntPass e p).startEdge = p.tCur + e.huntStepUs.toNat) ∨
        ((huntPass e p).answer = false ∧ (huntPass e p).tCur = p.tCur + e.huntStepUs.toNat)) := by
  unfold huntPass
  by_cases h : fallAt e p p.tCur = true
  · simp only [h, if_true]
    exact ⟨⟨rfl, rfl, rfl, rfl, rfl⟩, rfl, .inl ⟨rfl, rfl⟩⟩
  · simp only [h]
    exact ⟨⟨rfl, rfl, rfl, rfl, rfl⟩, rfl, .inr ⟨rfl, rfl⟩⟩

theorem anchor0Pass_keeps (e : Env) (p : Pass) : KeepsStream p (anchor0Pass e p) := by
  unfold anchor0Pass
  split <;> exact ⟨rfl, rfl, rfl, rfl, rfl⟩

/-- A frame is sampled, decoded, and the cursor put behind it; the stream stays. -/
theorem decodeFrame_spec (e : Env) (p : Pass) :
    KeepsStream p (decodeFrame e p) ∧ (decodeFrame e p).first = p.first ∧
      (decodeFrame e p).tCur = resyncTime e p.startEdge := by
  obtain ⟨h1, h2, -, h4, -⟩ := sampleBits_spec e e.frameLen p
  refine ⟨⟨h1.rle, h1.tl, h1.tlTotal, h1.streams, h1.packets⟩, h4, ?_⟩
  show resyncTime e (sampleBits e e.frameLen p).startEdge = _
  rw [h2]

/-- The byte of a frame: FDEC of the `L` votes taken from its start edge, whatever they are (R150, R161). -/
theorem decodeFrame_bytes (e : Env) (p : Pass) (hi : p.bitIdx = 0) (hf : p.frameSr = []) :
    (decodeFrame e p).dbytes = p.dbytes ++ [decodeFrameBits e e.template
      ((List.range e.frameLen).map fun i => majority (votesAt e p i))] := by
  obtain ⟨-, -, -, -, hd, -, hsr⟩ := sampleBits_spec e e.frameLen p
  show (sampleBits e e.frameLen p).dbytes ++ [decodeFrameBits e e.template (sampleBits e e.frameLen p).frameSr] = _
  rw [hd, hsr, hi, hf]
  simp only [List.nil_append, Nat.zero_add]

/-- The end test as R131 writes it. -/
theorem hstopTest_iff (e : Env) (p : Pass) :
    hstopTest e p = true ↔ p.tlTotal < p.tCur ∨ (p.tlTotal - p.tCur) * e.baud.toNat < 1000000 * e.frameLen := by
  simp only [hstopTest, lastsLessThan, Bool.or_eq_true, decide_eq_true_eq]
  exact Iff.rfl

theorem findStart_keeps (e : Env) (p : Pass) : KeepsStream p (findStart e p) ∧ (findStart e p).first = false := by
  refine ⟨?_, rfl⟩
  have h1 : KeepsStream p (if p.first then anchor0Pass e p else { p with answer := false }) := by
    split
    · exact anchor0Pass_keeps e p
    · exact ⟨rfl, rfl, rfl, rfl, rfl⟩
  have h2 := h1.trans (huntPass_spec e (if p.first then anchor0Pass e p else { p with answer := false })).1
  unfold findStart
  by_cases h : (if p.first then anchor0Pass e p else { p with answer := false }).answer = true
  · simp only [h, if_true]
    exact ⟨h1.rle, h1.tl, h1.tlTotal, h1.streams, h1.packets⟩
  · simp only [h]
    exact ⟨h2.rle, h2.tl, h2.tlTotal, h2.streams, h2.packets⟩

/-- A trip keeps the stream, and is no first trip any more. -/
theorem tripPass_keeps (e : Env) (p : Pass) : KeepsStream p (tripPass e p) ∧ (tripPass e p).first = false := by
  obtain ⟨h1, h2⟩ := findStart_keeps e p
  obtain ⟨h3, h4, -⟩ := decodeFrame_spec e (findStart e p)
  unfold tripPass
  by_cases h : (findStart e p).answer = true
  · simp only [h, if_true]
    exact ⟨h1.trans h3, h4.trans h2⟩
  · simp only [h]
    exact ⟨h1, h2⟩

/-- After the first trip a trip moves the cursor on by at least one step (R139). -/
theorem tripPass_advances (e : Env) (p : Pass) (hf : p.first = false) :
    p.tCur + e.huntStepUs.toNat ≤ (tripPass e p).tCur := by
  have hs : findStart e p = { huntPass e { p with answer := false } with first := false } := by
    unfold findStart
    simp [hf]
  obtain ⟨-, -, h⟩ := huntPass_spec e { p with answer := false }
  unfold tripPass
  rw [hs]
  rcases h with ⟨ha, hse⟩ | ⟨ha, ht⟩
  · simp only [ha, if_true]
    rw [(decodeFrame_spec e _).2.2]
    show _ ≤ resyncTime e (huntPass e { p with answer := false }).startEdge
    rw [hse]
    simp only [resyncTime]
    omega
  · simp only [ha]
    exact le_of_eq ht.symm

/-! ### The first trip and the later ones -/

/-- Whether a trip is the first plays no part in a frame. -/
theorem sampleBits_first (e : Env) (n : Nat) (p : Pass) (b : Bool) :
    sampleBits e n { p with first := b } = { sampleBits e n p with first := b } := by
  induction n generalizing p with
  | zero => rfl
  | succ n ih =>
    simp only [sampleBits]
    rw [← ih]
    rfl

theorem decodeFrame_first (e : Env) (p : Pass) (b : Bool) :
    decodeFrame e { p with first := b } = { decodeFrame e p with first := b } := by
  simp only [decodeFrame, sampleFrame, sampleBits_first]
  rfl

theorem Pass.first_eta (p : Pass) (b : Bool) (h : p.first = b) : { p with first := b } = p := by
  subst h
  rfl

/-- HUNT does not read what an earlier test answered. -/
theorem huntPass_answer (e : Env) (p : Pass) (b : Bool) : huntPass e { p with answer := b } = huntPass e p := by
  unfold huntPass
  have h : fallAt e { p with answer := b } = fallAt e p := rfl
  rw [h]
  split <;> rfl

/-- After the first trip the search of a trip is one HUNT. -/
theorem findStart_later (e : Env) (p : Pass) (hf : p.first = false) : findStart e p = huntPass e p := by
  have h : findStart e p = { huntPass e { p with answer := false } with first := false } := by
    unfold findStart
    simp [hf]
  rw [h, huntPass_answer]
  exact Pass.first_eta _ _ ((huntPass_spec e p).2.1.trans hf)

/-- In the first trip an anchor at time 0 is the whole search. -/
theorem findStart_anchored (e : Env) (p : Pass) (hf : p.first = true) (ha : (anchor0Pass e p).answer = true) :
    findStart e p = { anchor0Pass e p with first := false } := by
  unfold findStart
  simp only [hf, if_true, ha]

/-- In the first trip one HUNT follows an ANCHOR0 that did not anchor. -/
theorem findStart_hunted (e : Env) (p : Pass) (hf : p.first = true) (ha : (anchor0Pass e p).answer = false) :
    findStart e p = { huntPass e (anchor0Pass e p) with first := false } := by
  unfold findStart
  simp [hf, ha]

/-! ### The start edges -/

/-- The hunt is where it starts. -/
theorem HuntReaches.refl (falls stops : Nat → Prop) (step cursor : Nat) : HuntReaches falls stops step cursor cursor :=
  ⟨0, by simp, fun _ h => absurd h (Nat.not_lt_zero _)⟩

/-- A step that neither stops nor meets a fall, and the rest of the walk. -/
theorem HuntReaches.step {falls stops : Nat → Prop} {step cursor last : Nat} (hs : ¬ stops cursor) (hf : ¬ falls cursor)
    (h : HuntReaches falls stops step (cursor + step) last) : HuntReaches falls stops step cursor last := by
  obtain ⟨j, rfl, hj⟩ := h
  refine ⟨j + 1, by ring, fun i hi => ?_⟩
  cases i with
  | zero => simpa using ⟨hs, hf⟩
  | succ i =>
    have h := hj i (by omega)
    rwa [show cursor + step + i * step = cursor + (i + 1) * step by ring] at h

/-- A step that neither stops nor meets a fall plays no part in which start edges the pass meets. -/
theorem MeetsEdges.step {falls stops : Nat → Prop} {step : Nat} {resync : Nat → Nat} {cursor last : Nat} {edges : List Nat}
    (hs : ¬ stops cursor) (hf : ¬ falls cursor) (h : MeetsEdges falls stops step resync (cursor + step) edges last) :
    MeetsEdges falls stops step resync cursor edges last := by
  cases edges with
  | nil => exact ⟨h.1.step hs hf, h.2⟩
  | cons t rest =>
    obtain ⟨c, hc, hrest⟩ := h
    exact ⟨c, hc.step hs hf, hrest⟩

/-- A fall at the cursor is a start edge one step on, and the pass goes on from its RESYNC position. -/
theorem MeetsEdges.found {falls stops : Nat → Prop} {step : Nat} {resync : Nat → Nat} {cursor last : Nat} {edges : List Nat}
    (hs : ¬ stops cursor) (hf : falls cursor) (h : MeetsEdges falls stops step resync (resync (cursor + step)) edges last) :
    MeetsEdges falls stops step resync cursor ((cursor + step) :: edges) last :=
  ⟨cursor, .refl _ _ _ _, hs, hf, rfl, h⟩

/-! ### The loop -/

/-- What a pass leaves when it ends: DONE, with the end test true at its cursor; the stream as it was. -/
theorem tripsUntilStop_spec (e : Env) (fuel : Nat) (p q : Pass) (h : tripsUntilStop e fuel p = some q) :
    KeepsStream p q ∧ q.phase = .done ∧ hstopTest e q = true := by
  induction fuel generalizing p with
  | zero => simp [tripsUntilStop] at h
  | succ n ih =>
    simp only [tripsUntilStop] at h
    by_cases ht : hstopTest e p = true
    · have : (hstopPass e p).answer = true := ht
      rw [if_pos this] at h
      simp only [Option.some.injEq] at h
      subst h
      refine ⟨⟨rfl, rfl, rfl, rfl, rfl⟩, ?_, ht⟩
      simp [hstopPass, ht]
    · have : ¬ (hstopPass e p).answer = true := ht
      rw [if_neg this] at h
      obtain ⟨h1, h2, h3⟩ := ih _ h
      have hk : KeepsStream p (hstopPass e p) := ⟨rfl, rfl, rfl, rfl, rfl⟩
      exact ⟨(hk.trans (tripPass_keeps e _).1).trans h1, h2, h3⟩

/-- One test and, when it does not stop, one trip. -/
theorem tripsUntilStop_succ (e : Env) (n : Nat) (p : Pass) :
    tripsUntilStop e (n + 1) p =
      if (hstopPass e p).answer then some (hstopPass e p) else tripsUntilStop e n (tripPass e (hstopPass e p)) := rfl

/-- More fuel changes nothing. -/
theorem tripsUntilStop_mono (e : Env) {n m : Nat} (p q : Pass) (h : tripsUntilStop e n p = some q) (hm : n ≤ m) :
    tripsUntilStop e m p = some q := by
  induction n generalizing p m with
  | zero => simp [tripsUntilStop] at h
  | succ n ih =>
    obtain ⟨m, rfl⟩ : ∃ k, m = k + 1 := ⟨m - 1, by omega⟩
    simp only [tripsUntilStop] at h ⊢
    split
    · rename_i ht
      rwa [if_pos ht] at h
    · rename_i ht
      rw [if_neg ht] at h
      exact ih _ h (by omega)

/-- After the first trip the loop ends before the cursor has passed the end by a step (R139). -/
theorem tripsUntilStop_ends (e : Env) (n : Nat) (p : Pass) (hf : p.first = false)
    (hn : p.tlTotal < p.tCur + n * e.huntStepUs.toNat) : ∃ q, tripsUntilStop e (n + 1) p = some q := by
  induction n generalizing p with
  | zero =>
    have : (hstopPass e p).answer = true := by
      show hstopTest e p = true
      simp only [hstopTest, Bool.or_eq_true, decide_eq_true_eq]
      exact .inl (by simpa using hn)
    exact ⟨_, by rw [tripsUntilStop]; exact if_pos this⟩
  | succ n ih =>
    rw [tripsUntilStop]
    by_cases h : (hstopPass e p).answer = true
    · exact ⟨_, if_pos h⟩
    · simp only [h]
      apply ih _ (tripPass_keeps e _).2
      have h1 := tripPass_advances e (hstopPass e p) hf
      have h2 := (tripPass_keeps e (hstopPass e p)).1.tlTotal
      have h3 : (hstopPass e p).tCur = p.tCur := rfl
      have h4 : (hstopPass e p).tlTotal = p.tlTotal := rfl
      rw [h2, h4]
      rw [Nat.add_mul, Nat.one_mul] at hn
      omega

/-- A whole pass ends after at most `TL_TOTAL / HUNT_STEP_US + 2` trips (R139). -/
theorem tripsUntilStop_enterPass (e : Env) (p : Pass) (hstep : 1 ≤ e.huntStepUs.toNat) :
    ∃ q, tripsUntilStop e ((enterPass p).tlTotal / e.huntStepUs.toNat + 3) (enterPass p) = some q := by
  generalize enterPass p = q
  have hlt := Nat.lt_mul_div_succ q.tlTotal (show 0 < e.huntStepUs.toNat by omega)
  generalize q.tlTotal / e.huntStepUs.toNat = d at hlt ⊢
  have hs := tripsUntilStop_succ e (d + 2) q
  by_cases h : (hstopPass e q).answer = true
  · exact ⟨_, hs.trans (if_pos h)⟩
  · have h2 : (tripPass e (hstopPass e q)).tlTotal = q.tlTotal := (tripPass_keeps e (hstopPass e q)).1.tlTotal
    obtain ⟨r, hr⟩ := tripsUntilStop_ends e (d + 1) _ (tripPass_keeps e (hstopPass e q)).2 (by
      rw [h2, Nat.mul_comm]
      exact Nat.lt_of_lt_of_le hlt (Nat.le_add_left _ _))
    exact ⟨r, hs.trans ((if_neg h).trans hr)⟩

/-- SDEC ends wherever the hunt advances. -/
theorem sdecPass_isSome (e : Env) (p : Pass) (hstep : 1 ≤ e.huntStepUs.toNat) : ∃ q, sdecPass e p = some q := by
  obtain ⟨q, hq⟩ := tripsUntilStop_enterPass e p hstep
  refine ⟨q, tripsUntilStop_mono e _ _ hq ?_⟩
  have := Nat.div_le_self (enterPass p).tlTotal e.huntStepUs.toNat
  omega

/-- What SDEC leaves: the timeline of the current stream, DONE, the end test true; the streams, the burst and the
packets as they were. -/
theorem sdecPass_spec (e : Env) (p q : Pass) (h : sdecPass e p = some q) :
    KeepsStream (enterPass p) q ∧ q.phase = .done ∧ hstopTest e q = true :=
  tripsUntilStop_spec e _ _ _ h

end Sys2Proof.Machine
end

