-- ==== Sys2Proof/Laws/Poll.lean ====
section
/-! SUPPORT. Everything a closing POLL can do (40_capture.md R100, R103): it empties the selected buffer, swaps the bank,
works on the pass, and appends packets to `OUTQ`. -/

namespace Sys2Proof.Machine

/-- A packet as PSEG and CSUM make it with `n` headers and `CHK_EN = chkEn`: not empty, one of the `n` slots or none, a
verdict exactly when `CHK_EN` is set, and a legal one. -/
structure Packet.Made (n : Nat) (chkEn : Bool) (q : Packet) : Prop where
  nonempty : q.bytes ≠ []
  slot : ∀ k, q.hdr = some k → k < n
  checked : q.chk.isSome = chkEn
  verdict : ∀ v, q.chk = some v → v.Legal

/-- `t` is `s` but for the pass and for packets, made from `s`, appended to `OUTQ`; a packet the pass holds is of that kind or
was there before. -/
def Delivers (s t : State) : Prop :=
  ∃ new, t = { s with pass := t.pass, outq := s.outq ++ new } ∧ (∀ q ∈ new, q.Made s.hdr.length s.cfg.chkEn) ∧
    ∀ q ∈ t.pass.packets, q.Made s.hdr.length s.cfg.chkEn ∨ q ∈ s.pass.packets

theorem Delivers.trans {s t u : State} (h : Delivers s t) (k : Delivers t u) : Delivers s u := by
  obtain ⟨a, h1, h2, h3⟩ := h
  obtain ⟨b, k1, k2, k3⟩ := k
  have hh : t.hdr = s.hdr := by rw [h1]
  have hc : t.cfg = s.cfg := by rw [h1]
  rw [hh, hc] at k2 k3
  refine ⟨a ++ b, ?_, ?_, fun q hq => (k3 q hq).elim .inl (h3 q)⟩
  · rw [k1, h1]
    simp [List.append_assoc]
  · intro q hq
    rcases List.mem_append.1 hq with hq | hq
    · exact h2 q hq
    · exact k2 q hq

/-- PSEG's packets, with CSUM's verdicts, are made from the state. -/
theorem csumPass_makes (s : State) : ∀ q ∈ (csumPass s.env (psegState s).pass).packets,
    q.Made s.hdr.length s.cfg.chkEn := by
  intro q hq
  have hseg := segmentBytes_mem s.hdr s.pass.dbytes
  unfold csumPass at hq
  split at hq
  · rename_i hc
    simp only [List.mem_map] at hq
    obtain ⟨r, hr, rfl⟩ := hq
    refine ⟨(hseg r hr).1, (hseg r hr).2.2, hc.symm, ?_⟩
    intro v hv
    simp only [checkPacket, Option.some.injEq] at hv
    subst hv
    exact verdict_legal s.env r.bytes
  · rename_i hc
    have hnone := (hseg q hq).2.1
    refine ⟨(hseg q hq).1, (hseg q hq).2.2, ?_, by rw [hnone]; simp⟩
    rw [hnone]
    exact (Bool.not_eq_true _ ▸ hc : s.env.chkEn = false).symm

/-- PSEG, CSUM, EMIT. -/
theorem finishStream_delivers (s : State) :
    Delivers s (finishStream s) ∧ (finishStream s).pass.streams = s.pass.streams.tail := by
  have h := csumPass_makes s
  refine ⟨⟨(csumPass s.env (psegState s).pass).packets, rfl, h, fun q hq => .inl (h q hq)⟩, ?_⟩
  show (csumPass s.env (psegState s).pass).streams.tail = _
  unfold csumPass
  split <;> rfl

/-- One stream. -/
theorem decodeStream_delivers (s t : State) (h : decodeStream s = some t) :
    Delivers s t ∧ t.pass.streams = s.pass.streams.tail := by
  unfold decodeStream at h
  split at h
  · rename_i p hp
    simp only [Option.some.injEq] at h
    subst h
    obtain ⟨⟨new, h1, h2, -⟩, h4⟩ := finishStream_delivers { s with pass := p }
    refine ⟨⟨new, h1, h2, fun q hq => .inl (csumPass_makes { s with pass := p } q hq)⟩, h4.trans ?_⟩
    show p.streams.tail = _
    rw [(sdecPass_spec _ _ _ hp).1.streams]
    rfl
  · simp at h

/-- Any number of streams. -/
theorem decodeStreams_delivers (n : Nat) (s t : State) (h : decodeStreams n s = some t) : Delivers s t := by
  induction n generalizing s with
  | zero =>
    simp only [decodeStreams, Option.some.injEq] at h
    subst h
    exact ⟨[], by simp, by simp, fun _ hq => .inr hq⟩
  | succ n ih =>
    simp only [decodeStreams] at h
    split at h
    · rename_i u hu
      exact (decodeStream_delivers s u hu).1.trans (ih u h)
    · simp at h

/-- The decode of a burst ends wherever the hunt advances (R139). -/
theorem decodeStreams_isSome (n : Nat) (s : State) (h : 1 ≤ s.cfg.huntStepUs.toNat) :
    ∃ t, decodeStreams n s = some t := by
  induction n generalizing s with
  | zero => exact ⟨s, rfl⟩
  | succ n ih =>
    obtain ⟨p, hp⟩ := sdecPass_isSome s.env s.pass h
    have hd : decodeStream s = some (finishStream { s with pass := p }) := by simp only [decodeStream, hp]
    simp only [decodeStreams, hd]
    exact ih _ h

/-- The buffers after a closing POLL: the selected one empty, the other as it was. -/
def State.swapped (s : State) : State :=
  if s.cfg.inputSel then { s with bbuf := [], bank := !s.bank } else { s with ebuf := [], bank := !s.bank }

/-- Everything the close sequence can do. -/
theorem closeBurst_delivers (now : U64) (s t : State) (h : closeBurst now s = some t) : Delivers s.swapped t := by
  unfold closeBurst at h
  by_cases hi : s.cfg.inputSel = true
  · simp only [hi, if_true, Option.some.injEq] at h
    subst h
    rw [State.swapped, if_pos hi]
    have hc : closeBuffer { s with pass := { s.pass with closeTs := now } } =
        closeBytes { s with pass := { s.pass with closeTs := now } } := if_pos hi
    rw [hc]
    obtain ⟨⟨new, h1, h2, h3⟩, -⟩ := finishStream_delivers (closeBytes { s with pass := { s.pass with closeTs := now } })
    exact ⟨new, h1, h2, h3⟩
  · rw [if_neg hi] at h
    rw [State.swapped, if_neg hi]
    have hc : closeBuffer { s with pass := { s.pass with closeTs := now } } =
        closeEdges { s with pass := { s.pass with closeTs := now } } := if_neg hi
    rw [hc] at h
    obtain ⟨new, h1, h2, h3⟩ := decodeStreams_delivers _
      (withPass (closeEdges { s with pass := { s.pass with closeTs := now } }) splitPass) _ h
    exact ⟨new, h1, h2, h3⟩

/-- A closing POLL completes wherever the hunt advances. -/
theorem closeBurst_isSome (now : U64) (s : State) (h : 1 ≤ s.cfg.huntStepUs.toNat) : ∃ t, closeBurst now s = some t := by
  unfold closeBurst
  by_cases hi : s.cfg.inputSel = true
  · exact ⟨_, if_pos hi⟩
  · simp only [hi]
    apply decodeStreams_isSome
    simp only [withPass_cfg, closeBuffer]
    split <;> exact h

end Sys2Proof.Machine
end

