-- ==== Sys2Proof/Laws/Invariant.lean ====
section
/-! SUPPORT. The parts of the state the invariant does not read, and the packets that keep it (Safety.lean `State.Inv`). -/

namespace Sys2Proof.Machine

/-- The invariant reads nothing of the pass but its packets. -/
theorem State.Inv.with_pass {s : State} (h : s.Inv) (p : Pass) (hp : ∀ q ∈ p.packets, q.Legal) :
    ({ s with pass := p } : State).Inv :=
  ⟨h.ctrl_reserved, h.hdr_count, h.hdr_lengths, h.run_valid, h.stopped_empty, h.edge_path, h.byte_path, h.ebuf_sorted,
    h.bbuf_sorted, h.ebuf_last, h.bbuf_last, h.outq_legal, hp⟩

/-- It reads neither the error bits nor the result, the trace or the tick. -/
theorem State.Inv.with_flags {s : State} (h : s.Inv) (a b : Bool) (r : Result) (i : List Input) (n : Nat) :
    ({ s with cfgErr := a, cmdErr := b, result := r, input := i, tick := n } : State).Inv :=
  ⟨h.ctrl_reserved, h.hdr_count, h.hdr_lengths, h.run_valid, h.stopped_empty, h.edge_path, h.byte_path, h.ebuf_sorted,
    h.bbuf_sorted, h.ebuf_last, h.bbuf_last, h.outq_legal, h.packets_legal⟩

/-- A packet made with the state's header table is legal (R72). -/
theorem State.Inv.made_legal {s : State} (h : s.Inv) (q : Packet) (hq : q.Made s.hdr.length s.cfg.chkEn) : q.Legal :=
  ⟨hq.nonempty, fun k hk => Nat.lt_of_lt_of_le (hq.slot k hk) h.hdr_count, hq.verdict⟩

end Sys2Proof.Machine
end

