-- ==== Sys2Proof/Laws/Line.lean ====
section
/-! SUPPORT. Frames back to back as one list of levels, the sample instants as natural numbers, and the two ways a trip
after the first can go (30_encoding.md R67, R85; 42_frame_sync.md R130; 43_bit_sampler.md R152). -/

namespace Sys2Proof.Machine

/-- Bit `i` of frame `f` in a concatenation of frames of one length. -/
theorem getD_flatMap_frame (len : Nat) (g : Byte → List Level) :
    ∀ bytes : List Byte, (∀ v ∈ bytes, (g v).length = len) → ∀ (f i : Nat), i < len → ∀ hf : f < bytes.length,
      (bytes.flatMap g).getD (f * len + i) true = (g bytes[f]).getD i true := by
  intro bytes
  induction bytes with
  | nil =>
    intro _ f i _ hf
    simp at hf
  | cons b l ih =>
    intro h f i hi hf
    have hb := h b (by simp)
    cases f with
    | zero =>
      simp only [List.flatMap_cons, List.getD_eq_getElem?_getD]
      rw [List.getElem?_append_left (by omega)]
      simp
    | succ f =>
      have := ih (fun v hv => h v (by simp [hv])) f i hi (by simpa using hf)
      simp only [List.flatMap_cons, List.getD_eq_getElem?_getD] at this ⊢
      rw [List.getElem?_append_right (by rw [hb, Nat.add_mul]; omega), hb,
        show (f + 1) * len + i - len = f * len + i by rw [Nat.add_mul]; omega, this]
      simp

/-- Behind the last frame there is no bit. -/
theorem getD_flatMap_end (len : Nat) (g : Byte → List Level) (bytes : List Byte) (h : ∀ v ∈ bytes, (g v).length = len)
    (k : Nat) (hk : bytes.length * len ≤ k) : (bytes.flatMap g).getD k true = true := by
  have hl : (bytes.flatMap g).length = bytes.length * len := by
    rw [List.length_flatMap]
    clear hk
    induction bytes with
    | nil => simp
    | cons b l ih =>
      simp only [List.map_cons, List.sum_cons, h b (by simp), ih (fun v hv => h v (by simp [hv])), List.length_cons,
        Nat.add_mul]
      omega
  rw [List.getD_eq_getElem?_getD, List.getElem?_eq_none (by omega)]
  rfl

/-- The centre vote and one of its neighbours decide. -/
theorem majority_of_two (x : Level) (v : Vote) (h0 : v.v1 = x) (h : v.v0 = x ∨ v.v2 = x) : majority v = x := by
  obtain ⟨a, b, c⟩ := v
  simp only at h0 h
  subst h0
  cases a <;> cases b <;> cases c <;> simp_all [majority]

/-- The three instants of a bit where R34 holds (R67). -/
theorem sampleTime_nat (e : Env) (start i : Nat) (hb : 1 ≤ e.baud.toNat)
    (hs : e.voteSpacingPct.toNat ≤ e.sampleOffsetPct.toNat) :
    let bt := fun p : Nat => 1000000 * p / (100 * e.baud.toNat)
    sampleTime e start i (-1) = start + bt (100 * i + e.sampleOffsetPct.toNat - e.voteSpacingPct.toNat) ∧
      sampleTime e start i 0 = start + bt (100 * i + e.sampleOffsetPct.toNat) ∧
      sampleTime e start i 1 = start + bt (100 * i + e.sampleOffsetPct.toNat + e.voteSpacingPct.toNat) := by
  intro bt
  simp only [sampleTime, bt, ← bitTime_nat e _ hb]
  refine ⟨?_, ?_, ?_⟩ <;> congr 2 <;> push_cast <;> omega

/-- A stream has one timeline (R120). -/
theorem IsTimeline.unique {rle : List RunLength} {tl : List TlEntry} {total : Nat} (h : IsTimeline rle tl total) :
    tl = timelineFrom 0 rle ∧ total = streamTotal rle := by
  have k := isTimeline_timelineFrom rle
  refine ⟨?_, h.total⟩
  apply List.ext_getElem?
  intro j
  by_cases hj : j < rle.length
  · rw [h.entry j hj, k.entry j hj]
  · rw [List.getElem?_eq_none (by rw [h.length]; omega), List.getElem?_eq_none (by rw [k.length]; omega)]

/-- After the first trip, a trip that meets a fall decodes the frame anchored one step on (R130, R133). -/
theorem tripPass_found (e : Env) (p : Pass) (hf : p.first = false) (h : fallAt e p p.tCur = true) :
    tripPass e p = decodeFrame e (anchorAt { p with tlCursor := p.cursorAt ((p.tCur + e.huntStepUs.toNat : Nat) : Int) }
      (p.tCur + e.huntStepUs.toNat)) := by
  have hh : huntPass e p = anchorAt { p with tlCursor := p.cursorAt ((p.tCur + e.huntStepUs.toNat : Nat) : Int) }
      (p.tCur + e.huntStepUs.toNat) := by simp only [huntPass, h, if_true]
  unfold tripPass
  rw [findStart_later e p hf, hh]
  rfl

/-- After the first trip, a trip that meets no fall only moves the cursor one step on (R130, R133). -/
theorem tripPass_moved (e : Env) (p : Pass) (hf : p.first = false) (h : fallAt e p p.tCur = false) :
    tripPass e p = { p with
      tlCursor := p.cursorAt ((p.tCur + e.huntStepUs.toNat : Nat) : Int)
      answer := false
      tCur := p.tCur + e.huntStepUs.toNat } := by
  have hh : huntPass e p = { p with
      tlCursor := p.cursorAt ((p.tCur + e.huntStepUs.toNat : Nat) : Int)
      answer := false
      tCur := p.tCur + e.huntStepUs.toNat } := by
    simp only [huntPass, h]
    rfl
  unfold tripPass
  rw [findStart_later e p hf, hh]
  rfl

end Sys2Proof.Machine
end

