-- ==== Sys2Proof/Laws/PerInstr.lean ====
section
/-! SUPPORT. Statements made once per instruction, one lemma for each constructor. -/

namespace Sys2Proof.Laws.TableRow

/-- The number of an instruction's row in spec/opcode_table.json, from 0: 0 to 10 the port operations (R80), 11 to
25 the internal stages (R81), 26 to 32 the wire frames (R64). -/
def row : Instr → Nat
  | .reset => 0
  | .cfgw _ _ => 1
  | .cfgr _ => 2
  | .hdradd _ _ => 3
  | .hdrclr => 4
  | .start => 5
  | .stop => 6
  | .edge _ _ => 7
  | .rxbyte _ _ => 8
  | .poll _ => 9
  | .outpop => 10
  | .bclose => 11
  | .split => 12
  | .tlbuild => 13
  | .levelat => 14
  | .sdec => 15
  | .hstop => 16
  | .anchor0 => 17
  | .hunt => 18
  | .sample => 19
  | .maj3 => 20
  | .resync => 21
  | .fdec => 22
  | .pseg => 23
  | .csum => 24
  | .emit => 25
  | .frame8N1 _ => 26
  | .frame8E1 _ => 27
  | .frame8O1 _ => 28
  | .frame8N2 _ => 29
  | .frame7E1 _ => 30
  | .frame7O2 _ => 31
  | .frame5N1 _ => 32

/-- The rows of the wire frames, in the table's order (R64). -/
def shapes : List Shape := [.s8N1, .s8E1, .s8O1, .s8N2, .s7E1, .s7O2, .s5N1]

/-- The encoder writes the code of the instruction's own row: operation codes 0x01 to 0x0B for rows 0 to 10 (R80), stage
ids 0x10 to 0x1E for rows 11 to 25 (R81), the shapes in order for rows 26 to 32 (R64). -/
def Statement (i : Instr) : Prop :=
  match encode i with
  | .command w => (opField w).toNat = row i + 1
  | .stage id => id.toNat = row i + 5
  | .wire shape _ => shapes[row i - 26]? = some shape

theorem reset : Statement .reset := by simp [Statement, encode, row]
theorem cfgw (r : Byte) (v : U64) : Statement (.cfgw r v) := by simp [Statement, encode, row]
theorem cfgr (r : Byte) : Statement (.cfgr r) := by simp [Statement, encode, row]
theorem hdradd (len : Byte) (packed : U64) : Statement (.hdradd len packed) := by
  simp [Statement, encode, row]
theorem hdrclr : Statement .hdrclr := by simp [Statement, encode, row]
theorem start : Statement .start := by simp [Statement, encode, row]
theorem stop : Statement .stop := by simp [Statement, encode, row]
theorem edge (level : Level) (ts : U64) : Statement (.edge level ts) := by
  simp [Statement, encode, row]
theorem rxbyte (value : Byte) (ts : U64) : Statement (.rxbyte value ts) := by
  simp [Statement, encode, row]
theorem poll (now : U64) : Statement (.poll now) := by simp [Statement, encode, row]
theorem outpop : Statement .outpop := by simp [Statement, encode, row]
theorem bclose : Statement .bclose := rfl
theorem split : Statement .split := rfl
theorem tlbuild : Statement .tlbuild := rfl
theorem levelat : Statement .levelat := rfl
theorem sdec : Statement .sdec := rfl
theorem hstop : Statement .hstop := rfl
theorem anchor0 : Statement .anchor0 := rfl
theorem hunt : Statement .hunt := rfl
theorem sample : Statement .sample := rfl
theorem maj3 : Statement .maj3 := rfl
theorem resync : Statement .resync := rfl
theorem fdec : Statement .fdec := rfl
theorem pseg : Statement .pseg := rfl
theorem csum : Statement .csum := rfl
theorem emit : Statement .emit := rfl
theorem frame8N1 (bits : List Level) : Statement (.frame8N1 bits) := rfl
theorem frame8E1 (bits : List Level) : Statement (.frame8E1 bits) := rfl
theorem frame8O1 (bits : List Level) : Statement (.frame8O1 bits) := rfl
theorem frame8N2 (bits : List Level) : Statement (.frame8N2 bits) := rfl
theorem frame7E1 (bits : List Level) : Statement (.frame7E1 bits) := rfl
theorem frame7O2 (bits : List Level) : Statement (.frame7O2 bits) := rfl
theorem frame5N1 (bits : List Level) : Statement (.frame5N1 bits) := rfl

end Sys2Proof.Laws.TableRow
end

