-- ==== Sys2Proof/Laws/Runs.lean ====
section
/-! SUPPORT. Runs of operations: one after another, joined, and the runs of stages that make a frame
(42_frame_sync.md R130; 43_bit_sampler.md R150). -/

namespace Sys2Proof.Machine

/-- An operation that answers a next state, and the rest from there. -/
theorem runInstrs_cons (i : Instr) (is : List Instr) (s t : State) (h : exec i s = .next t) :
    runInstrs (i :: is) s = runInstrs is t := by
  simp only [runInstrs, h]

/-- A run that completes, and another from where it ends. -/
theorem runInstrs_append (is js : List Instr) (s t : State) (h : runInstrs is s = .next t) :
    runInstrs (is ++ js) s = runInstrs js t := by
  induction is generalizing s with
  | nil =>
    simp only [runInstrs, Host.Outcome.next.injEq] at h
    subst h
    rfl
  | cons i is ih =>
    simp only [runInstrs, List.cons_append] at h ⊢
    cases hi : exec i s with
    | next u => rw [hi] at h; exact ih u h
    | fault r => rw [hi] at h; simp at h
    | refused r => rw [hi] at h; simp at h

/-- `n` SAMPLEs are `n` turns of SAMPLEFRAME's loop. -/
theorem runInstrs_samples (n : Nat) (s : State) :
    runInstrs (List.replicate n .sample) s = .next { s with pass := sampleBits s.env n s.pass } := by
  induction n generalizing s with
  | zero => rfl
  | succ n ih =>
    rw [List.replicate_succ, runInstrs_cons _ _ _ _ rfl, ih]
    rfl

/-- `L` SAMPLEs, FDEC and RESYNC are the frame part of a trip. -/
theorem runInstrs_frame (s : State) :
    runInstrs (List.replicate s.env.frameLen .sample ++ [.fdec, .resync]) s =
      .next { s with pass := decodeFrame s.env s.pass } := by
  rw [runInstrs_append _ _ _ _ (runInstrs_samples _ _)]
  rfl

end Sys2Proof.Machine
end

