-- ==== Sys2Proof/Tests/Slice0.lean ====
section
/-! SUPPORT. The model's own tests. Every expected value is from spec/: the words of 30_encoding.md and of the programs
P1 to P4, the examples of the rules, the vectors V1 to V18 of 95_test_vectors.md. Then one witness for the hypotheses of
each statement that has some. -/

namespace Sys2Proof.Tests

open Sys2Proof.Machine

/-! ### Helpers -/

/-- The next state of an outcome. -/
def nextOf : Host.Outcome State Fault Refusal → Option State
  | .next s => some s
  | .fault _ => none
  | .refused _ => none

/-- The refusal of an outcome. -/
def refusalOf : Host.Outcome State Fault Refusal → Option Refusal
  | .refused r => some r
  | .next _ => none
  | .fault _ => none

/-- The fault of an outcome. -/
def faultOf : Host.Outcome State Fault Refusal → Option Fault
  | .fault r => some r
  | .next _ => none
  | .refused _ => none

/-- One operation, and a look at the next state. -/
def after {α : Type} (i : Instr) (s : State) (look : State → α) : Option α := (nextOf (exec i s)).map look

/-- The configuration of "Setup A": 10,000 baud, 8N1, the rest as after reset. -/
def cfgA : Cfg := { Cfg.reset with baud := 10000, dataBits := 8, stopBits := 1 }

/-- "Setup A" (95_test_vectors.md, Conventions). -/
def setupA : State := { State.reset with cfg := cfgA, run := true }

/-- Setup A on the byte input, with checksums (program P3). -/
def setupB : State := { setupA with cfg := { cfgA with ctrl := 3 } }

/-- A decoded byte with both flags true. -/
def good (v : Byte) : DecodedByte := ⟨v, true, true⟩

/-- The bits of a pattern written as 0 and 1, first in time first. -/
def bits (l : List Nat) : List Level := l.map fun x => x == 1

/-- A run of the line. -/
def low (d : U64) : RunLength := ⟨false, d⟩

/-- A run of the line. -/
def high (d : U64) : RunLength := ⟨true, d⟩

/-- A state whose timeline is that of the stream, with the cursor at `t`. -/
def onStream (c : Cfg) (rle : List RunLength) (t : Nat) : State :=
  { setupA with cfg := c, pass := { Pass.reset with
      streams := [rle], tl := timelineFrom 0 rle, tlTotal := streamTotal rle, tCur := t, phase := .hunting } }

/-- The stream of the examples of 40_capture.md R105 and 41_timeline.md R121. -/
def shortStream : List RunLength := [low 100, high 100, low 100, high 10001]

/-- The single stream of vector V11 (b): 0x4D and 0xC0, closed 201 microseconds after the last edge. -/
def v11 : List RunLength :=
  [low 100, high 100, low 100, high 200, low 200, high 100, low 100, high 100, low 700, high 201]

/-- The events of vector V11 (b). -/
def v11Events : List EdgeEvent :=
  [⟨false, 1000⟩, ⟨true, 1100⟩, ⟨false, 1200⟩, ⟨true, 1300⟩, ⟨false, 1500⟩, ⟨true, 1700⟩, ⟨false, 1800⟩, ⟨true, 1900⟩,
    ⟨false, 2000⟩, ⟨true, 2700⟩]

/-- The configuration of vector V11 (b). -/
def cfgV11 : Cfg := { cfgA with idleGapUs := 200, subIdleBits := 0 }

/-- Vector V11 (b) before its POLLs. -/
def setupV11 : State := { setupA with cfg := cfgV11, ebuf := v11Events, lastTs := 2700 }

/-! ### Well-formedness: a frame of a wrong length is no instruction -/

theorem test_wf_frame8N1 : (Instr.frame8N1 (List.replicate 9 true)).wf = false := by decide
theorem test_wf_frame8E1 : (Instr.frame8E1 (List.replicate 10 true)).wf = false := by decide
theorem test_wf_frame8O1 : (Instr.frame8O1 (List.replicate 12 true)).wf = false := by decide
theorem test_wf_frame8N2 : (Instr.frame8N2 []).wf = false := by decide
theorem test_wf_frame7E1 : (Instr.frame7E1 (List.replicate 11 true)).wf = false := by decide
theorem test_wf_frame7O2 : (Instr.frame7O2 (List.replicate 10 true)).wf = false := by decide
theorem test_wf_frame5N1 : (Instr.frame5N1 (List.replicate 8 true)).wf = false := by decide

/-! ### Decoding: the words of R80 and of the programs, the ids of R81, the patterns of R64 -/

theorem test_decode_reset : decode (.command 0x01000000000000000000) = some .reset := by decide
theorem test_decode_cfgw : decode (.command 0x02000000000000002580) = some (.cfgw 0x00 9600) := by decide
theorem test_decode_cfgr : decode (.command 0x030B0000000000000000) = some (.cfgr 0x0B) := by decide
theorem test_decode_hdradd : decode (.command 0x0402000000000000C04D) = some (.hdradd 2 0xC04D) := by decide
theorem test_decode_hdrclr : decode (.command 0x05000000000000000000) = some .hdrclr := by decide
theorem test_decode_start : decode (.command 0x06000000000000000000) = some .start := by decide
theorem test_decode_stop : decode (.command 0x07000000000000000000) = some .stop := by decide
theorem test_decode_edge : decode (.command 0x080000000000000003E8) = some (.edge false 1000) ∧
    decode (.command 0x0801000000000000044C) = some (.edge true 1100) := by decide
theorem test_decode_rxbyte : decode (.command 0x09600000000000000FA0) = some (.rxbyte 0x60 4000) := by decide
theorem test_decode_poll : decode (.command 0x0A0000000000000045ED) = some (.poll 17901) := by decide
theorem test_decode_outpop : decode (.command 0x0B000000000000000000) = some .outpop := by decide

/-- R82 (a): OP 0x00, 0x0C, an internal id, 0xFF; and words that fail their mask test. -/
theorem test_decode_undefined : decode (.command 0) = none ∧ decode (.command 0x0C000000000000000000) = none ∧
    decode (.command 0x17000000000000000000) = none ∧ decode (.command 0xFF000000000000000000) = none ∧
    decode (.command 0x080200000000000003E8) = none ∧ decode (.command 0x01000000000000000001) = none ∧
    decode (.command 0x03000000000000000001) = none ∧ decode (.command 0x0A010000000000000000) = none := by decide

theorem test_decode_stages :
    ((List.range 15).map fun k => decode (.stage (BitVec.ofNat 8 (0x10 + k)))) =
      [some .bclose, some .split, some .tlbuild, some .levelat, some .sdec, some .hstop, some .anchor0, some .hunt,
        some .sample, some .maj3, some .resync, some .fdec, some .pseg, some .csum, some .emit] := by decide

theorem test_decode_no_stage : decode (.stage 0x0F) = none ∧ decode (.stage 0x1F) = none := by decide

theorem test_decode_8N1 : decode (.wire .s8N1 (bits [0, 1, 0, 1, 1, 0, 0, 1, 0, 1])) =
    some (.frame8N1 [false, true, false, true, true, false, false, true, false, true]) := by decide
theorem test_decode_8E1 : decode (.wire .s8E1 (bits [0, 1, 0, 1, 1, 0, 0, 1, 0, 0, 1])) =
    some (.frame8E1 [false, true, false, true, true, false, false, true, false, false, true]) := by decide
theorem test_decode_8O1 : decode (.wire .s8O1 (bits [0, 1, 0, 1, 1, 0, 0, 1, 0, 1, 1])) =
    some (.frame8O1 [false, true, false, true, true, false, false, true, false, true, true]) := by decide
theorem test_decode_8N2 : decode (.wire .s8N2 (bits [0, 1, 0, 1, 1, 0, 0, 1, 0, 1, 1])) =
    some (.frame8N2 [false, true, false, true, true, false, false, true, false, true, true]) := by decide
theorem test_decode_7E1 : decode (.wire .s7E1 (bits [0, 1, 0, 1, 1, 0, 0, 1, 0, 1])) =
    some (.frame7E1 [false, true, false, true, true, false, false, true, false, true]) := by decide
theorem test_decode_7O2 : decode (.wire .s7O2 (bits [0, 1, 0, 0, 0, 0, 0, 1, 1, 1, 1])) =
    some (.frame7O2 [false, true, false, false, false, false, false, true, true, true, true]) := by decide
theorem test_decode_5N1 : decode (.wire .s5N1 (bits [0, 1, 0, 1, 0, 1, 1])) =
    some (.frame5N1 [false, true, false, true, false, true, true]) := by decide

/-- Numbered as the opcode table numbers them: a command word, a stage id, frames of 7, 10 and 11 bits (`bit[0]`, first
in time, is bit 0: R62; the 11 bits of V15's 8N2 and V4's even parity). -/
theorem test_decodeTableWord : decodeTableWord 80 0x0A0000000000000045ED = some (.poll 17901) ∧
    decodeTableWord 8 0x17 = some .hunt ∧
    decodeTableWord 10 0b1010011010 = some (.frame8N1 (bits [0, 1, 0, 1, 1, 0, 0, 1, 0, 1])) ∧
    decodeTableWord 16 0b1010011010 = some (.frame8N1 (bits [0, 1, 0, 1, 1, 0, 0, 1, 0, 1])) ∧
    decodeTableWord 16 0b11010011010 = some (.frame8N2 (bits [0, 1, 0, 1, 1, 0, 0, 1, 0, 1, 1])) ∧
    decodeTableWord 16 0b10010011010 = some (.frame8E1 (bits [0, 1, 0, 1, 1, 0, 0, 1, 0, 0, 1])) ∧
    decodeTableWord 8 0b1101010 = some (.frame5N1 (bits [0, 1, 0, 1, 0, 1, 1])) := by decide

/-! ### The step -/

/-- The first word after reset is fetched and run (P4: START is refused, `BAUD = 0`). -/
theorem test_step_start : (nextOf (step (State.reset.withFetchWord 80 0x06000000000000000000))).map
    (fun t => (t.run, t.cfgErr, t.input)) = some (false, true, []) := by decide

/-- P4: an undefined word sets `CMD_ERR`. -/
theorem test_step_undefined : (nextOf (step (State.reset.withFetchWord 80 0x17000000000000000000))).map
    (fun t => (t.cmdErr, t.ebuf, t.cfg)) = some (true, [], Cfg.reset) := by decide

/-- A stage and a frame run as the first operation after reset. -/
theorem test_step_stage_and_frame :
    (nextOf (step (State.reset.withFetchWord 8 0x19))).map (fun t => t.pass.bit) = some false ∧
    (nextOf (step (State.reset.withFetchWord 10 0b1010011010))).map (fun t => t.pass.dbytes) = some [good 0x4D] := by
  decide

/-! ### Host operations (program P4, R190 to R199) -/

theorem test_reset : after .reset { setupA with cmdErr := true, ebuf := v11Events, lastTs := 9 }
    (fun t => (t.cfg.idleGapUs, t.status, t.ebuf, t.lastTs)) = some (10000, 0, [], 0) := by decide

theorem test_cfgw_stored : after (.cfgw 0x01 9) State.reset (fun t => (t.cfg.dataBits, t.cmdErr)) = some (9, false) ∧
    after (.cfgw 0x02 3) State.reset (fun t => (t.cfg.parity, t.cmdErr)) = some (3, false) := by decide
theorem test_cfgw_ignored :
    after (.cfgw 0x01 256) State.reset (fun t => (t.cfg, t.cmdErr)) = some (Cfg.reset, true) ∧
    after (.cfgw 0x0A 4) State.reset (fun t => (t.cfg, t.cmdErr)) = some (Cfg.reset, true) ∧
    after (.cfgw 0x0B 0) State.reset (fun t => (t.cfg, t.cmdErr)) = some (Cfg.reset, true) ∧
    after (.cfgw 0x00 9600) setupA (fun t => (t.cfg, t.cmdErr)) = some (cfgA, true) := by decide

theorem test_cfgr_baud : after (.cfgr 0x00) setupA (fun t => t.result) = some (.value 0x2710) ∧
    after (.cfgr 0x20) setupA (fun t => (t.result, t.cmdErr)) = some (.value 0, true) := by decide
theorem test_cfgr_status : after (.cfgr 0x0B) { setupV11 with cmdErr := true } (fun t => t.result) =
    some (.value 0x13) := by decide

theorem test_hdradd : after (.hdradd 2 0xC04D) State.reset (fun t => (t.hdr, t.cmdErr)) =
    some ([[0x4D, 0xC0]], false) := by decide
theorem test_hdradd_ignored : after (.hdradd 1 0x4D) setupA (fun t => (t.hdr, t.cmdErr)) = some ([], true) ∧
    after (.hdradd 1 0x100) State.reset (fun t => (t.hdr, t.cmdErr)) = some ([], true) := by decide

theorem test_hdrclr : after .hdrclr { State.reset with hdr := [[0x4D]] } (fun t => (t.hdr, t.cmdErr)) =
    some ([], false) := by decide

theorem test_start_refused : after .start { State.reset with cfg := { cfgA with voteSpacingPct := 70 } }
    (fun t => (t.run, t.status)) = some (false, 0x8) := by decide
theorem test_start_accepted : after .start { State.reset with cfg := cfgA, cfgErr := true }
    (fun t => (t.run, t.status)) = some (true, 0x1) := by decide

theorem test_stop : after .stop { setupV11 with cmdErr := true } (fun t => (t.ebuf, t.status)) =
    some ([], 0x10) := by decide

theorem test_outpop : after .outpop { setupA with outq := [⟨none, [good 1], none⟩, ⟨none, [good 2], none⟩] }
    (fun t => (t.result, t.outq)) = some (.packet (some ⟨none, [good 1], none⟩), [⟨none, [good 2], none⟩]) ∧
    after .outpop setupA (fun t => t.result) = some (.packet none) := by decide

/-! ### Capture (40_capture.md) -/

theorem test_edge : after (.edge false 1000) setupA (fun t => (t.ebuf, t.lastTs)) = some ([⟨false, 1000⟩], 1000) ∧
    after (.edge false 500) setupB (fun t => t.ebuf) = some [] := by decide
/-- V14: equal timestamps are accepted, a decreasing one is refused. -/
theorem test_edge_contract :
    after (.edge true 1100) { setupA with ebuf := [⟨false, 1100⟩], lastTs := 1100 } (fun t => t.ebuf) =
      some [⟨false, 1100⟩, ⟨true, 1100⟩] ∧
    refusalOf (exec (.edge true 1050) { setupA with ebuf := [⟨false, 1100⟩], lastTs := 1100 }) =
      some .contractViolation := by decide

theorem test_rxbyte : after (.rxbyte 0x4D 5000) setupB (fun t => (t.bbuf, t.lastTs)) = some ([⟨0x4D, 5000⟩], 5000) ∧
    after (.rxbyte 0x4D 5000) setupA (fun t => t.bbuf) = some [] := by decide

/-- V11 (b): 2900 does not close, 2901 does, and the second frame is lost to HSTOP. -/
theorem test_poll_edges : after (.poll 2900) setupV11 (fun t => (t.ebuf, t.outq)) = some (v11Events, []) ∧
    after (.poll 2901) setupV11 (fun t => (t.ebuf, t.outq, t.status)) =
      some ([], [⟨none, [good 0x4D], none⟩], 0x5) := by decide
/-- P3, burst 1. -/
theorem test_poll_bytes : after (.poll 14001)
    { setupB with bbuf := [⟨0x10, 1000⟩, ⟨0x20, 2000⟩, ⟨0x30, 3000⟩, ⟨0x60, 4000⟩], lastTs := 4000 }
    (fun t => (t.bbuf, t.outq)) =
      some ([], [⟨none, [good 0x10, good 0x20, good 0x30, good 0x60], some ⟨true, 0⟩⟩]) := by decide

/-- R105's example. -/
theorem test_bclose : after .bclose { setupA with
      ebuf := [⟨false, 1000⟩, ⟨true, 1100⟩, ⟨false, 1200⟩, ⟨true, 1300⟩]
      pass := { Pass.reset with closeTs := 11301 } }
    (fun t => (t.ebuf, t.pass.rle)) = some ([], shortStream) := by decide

/-- V6: a run of 3,200 microseconds splits, one of 3,199 does not. -/
theorem test_split : after .split { setupA with pass := { Pass.reset with rle := [low 100, high 3200, low 700] } }
      (fun t => t.pass.streams) = some [[low 100, high 3200], [low 700]] ∧
    after .split { setupA with pass := { Pass.reset with rle := [low 100, high 3199, low 700] } }
      (fun t => t.pass.streams) = some [[low 100, high 3199, low 700]] := by decide

/-! ### The timeline (41_timeline.md) -/

/-- R121's example. -/
theorem test_tlbuild : after .tlbuild { setupA with pass := { Pass.reset with streams := [shortStream] } }
    (fun t => (t.pass.tl, t.pass.tlTotal)) =
      some ([⟨0, false⟩, ⟨100, true⟩, ⟨200, false⟩, ⟨300, true⟩], 10301) := by decide

/-- LEVELAT at `t`. -/
def lookAt (rle : List RunLength) (t : Int) : Option Level :=
  let s := onStream cfgA rle 0
  after .levelat { s with pass := { s.pass with queryT := t } } fun u => u.pass.level

/-- R122's example. -/
theorem test_levelat : [-1, 0, 99, 100, 299, 300, 10300, 10301, 999999].map (lookAt shortStream) =
    [false, false, false, true, false, true, true, true, true].map some := by decide
/-- V2, with runs of zero length. -/
theorem test_levelat_zero_runs :
    [100, 249, 250].map (lookAt [low 100, high 0, low 0, high 100, low 50, low 50, high 200]) =
      [some true, some false, some false] := by decide

/-! ### The frame synchroniser (42_frame_sync.md) -/

/-- V11 (b). -/
theorem test_sdec : after .sdec { setupA with cfg := cfgV11, pass := { Pass.reset with streams := [v11] } }
    (fun t => (t.pass.dbytes, t.pass.tCur, t.pass.phase)) = some ([good 0x4D], 910, .done) := by decide
/-- R29: with a hunt step of 0 the pass would not end. -/
theorem test_sdec_no_step :
    faultOf (exec .sdec { setupA with
      cfg := { cfgA with baud := 1000000, huntStepUs := 0 }
      pass := { Pass.reset with streams := [[high 20]] } }) = some .passNeverEnds := by decide

/-- V1: false at 10701, true at 10702, with `TL_TOTAL = 11701`. -/
theorem test_hstop : after .hstop (onStream cfgA [low 1, high 11700] 10701) (fun t => t.pass.answer) = some false ∧
    after .hstop (onStream cfgA [low 1, high 11700] 10702) (fun t => (t.pass.answer, t.pass.phase)) =
      some (true, .done) := by decide

theorem test_anchor0 : after .anchor0 (onStream cfgA shortStream 7)
      (fun t => (t.pass.answer, t.pass.startEdge, t.pass.phase)) = some (true, 0, .sampling) ∧
    after .anchor0 (onStream cfgA [high 500, low 100] 0) (fun t => (t.pass.answer, t.pass.phase)) =
      some (false, .hunting) := by decide

/-- R133's example, and V10 (d): with a step of 2 the anchor of a fall at 501 is 502. -/
theorem test_hunt : after .hunt (onStream cfgA shortStream 199) (fun t => (t.pass.answer, t.pass.startEdge)) =
      some (true, 200) ∧
    after .hunt (onStream { cfgA with huntStepUs := 2 } [high 501, low 100, high 18100] 500)
      (fun t => (t.pass.answer, t.pass.startEdge)) = some (true, 502) := by decide
theorem test_hunt_moves_on : after .hunt (onStream cfgA shortStream 198) (fun t => (t.pass.answer, t.pass.tCur)) =
    some (false, 199) := by decide

/-- R137's examples: 1910 at 10,000 baud, 947 at 9,600. -/
theorem test_resync : after .resync { setupA with pass := { Pass.reset with startEdge := 1000, phase := .sampling } }
      (fun t => (t.pass.tCur, t.pass.phase)) = some (1910, .hunting) ∧
    after .resync { setupA with cfg := { cfgA with baud := 9600 } } (fun t => t.pass.tCur) = some 947 := by decide

/-! ### The bit sampler (43_bit_sampler.md) -/

/-- V5: bit 3 of 0x4D under a low glitch. -/
def glitch (a b c : U64) : State :=
  let s := onStream cfgA [low 100, high 100, low 100, high a, low b, high c, low 200, high 100, low 100, high 10001] 0
  { s with pass := { s.pass with bitIdx := 3, frameSr := bits [0, 1, 0], phase := .sampling } }

/-- V5 (b): the centre sample alone is hit. -/
theorem test_sample_outvoted : after .sample (glitch 65 5 130) (fun t => (t.pass.vote, t.pass.frameSr, t.pass.bitIdx)) =
    some (⟨true, false, true⟩, bits [0, 1, 0, 1], 4) := by decide
/-- V5 (d): two samples are hit. -/
theorem test_sample_flipped : after .sample (glitch 65 6 129) (fun t => (t.pass.vote, t.pass.bit)) =
    some (⟨true, false, false⟩, false) := by decide

/-- R152's truth table. -/
theorem test_maj3 :
    [(⟨false, false, true⟩ : Vote), ⟨false, true, false⟩, ⟨true, false, false⟩, ⟨false, true, true⟩, ⟨true, false, true⟩,
      ⟨true, true, false⟩].map
      (fun v => after .maj3 { setupA with pass := { Pass.reset with vote := v } } fun t => t.pass.bit) =
      [some false, some false, some false, some true, some true, some true] := by decide

/-! ### The frame decoder (44_frame_decoder.md R165) -/

/-- FDEC of the sampled bits under 8 data bits, a parity code and one stop bit. -/
def judge (parity : BitVec 2) (l : List Nat) : Option (List DecodedByte) :=
  after .fdec { setupA with cfg := { cfgA with parity := parity }, pass := { Pass.reset with frameSr := bits l } }
    fun t => t.pass.dbytes

theorem test_fdec_framing :
    judge 0 [0, 1, 0, 1, 1, 0, 0, 1, 0, 1] = some [⟨0x4D, true, true⟩] ∧
    judge 0 [0, 1, 0, 1, 1, 0, 0, 1, 0, 0] = some [⟨0x4D, true, false⟩] ∧
    judge 0 [1, 1, 0, 1, 1, 0, 0, 1, 0, 1] = some [⟨0x4D, true, false⟩] ∧
    judge 0 [0, 0, 0, 0, 0, 0, 0, 0, 0, 0] = some [⟨0x00, true, false⟩] := by decide
theorem test_fdec_parity :
    judge 1 [0, 1, 0, 1, 1, 0, 0, 1, 0, 0, 1] = some [⟨0x4D, true, true⟩] ∧
    judge 1 [0, 1, 0, 1, 1, 0, 0, 1, 0, 1, 1] = some [⟨0x4D, false, true⟩] ∧
    judge 2 [0, 1, 0, 1, 1, 0, 0, 1, 0, 1, 1] = some [⟨0x4D, true, true⟩] ∧
    judge 1 [0, 1, 0, 1, 1, 0, 0, 1, 0, 1, 0] = some [⟨0x4D, false, false⟩] := by decide

/-- The byte a frame instruction appends. -/
def received (i : Instr) : Option (List DecodedByte) := after i State.reset fun t => t.pass.dbytes

theorem test_frame8N1 : received (.frame8N1 (bits [0, 1, 0, 1, 1, 0, 0, 1, 0, 1])) = some [good 0x4D] := by decide
/-- V4 (a) and (c). -/
theorem test_frame8E1 : received (.frame8E1 (bits [0, 1, 1, 1, 0, 0, 0, 0, 0, 1, 1])) = some [good 0x07] ∧
    received (.frame8E1 (bits [0, 1, 0, 1, 1, 0, 0, 1, 0, 1, 1])) = some [⟨0x4D, false, true⟩] := by decide
/-- V4 (b). -/
theorem test_frame8O1 : received (.frame8O1 (bits [0, 1, 1, 1, 0, 0, 0, 0, 0, 0, 1])) = some [good 0x07] := by decide
/-- V15. -/
theorem test_frame8N2 : received (.frame8N2 (bits [0, 0, 0, 0, 0, 0, 0, 1, 1, 1, 1])) = some [good 0xC0] := by decide
theorem test_frame7E1 : received (.frame7E1 (bits [0, 1, 1, 1, 1, 1, 1, 1, 1, 1])) = some [good 0x7F] := by decide
theorem test_frame7O2 : received (.frame7O2 (bits [0, 1, 0, 0, 0, 0, 0, 1, 1, 1, 1])) = some [good 0x41] := by decide
theorem test_frame5N1 : received (.frame5N1 (bits [0, 0, 1, 0, 1, 0, 1])) = some [good 0x0A] := by decide

/-! ### Packets (45_packet.md) -/

/-- The packets PSEG makes of good bytes. -/
def cut (hdr : List (List Byte)) (l : List Byte) : Option (List (Option Nat × List Byte)) :=
  after .pseg { setupA with hdr := hdr, pass := { Pass.reset with dbytes := l.map good } }
    fun t => t.pass.packets.map fun p => (p.hdr, p.bytes.map (·.value))

/-- The source's header set. -/
def hdrs : List (List Byte) := [[0x4D, 0xC0], [0x4D, 0xE0]]

/-- V17: S6, leading bytes, a header cut off by the end. -/
theorem test_pseg : cut hdrs [0x4D, 0xC0, 1, 2, 0x4D, 0xE0, 3] =
      some [(some 0, [0x4D, 0xC0, 1, 2]), (some 1, [0x4D, 0xE0, 3])] ∧
    cut hdrs [0xAA, 0xBB, 0x4D, 0xC0, 1] = some [(none, [0xAA, 0xBB]), (some 0, [0x4D, 0xC0, 1])] ∧
    cut hdrs [1, 2, 0x4D] = some [(none, [1, 2, 0x4D])] ∧ cut hdrs [] = some [] := by decide
/-- V17: overlapping matches, the lowest slot, a match inside a header. -/
theorem test_pseg_overlaps : cut [[0x4D, 0x4D]] [0x4D, 0x4D, 0x4D] = some [(some 0, [0x4D]), (some 0, [0x4D, 0x4D])] ∧
    cut [[0x4D], [0x4D, 0xC0]] [0x4D, 0xC0, 0x4D] = some [(some 0, [0x4D, 0xC0]), (some 0, [0x4D])] ∧
    cut [[0x4D, 0xC0], [0xC0, 1]] [0x4D, 0xC0, 1, 2] = some [(some 0, [0x4D]), (some 1, [0xC0, 1, 2])] := by decide

/-- The verdict CSUM gives a packet of these bytes. -/
def judgeSum (l : List Byte) : Option (List (Option Verdict)) :=
  after .csum { setupB with pass := { Pass.reset with packets := [⟨none, l.map good, none⟩] } }
    fun t => t.pass.packets.map (·.chk)

/-- V18. -/
theorem test_csum : judgeSum [0x10, 0x20, 0x30, 0x60] = some [some ⟨true, 0⟩] ∧
    judgeSum [0x10, 0x20, 0x30, 0x61] = some [some ⟨false, 1⟩] ∧ judgeSum [0xFF, 2, 1] = some [some ⟨true, 0⟩] ∧
    judgeSum [0x99] = some [some ⟨false, 153⟩] ∧ judgeSum [0xFF, 0] = some [some ⟨false, -255⟩] := by decide
/-- R178 (c): `CHK_EN = 0`. -/
theorem test_csum_off : after .csum { setupA with pass := { Pass.reset with packets := [⟨none, [good 1], none⟩] } }
    (fun t => t.pass.packets) = some [⟨none, [good 1], none⟩] := by decide

theorem test_emit : after .emit { setupA with
      outq := [⟨none, [good 1], none⟩]
      pass := { Pass.reset with packets := [⟨some 0, [good 2], none⟩] } }
    (fun t => (t.outq, t.status)) = some ([⟨none, [good 1], none⟩, ⟨some 0, [good 2], none⟩], 0x5) := by decide

/-! ### The transmitter (R85's example) -/

theorem test_tx : tx cfgA.template 1000 100 1 [0x4D] =
    [(false, 1000), (true, 1100), (false, 1200), (true, 1300), (false, 1500), (true, 1700), (false, 1800), (true, 1900)] := by
  decide

/-! ### Witnesses: for each statement that has hypotheses, a state and operands that meet them, clause by clause -/

theorem witness_DecodeOfEncodeIsTheOperation : (Instr.cfgw 0xFF 0xFFFFFFFFFFFFFFFF).wf = true ∧
    (Instr.frame7O2 (bits [1, 1, 1, 1, 1, 1, 1, 1, 0, 0, 0])).wf = true := by decide

theorem witness_EncodeOfDecodeIsTheItem : decode (.command 0x0801FFFFFFFFFFFFFFFF) = some (.edge true 0xFFFFFFFFFFFFFFFF) ∧
    decode (.stage 0x1E) = some .emit ∧ decode (.wire .s8E1 (bits [0, 1, 0, 1, 1, 0, 0, 1, 0, 0, 1])) =
      some (.frame8E1 (bits [0, 1, 0, 1, 1, 0, 0, 1, 0, 0, 1])) := by decide

/-- Every row of R80 is met by its own match word. -/
theorem witness_CommandWordIsTheOperationOfItsRow : portRows.all (fun row => matchesRow row.2 row) = true := by decide

theorem witness_RecordLayoutsLoseNothing : (packTlEntry ⟨2 ^ 64 - 1, true⟩).isSome = true ∧
    packTlEntry ⟨2 ^ 64, true⟩ = none ∧ (2 ^ 64 - 1 : Nat) < 2 ^ 64 := by decide

theorem witness_StepRunsTheDecodedOperation :
    (State.reset.withFetchWord 80 0x06000000000000000000).input = [.command 0x06000000000000000000] ∧
    decode (.command 0x06000000000000000000) = some .start := by decide

/-- The undefined words of program P4. -/
theorem witness_UndefinedWordOnlySetsCmdErr :
    (State.reset.withFetchWord 80 0x17000000000000000000).input = [.command 0x17000000000000000000] ∧
    (∀ row ∈ portRows, (0x17000000000000000000 : BitVec 80) &&& row.1 ≠ row.2) ∧
    (∀ row ∈ portRows, (0x080200000000000003E8 : BitVec 80) &&& row.1 ≠ row.2) :=
  ⟨rfl, by simp [portRows], by simp [portRows]⟩

theorem witness_NothingRunsWithoutAnOperation : State.reset.input = [] := rfl

/-- Setup A keeps the invariant. -/
theorem inv_setupV11 : setupV11.Inv where
  ctrl_reserved := by decide
  hdr_count := Nat.zero_le _
  hdr_lengths := by decide
  run_valid := by decide
  stopped_empty := by decide
  edge_path := by decide
  byte_path := by decide
  ebuf_sorted := by decide
  bbuf_sorted := by decide
  ebuf_last := by intro x h; obtain rfl : (⟨true, 2700⟩ : EdgeEvent) = x := by simpa [setupV11, v11Events] using h
                  rfl
  bbuf_last := by intro x h; simp [setupV11, setupA, State.reset] at h
  outq_legal := by intro p h; simp [setupV11, setupA, State.reset] at h
  packets_legal := by intro p h; simp [setupV11, setupA, State.reset, Pass.reset] at h

/-- From a state with the invariant, with the closing POLL of V11 (b) pending, a step answers a next state. -/
theorem witness_EveryStepKeepsTheInvariant :
    ({ setupV11 with input := [encode (.poll 2901)] } : State).Inv ∧
    ∃ t, step { setupV11 with input := [encode (.poll 2901)] } = .next t := by
  obtain ⟨h1, h2, h3, h4, h5, h6, h7, h8, h9, h10, h11, h12, h13⟩ := inv_setupV11
  exact ⟨⟨h1, h2, h3, h4, h5, h6, h7, h8, h9, h10, h11, h12, h13⟩, ⟨_, rfl⟩⟩

/-- Each reason for CFGW to be ignored at its boundary, and the largest values it stores. -/
theorem witness_CfgwStoresTheValueOrSetsCmdErr : setupA.run = true ∧ 0x0A < (0x0B : Byte).toNat ∧
    2 ^ cfgWidths.getD (0x01 : Byte).toNat 64 ≤ (256 : U64).toNat ∧ (4 : U64).extractLsb' 2 62 ≠ 0 ∧
    State.reset.run = false ∧ (0x0A : Byte).toNat ≤ 0x0A ∧ (3 : U64).toNat < 2 ^ cfgWidths.getD (0x0A : Byte).toNat 64 ∧
    (3 : U64).extractLsb' 2 62 = 0 ∧ (255 : U64).toNat < 2 ^ cfgWidths.getD (0x01 : Byte).toNat 64 := by decide

theorem witness_CfgrReturnsTheRegister :
    (cfgRegisters setupV11.cfg ++ [setupV11.status, setupV11.lastTs, BitVec.ofNat 64 setupV11.hdr.length])[(0x0C : Byte).toNat]? =
      some 2700 ∧
    (cfgRegisters setupV11.cfg ++ [setupV11.status, setupV11.lastTs, BitVec.ofNat 64 setupV11.hdr.length])[(0x0D : Byte).toNat]? =
      some 0 ∧
    0x0D < (0x0E : Byte).toNat := by decide

/-- Each reason for HDRADD to be ignored at its boundary, and the shortest and longest headers it takes. -/
theorem witness_HdraddAppendsTheHeaderOrSetsCmdErr : setupA.run = true ∧ (0 : Byte).toNat < 1 ∧ 8 < (9 : Byte).toNat ∧
    ({ State.reset with hdr := List.replicate Config.nHdr [0x4D] } : State).hdr.length = Config.nHdr ∧
    2 ^ (8 * (1 : Byte).toNat) ≤ (0x100 : U64).toNat ∧
    State.reset.run = false ∧ 1 ≤ (1 : Byte).toNat ∧ (8 : Byte).toNat ≤ 8 ∧ State.reset.hdr.length ≠ Config.nHdr ∧
    (0xFF : U64).toNat < 2 ^ (8 * (1 : Byte).toNat) ∧
    (0xFFFFFFFFFFFFFFFF : U64).toNat < 2 ^ (8 * (8 : Byte).toNat) :=
  ⟨by decide, by decide, by decide, List.length_replicate, by decide, by decide, by decide, by decide,
    (Nat.succ_ne_zero _).symm, by decide, by decide⟩

theorem witness_HdrclrEmptiesTheTable : setupA.run = true ∧ State.reset.run = false := by decide

/-- The legal configuration at the ends of its ranges, and one illegal configuration per clause of R34. -/
theorem witness_StartOpensASessionOnAValidConfiguration : setupA.run = true ∧ State.reset.run = false ∧
    ({ cfgA with baud := 1000000, dataBits := 1, parity := 2, voteSpacingPct := 65 } : Cfg).valid = true ∧
    ({ cfgA with baud := 1, parity := 1, stopBits := 255, huntStepUs := 255 } : Cfg).valid = true ∧
    [({ cfgA with baud := 0 } : Cfg), { cfgA with baud := 1000001 }, { cfgA with dataBits := 0 }, { cfgA with dataBits := 9 },
      { cfgA with parity := 3 }, { cfgA with stopBits := 0 }, { cfgA with huntStepUs := 0 },
      { cfgA with voteSpacingPct := 66 }].map Cfg.valid = List.replicate 8 false := by decide

theorem witness_OutpopTakesTheOldestPacket : setupA.outq = [] ∧
    ({ setupA with outq := [⟨none, [good 1], none⟩] } : State).outq = ⟨none, [good 1], none⟩ :: [] := by decide

/-- Stopped; deselected; a timestamp one below the last; the same timestamp; the first event of a burst. -/
theorem witness_EdgeIsAppendedDroppedOrRefused : State.reset.run = false ∧ setupB.cfg.ctrl.getLsbD 1 = true ∧
    setupV11.run = true ∧ setupV11.cfg.ctrl.getLsbD 1 = false ∧ setupV11.ebuf ≠ [] ∧
    (2699 : U64).toNat < setupV11.lastTs.toNat ∧ setupV11.lastTs.toNat ≤ (2700 : U64).toNat ∧
    ({ setupA with lastTs := 2700 } : State).ebuf = [] := by decide

theorem witness_RxbyteIsAppendedDroppedOrRefused : State.reset.run = false ∧ setupA.cfg.ctrl.getLsbD 1 = false ∧
    setupB.run = true ∧ setupB.cfg.ctrl.getLsbD 1 = true ∧ setupB.bbuf = [] ∧
    ({ setupB with bbuf := [⟨1, 5⟩], lastTs := 5 } : State).bbuf ≠ [] ∧
    (4 : U64).toNat < ({ setupB with bbuf := [⟨1, 5⟩], lastTs := 5 } : State).lastTs.toNat ∧
    ({ setupB with bbuf := [⟨1, 5⟩], lastTs := 5 } : State).lastTs.toNat ≤ (5 : U64).toNat := by decide

/-- No session; no event on either input; exactly the idle gap (2900 = 2700 + 200). -/
theorem witness_PollBeforeTheIdleGapChangesNothing : State.reset.run = false ∧
    (setupA.cfg.ctrl.getLsbD 1 = false ∧ setupA.ebuf = []) ∧ (setupB.cfg.ctrl.getLsbD 1 = true ∧ setupB.bbuf = []) ∧
    (2900 : U64).toNat ≤ setupV11.lastTs.toNat + setupV11.cfg.idleGapUs.toNat := by decide

theorem witness_PollPastTheIdleGapClosesTheBurst : setupV11.run = true ∧ setupV11.cfg.valid = true ∧
    setupV11.cfg.ctrl.getLsbD 1 = false ∧ setupV11.ebuf ≠ [] ∧
    setupV11.lastTs.toNat + setupV11.cfg.idleGapUs.toNat < (2901 : U64).toNat := by decide

/-- P3's third burst; one byte before a header of one byte, so that a cut lies inside the burst; `CHK_EN` set and clear. -/
theorem witness_PollOnTheByteInputDeliversTheBytes :
    let met := fun s : State => s.run = true ∧ s.cfg.ctrl.getLsbD 1 = true ∧ s.bbuf ≠ [] ∧
      s.lastTs.toNat + s.cfg.idleGapUs.toNat < (50001 : U64).toNat
    let s : State := { setupB with bbuf := [⟨0x99, 40000⟩], lastTs := 40000 }
    let u : State := { s with hdr := [[0x4D]], bbuf := [⟨0x99, 40000⟩, ⟨0x4D, 40000⟩] }
    let v : State := { u with cfg := { u.cfg with ctrl := 2 } }
    met s ∧ met u ∧ met v ∧ s.cfg.ctrl.getLsbD 0 = true ∧ v.cfg.ctrl.getLsbD 0 = false := by decide

/-- R171, R174: the leading byte is a packet of its own, and the header opens the next one, slot 0. -/
theorem test_poll_bytes_cut : after (.poll 50001)
    { setupB with cfg := { setupB.cfg with ctrl := 2 }, hdr := [[0x4D]], bbuf := [⟨0x99, 40000⟩, ⟨0x4D, 40000⟩], lastTs := 40000 }
    (fun t => t.outq) = some [⟨none, [good 0x99], none⟩, ⟨some 0, [good 0x4D], none⟩] := by decide

/-- The byte input. -/
theorem witness_ClosingPollIsItsStagesInOrder_bytes :
    let s : State := { setupB with bbuf := [⟨0x99, 40000⟩], lastTs := 40000 }
    s.run = true ∧ s.cfg.ctrl.getLsbD 1 = true ∧ s.bbuf ≠ [] ∧
      s.lastTs.toNat + s.cfg.idleGapUs.toNat < (50001 : U64).toNat := by decide

theorem witness_ClosingPollIsItsStagesInOrder : setupV11.run = true ∧ setupV11.cfg.ctrl.getLsbD 1 = false ∧
    setupV11.ebuf ≠ [] ∧ setupV11.lastTs.toNat + setupV11.cfg.idleGapUs.toNat < (2901 : U64).toNat ∧
    ∃ cut, runInstrs [.bclose, .split] { setupV11 with pass := { setupV11.pass with closeTs := 2901 } } = .next cut ∧
      cut.pass.streams = [v11] := ⟨rfl, rfl, by decide, by decide, _, rfl, by decide⟩

/-- The events of V11 (b), closed at the last of them: the shortest last run. -/
theorem witness_BcloseTurnsTheEventsIntoRuns : setupV11.cfg.ctrl.getLsbD 1 = false ∧ setupV11.ebuf ≠ [] ∧
    (setupV11.ebuf.map (fun x => x.timestampUs.toNat) ++ [(2700 : U64).toNat]).Pairwise (· ≤ ·) := by decide

theorem witness_BcloseTakesTheBytes : setupB.cfg.ctrl.getLsbD 1 = true := by decide

theorem witness_BurstDurationsSpanTheBurst :
    let s : State := { setupV11 with pass := { Pass.reset with closeTs := 2901 } }
    s.cfg.ctrl.getLsbD 1 = false ∧ s.ebuf = ⟨false, 1000⟩ :: v11Events.tail ∧
      (s.ebuf.map (fun x => x.timestampUs.toNat) ++ [s.pass.closeTs.toNat]).Pairwise (· ≤ ·) ∧
      ∃ t, exec .bclose s = .next t := ⟨rfl, rfl, by decide, _, rfl⟩

/-- The split disabled and enabled. -/
theorem witness_SplitCutsAfterEveryLongRun : cfgV11.subIdleBits.toNat = 0 ∧ cfgA.subIdleBits.toNat ≠ 0 := by decide

theorem witness_TlbuildAddsUpTheDurations :
    ({ setupA with pass := { Pass.reset with streams := [shortStream, v11] } } : State).pass.streams =
      shortStream :: [v11] := by decide

/-- R121's example is a timeline of its stream; below 0, at the end, and at both ends of entry 1. -/
theorem witness_LevelatReadsTheCoveringEntry : shortStream ≠ [] ∧
    IsTimeline shortStream (onStream cfgA shortStream 0).pass.tl (onStream cfgA shortStream 0).pass.tlTotal ∧
    (-1 : Int) < 0 ∧ (((onStream cfgA shortStream 0).pass.tlTotal : Int) ≤ 10301) ∧
    ((((shortStream.take 1).map fun x => x.durationUs.toNat).sum : Nat) : Int) ≤ 100 ∧
    (199 : Int) < ((((shortStream.take 2).map fun x => x.durationUs.toNat).sum : Nat) : Int) :=
  ⟨by decide, isTimeline_timelineFrom shortStream, by decide, by decide, by decide, by decide⟩

theorem witness_Anchor0AnchorsAStreamThatStartsLow :
    (onStream cfgA shortStream 0).pass.streams = (low 100 :: shortStream.tail) :: [] ∧ (low 100).level = false ∧
    (onStream cfgA [high 500, low 100] 0).pass.streams = (high 500 :: [low 100]) :: [] ∧ (high 500).level = true := by decide

/-- The level the line has in the stream of R121's example. -/
def shortLevel (t : Int) : Level :=
  levelAt (onStream cfgA shortStream 0).env (onStream cfgA shortStream 0).pass.tl (onStream cfgA shortStream 0).pass.tlTotal t

/-- R133's example: the fall is between 199 and 200, not between 198 and 199. -/
theorem witness_HuntAnchorsAFallOrMovesOn : (shortLevel 199 = true ∧ shortLevel (199 + 1 : Nat) = false) ∧
    ¬ (shortLevel 198 = true ∧ shortLevel (198 + 1 : Nat) = false) := by decide

/-- From the cursor 197 the fall is the third step. -/
theorem witness_HuntFindsTheFirstFall :
    (∀ j, j < 2 → ¬ (shortLevel (197 + j * 1 : Nat) = true ∧ shortLevel (197 + (j + 1) * 1 : Nat) = false)) ∧
    shortLevel (197 + 2 * 1 : Nat) = true ∧ shortLevel (197 + (2 + 1) * 1 : Nat) = false := by decide

theorem witness_ResyncMovesTheCursorPastTheFrame : 1 ≤ ({ cfgA with baud := 1 } : Cfg).baud.toNat := by decide

/-- Streams that start low and are long enough for an anchor at 0, start low and are too short, start high, and are empty. -/
theorem witness_SdecDecodesTheCurrentStream :
    let starts := fun (rle : List RunLength) =>
      let s := onStream cfgA rle 0
      (s.pass.streams == [rle], rle.head?.map (·.level), hstopTest s.env s.pass)
    1 ≤ cfgA.huntStepUs.toNat ∧ starts shortStream = (true, some false, false) ∧
      starts [low 999] = (true, some false, true) ∧ starts [high 500, low 1000] = (true, some true, false) ∧
      starts [] = (true, none, true) := by decide

theorem witness_EveryDecodePassEnds : 1 ≤ setupA.env.huntStepUs.toNat ∧ Pass.reset.first = false := by decide

/-- A trip: later with and without a fall; first, anchored, and hunted with and without a fall. -/
theorem witness_ATripIsItsStagesInOrder :
    let s := fun (first : Bool) (rle : List RunLength) (t : Nat) => ({ onStream cfgA rle t with
      pass := { (onStream cfgA rle t).pass with first := first } } : State)
    let met := fun u : State => (u.pass.first, firstLevel u.env u.pass, fallAt u.env u.pass u.pass.tCur)
    met (s false shortStream 199) = (false, false, true) ∧ met (s false shortStream 198) = (false, false, false) ∧
    met (s true shortStream 0) = (true, false, false) ∧ met (s true [high 1, low 900, high 900] 0) = (true, true, true) ∧
    met (s true [high 2, low 900, high 900] 0) = (true, true, false) := by decide

/-- The spacing at its largest: equal to the offset. -/
theorem witness_SampleVotesAtTheThreeInstants : 1 ≤ cfgA.baud.toNat ∧
    ({ cfgA with voteSpacingPct := 65 } : Cfg).voteSpacingPct.toNat ≤
      ({ cfgA with voteSpacingPct := 65 } : Cfg).sampleOffsetPct.toNat := by decide

/-- One data bit: the frame 0 1 1 with the centre sample of its data bit (at 165) hit by a glitch. -/
theorem witness_OneBadSampleOfABitIsOutvoted :
    let s := onStream { cfgA with dataBits := 1 } [low 100, high 65, low 2, high 10000] 0
    let level := fun (i : Nat) (k : Int) => levelAt s.env s.pass.tl s.pass.tlTotal (sampleTime s.env s.pass.startEdge i k)
    s.pass.bitIdx = 0 ∧ s.pass.frameSr = [] ∧ (bits [0, 1, 1]).length = s.env.frameLen ∧ level 1 0 ≠ true ∧
    (∀ (i : Nat) (h : i < (bits [0, 1, 1]).length), ∃ j k : Int, j ≠ k ∧ -1 ≤ j ∧ j ≤ 1 ∧ -1 ≤ k ∧ k ≤ 1 ∧
      level i j = (bits [0, 1, 1])[i] ∧ level i k = (bits [0, 1, 1])[i]) := by
  refine ⟨rfl, rfl, rfl, by decide, fun i h => ⟨-1, 1, by decide, by decide, by decide, by decide, by decide, ?_⟩⟩
  revert i
  decide

theorem witness_FrameLengthIsTheTemplates : cfgA.valid = true ∧
    ({ cfgA with dataBits := 1 } : Cfg).frameLen = 3 ∧ ({ cfgA with dataBits := 1 } : Cfg).valid = true ∧
    ({ cfgA with parity := 1, stopBits := 255 } : Cfg).frameLen = 265 ∧
    ({ cfgA with parity := 1, stopBits := 255 } : Cfg).valid = true := by decide

theorem witness_BitTimeIsOneFloor : 1 ≤ setupA.env.baud.toNat := by decide

theorem witness_FdecJudgesTheSampledFrame : cfgA.dataBits.toNat ≤ 8 ∧
    (bits [0, 1, 0, 1, 1, 0, 0, 1, 0, 0]).length =
      frameLength cfgA.dataBits.toNat cfgA.parity.toNat cfgA.stopBits.toNat := by decide

theorem witness_NamedFramesAreDecodedUnderTheirShape : (List.replicate 10 true).length = frameLength 8 0 1 ∧
    (List.replicate 11 true).length = frameLength 8 1 1 ∧ (List.replicate 11 true).length = frameLength 8 2 1 ∧
    (List.replicate 11 true).length = frameLength 8 0 2 ∧ (List.replicate 10 true).length = frameLength 7 1 1 ∧
    (List.replicate 11 true).length = frameLength 7 2 2 ∧ (List.replicate 7 true).length = frameLength 5 0 1 := by decide

theorem witness_ATransmittedFrameDecodesToItsByte : setupA.env.valid = true ∧ (0xFF : Byte).toNat < 2 ^ setupA.env.dataBits.toNat := by
  decide

/-- The stream of two frames 0 1 1 (one data bit, the byte 1) sent with a bit period of 97 microseconds. -/
def fastStream : List RunLength := [low 97, high 194, low 97, high 10194]

/-- A sender 3 % fast (V7), at 10,000 baud with one data bit: every hypothesis of the statement. -/
theorem witness_ASenderWithinToleranceIsDecoded :
    let c : Cfg := { cfgA with dataBits := 1 }
    let s := onStream c fastStream 0
    let bt := fun p : Nat => 1000000 * p / (100 * s.cfg.baud.toNat)
    let centre := fun i : Nat => 100 * i + s.cfg.sampleOffsetPct.toNat
    let cursor := bt (100 * (s.cfg.frameLen - 1) + s.cfg.resyncMarginPct.toNat)
    s.cfg.valid = true ∧ s.cfg.huntStepUs.toNat = 1 ∧ s.pass.streams = fastStream :: [] ∧
      IsTimeline fastStream s.pass.tl s.pass.tlTotal ∧ fastStream.head?.map (·.level) = some false ∧
      (∀ v ∈ [(1 : Byte), 1], v.toNat < 2 ^ s.cfg.dataBits.toNat) ∧
      (∀ t : Nat, levelAt s.env s.pass.tl s.pass.tlTotal t =
        ([(1 : Byte), 1].flatMap (frameLevels s.cfg.template)).getD (t / 97) true) ∧
      (∀ i, i < s.cfg.frameLen → i * 97 ≤ bt (centre i) ∧ bt (centre i) < (i + 1) * 97 ∧
        (i * 97 ≤ bt (centre i - s.cfg.voteSpacingPct.toNat) ∨ bt (centre i + s.cfg.voteSpacingPct.toNat) < (i + 1) * 97)) ∧
      (s.cfg.frameLen - 2) * 97 ≤ cursor ∧ cursor < s.cfg.frameLen * 97 ∧
      (([(1 : Byte), 1].length - 1) * (s.cfg.frameLen * 97)) * s.cfg.baud.toNat + 1000000 * s.cfg.frameLen ≤
        s.pass.tlTotal * s.cfg.baud.toNat := by
  refine ⟨by decide, by decide, rfl, isTimeline_timelineFrom _, rfl, by decide, fun t => ?_, by decide, by decide, by decide,
    by decide⟩
  have hl : ([(1 : Byte), 1].flatMap (frameLevels ({ cfgA with dataBits := 1 } : Cfg).template)) =
      [false, true, true, false, true, true] := by decide
  have ht : (onStream { cfgA with dataBits := 1 } fastStream 0).pass.tl = [⟨0, false⟩, ⟨97, true⟩, ⟨291, false⟩, ⟨388, true⟩] := by
    decide
  have hn : (onStream { cfgA with dataBits := 1 } fastStream 0).pass.tlTotal = 10582 := by decide
  show levelAt _ _ _ _ = ([(1 : Byte), 1].flatMap (frameLevels ({ cfgA with dataBits := 1 } : Cfg).template)).getD (t / 97) true
  rw [hl, ht, hn]
  have h0 : ¬ ((t : Int) < 0) := by omega
  by_cases h1 : t < 97
  · have d : t / 97 = 0 := by omega
    have : ¬ (10582 ≤ t) := by omega
    simp [levelAt, lookupIndex, entryIndex, h0, d, this, h1]
  · by_cases h2 : t < 291
    · have d : t / 97 = 1 ∨ t / 97 = 2 := by omega
      have : ¬ (10582 ≤ t) := by omega
      rcases d with d | d <;> simp [levelAt, lookupIndex, entryIndex, h0, d, this, h1, h2]
    · by_cases h3 : t < 388
      · have d : t / 97 = 3 := by omega
        have : ¬ (10582 ≤ t) := by omega
        simp [levelAt, lookupIndex, entryIndex, h0, d, this, h1, h2, h3]
      · have d : [false, true, true, false, true, true].getD (t / 97) true = true := by
          obtain ⟨k, hk⟩ : ∃ k, t / 97 = k + 4 := ⟨t / 97 - 4, by omega⟩
          rw [hk]
          rcases k with _ | _ | k <;> simp
        rw [d]
        by_cases h4 : 10582 ≤ t <;> simp [levelAt, lookupIndex, entryIndex, h0, h1, h2, h3, h4]

/-- Both slots fit: the lower; a header cut off by the end: none. -/
theorem witness_MatchIsTheLowestSlotThatFits : matchSlot [[0x4D], [0x4D, 0xC0]] [good 0x4D, good 0xC0] = some 0 ∧
    matchSlot hdrs [good 0x4D] = none := by decide

theorem witness_PsegCutsExactlyAtHeaders :
    ∃ t, exec .pseg { setupA with hdr := hdrs, pass := { Pass.reset with dbytes := [good 1, good 0x4D, good 0xC0, good 2] } } =
      .next t ∧ t.pass.packets =
        [⟨none, [good 1], none⟩] ++ (⟨some 0, [good 0x4D, good 0xC0, good 2], none⟩ : Packet) :: [] :=
  ⟨_, rfl, by decide⟩

theorem witness_CsumGivesEveryPacketItsVerdict : setupA.cfg.ctrl.getLsbD 0 = false ∧ setupB.cfg.ctrl.getLsbD 0 = true ∧
    (∀ p ∈ [(⟨none, [good 5], none⟩ : Packet)], p.bytes ≠ []) ∧ [good 5] = ([] : List DecodedByte) ++ [good 5] := by decide

/-- The step clause: an EDGE that is accepted and a POLL that takes a snapshot. -/
theorem witness_NoEdgeIsLostOrSeenTwice_step : setupV11.run = true ∧ setupA.run = true ∧
    Instr.poll 2901 ≠ .reset ∧ Instr.poll 2901 ≠ .stop ∧ Instr.edge false 1 ≠ .reset ∧ Instr.edge false 1 ≠ .stop ∧
    edgeSnapshot (.poll 2901) setupV11 = setupV11.ebuf ∧ acceptedEdge (.edge false 1) setupA = [⟨false, 1⟩] ∧
    (∃ t, exec (.edge false 1) setupA = .next t) ∧ ∃ t, exec (.poll 2901) setupV11 = .next t :=
  ⟨rfl, rfl, by decide, by decide, by decide, by decide, by decide, by decide, ⟨_, rfl⟩, ⟨_, rfl⟩⟩

theorem witness_NoEdgeIsLostOrSeenTwice :
    let s : State := { State.reset with cfg := cfgV11 }
    ∃ s0 t, s.run = false ∧ exec .start s = .next s0 ∧ s0.run = true ∧
      (∀ i ∈ [Instr.edge false 1, .poll 202, .edge true 300], i ≠ .reset ∧ i ≠ .stop) ∧
      runInstrs [.edge false 1, .poll 202, .edge true 300] s0 = .next t ∧ t.ebuf = [⟨true, 300⟩] :=
  ⟨_, _, rfl, rfl, rfl, by decide, rfl, by decide⟩

theorem witness_DeadStateNeverShows : isPortOp (.poll 2901) = true ∧
    SameButPass setupV11 { setupV11 with pass := { Pass.reset with tCur := 7, dbytes := [good 1] } } := ⟨rfl, rfl⟩

theorem witness_EveryPortOperationCompletes : setupV11.Inv ∧ isPortOp (.poll 2901) = true ∧
    isPortOp (.edge true 2699) = true := ⟨inv_setupV11, rfl, rfl⟩

theorem witness_ConfigurationIsLockedWhileRunning : Instr.cfgw 0 9600 ≠ .reset ∧ setupA.run = true ∧
    ∃ t, exec (.cfgw 0 9600) setupA = .next t := ⟨by decide, rfl, _, rfl⟩

theorem witness_OnlyStartStopAndResetMoveTheSession :
    (∃ t, exec .start { State.reset with cfg := cfgA } = .next t ∧ State.reset.run = false ∧ t.run = true) ∧
    ∃ t, exec .stop setupA = .next t ∧ setupA.run = true ∧ t.run = false := ⟨⟨_, rfl, rfl, rfl⟩, _, rfl, rfl, rfl⟩

theorem witness_OnlyResetClearsCmdErrAndDiscardsOutput : Instr.outpop ≠ .reset ∧
    (∃ t, exec .outpop { setupA with cmdErr := true, outq := [⟨none, [good 1], none⟩] } = .next t) ∧
    ({ setupA with cmdErr := true } : State).cmdErr = true := ⟨by decide, ⟨_, rfl⟩, rfl⟩

theorem witness_PassStagesTouchOnlyThePass : Instr.frame5N1 [] ∈ [Instr.split, .tlbuild, .frame5N1 []] := by decide

end Sys2Proof.Tests
end

section
/-! SUPPORT. What each operation can answer, once per operation: every later proof about a step reads it off here. -/

namespace Sys2Proof.Machine

/-! ### Operations on the pass -/

/-- The stages and frames that work on the pass alone and complete in every state. -/
def worksOnPass : Instr → Bool
  | .split | .tlbuild | .levelat | .hstop | .anchor0 | .hunt | .sample | .maj3 | .resync | .fdec | .pseg | .csum => true
  | .frame8N1 _ | .frame8E1 _ | .frame8O1 _ | .frame8N2 _ | .frame7E1 _ | .frame7O2 _ | .frame5N1 _ => true
  | _ => false

/-- They answer a next state that differs in the pass alone; only PSEG and CSUM write its packets. -/
theorem exec_worksOnPass (i : Instr) (s : State) (hi : worksOnPass i = true) :
    ∃ p : Pass, exec i s = .next { s with pass := p } ∧
      (p.packets = s.pass.packets ∨ p.packets = segmentBytes s.hdr s.pass.dbytes ∨ p = csumPass s.env s.pass) := by
  cases i with
  | reset | cfgw | cfgr | hdradd | hdrclr | start | stop | edge | rxbyte | poll | outpop | bclose | sdec | emit =>
    exact absurd hi (by simp [worksOnPass])
  | anchor0 => exact ⟨_, rfl, .inl (anchor0Pass_keeps _ _).packets⟩
  | hunt => exact ⟨_, rfl, .inl (huntPass_spec _ _).1.packets⟩
  | pseg => exact ⟨_, rfl, .inr (.inl rfl)⟩
  | csum => exact ⟨_, rfl, .inr (.inr rfl)⟩
  | split | tlbuild | levelat | hstop | sample | maj3 | resync | fdec => exact ⟨_, rfl, .inl rfl⟩
  | frame8N1 | frame8E1 | frame8O1 | frame8N2 | frame7E1 | frame7O2 | frame5N1 => exact ⟨_, rfl, .inl rfl⟩

/-- SDEC, when it completes, differs in the pass alone and keeps its packets. -/
theorem execSdec_next {s t : State} (h : execSdec s = .next t) :
    ∃ p : Pass, t = { s with pass := p } ∧ p.packets = s.pass.packets := by
  unfold execSdec at h
  split at h
  next p hp =>
    cases h
    exact ⟨p, rfl, (sdecPass_spec _ _ _ hp).1.packets⟩
  next => cases h

/-! ### Operations of the host -/

theorem execCfgw_next {s t : State} {r : Byte} {v : U64} (h : execCfgw r v s = .next t) :
    t = commandError s ∨ (cfgwRejected s r v = false ∧ t = { s with cfg := writeReg s.cfg r v }) := by
  cases h
  split
  next => exact .inl rfl
  next hr => exact .inr ⟨by simpa using hr, rfl⟩

theorem execCfgr_next {s t : State} {r : Byte} (h : execCfgr r s = .next t) :
    ∃ v, t = returnResult s v ∨ t = returnResult (commandError s) v := by
  cases h
  split
  next v _ => exact ⟨.value v, .inl rfl⟩
  next => exact ⟨.value 0, .inr rfl⟩

theorem execHdradd_next {s t : State} {len : Byte} {packed : U64} (h : execHdradd len packed s = .next t) :
    t = commandError s ∨
      (hdraddRejected Config.nHdr s len packed = false ∧ t = { s with hdr := s.hdr ++ [headerBytes len packed] }) := by
  cases h
  split
  next => exact .inl rfl
  next hr => exact .inr ⟨by simpa using hr, rfl⟩

theorem execHdrclr_next {s t : State} (h : execHdrclr s = .next t) : t = commandError s ∨ t = { s with hdr := [] } := by
  cases h
  split
  · exact .inl rfl
  · exact .inr rfl

theorem execStart_next {s t : State} (h : execStart s = .next t) :
    t = s ∨ t = configError s ∨
      (s.run = false ∧ s.cfg.valid = true ∧ t = { clearCapture s with cfgErr := false, run := true }) := by
  cases h
  split
  next => exact .inl rfl
  next hrun =>
    split
    next hv => exact .inr (.inr ⟨by simpa using hrun, hv, rfl⟩)
    next => exact .inr (.inl rfl)

/-! ### Capture and the close -/

theorem execEdge_next {s t : State} {level : Level} {ts : U64} (h : execEdge level ts s = .next t) :
    t = s ∨ (s.run = true ∧ s.cfg.inputSel = false ∧ (s.ebuf = [] ∨ s.lastTs.toNat ≤ ts.toNat) ∧
      t = pushEdge s level ts) := by
  unfold execEdge at h
  split at h
  next => cases h; exact .inl rfl
  next hsel =>
    split at h
    next => cases h
    next hts =>
      cases h
      simp only [Bool.or_eq_true, Bool.not_eq_true', not_or, Bool.not_eq_false, Bool.not_eq_true] at hsel
      simp only [Bool.and_eq_true, Bool.not_eq_true', List.isEmpty_eq_false_iff, decide_eq_true_eq, not_and_or,
        not_not, not_lt] at hts
      exact .inr ⟨hsel.1, hsel.2, hts, rfl⟩

theorem execRxbyte_next {s t : State} {value : Byte} {ts : U64} (h : execRxbyte value ts s = .next t) :
    t = s ∨ (s.run = true ∧ s.cfg.inputSel = true ∧ (s.bbuf = [] ∨ s.lastTs.toNat ≤ ts.toNat) ∧
      t = pushByte s value ts) := by
  unfold execRxbyte at h
  split at h
  next => cases h; exact .inl rfl
  next hsel =>
    split at h
    next => cases h
    next hts =>
      cases h
      simp only [Bool.or_eq_true, Bool.not_eq_true', not_or, Bool.not_eq_false] at hsel
      simp only [Bool.and_eq_true, Bool.not_eq_true', List.isEmpty_eq_false_iff, decide_eq_true_eq, not_and_or,
        not_not, not_lt] at hts
      exact .inr ⟨hsel.1, hsel.2, hts, rfl⟩

/-- BCLOSE empties the selected buffer, swaps the bank, and leaves the packets of the pass. -/
theorem execBclose_next {s t : State} (h : execBclose s = .next t) :
    ∃ p : Pass, t = { s.swapped with pass := p } ∧ p.packets = s.pass.packets := by
  cases h
  unfold closeBuffer State.swapped
  split
  · exact ⟨_, rfl, rfl⟩
  · exact ⟨_, rfl, rfl⟩

theorem execPoll_next {s t : State} {now : U64} (h : execPoll now s = .next t) : t = s ∨ Delivers s.swapped t := by
  unfold execPoll at h
  split at h
  next =>
    split at h
    next u hu =>
      cases h
      exact .inr (closeBurst_delivers now s _ hu)
    next => cases h
  next => cases h; exact .inl rfl

end Sys2Proof.Machine
end

section
/-! SUPPORT. The session bit, the bits of STATUS, and the statements of reset, STATUS and the session. -/

namespace Sys2Proof.Machine

/-- STATUS has one bit for each of its five flags, and zeros above them (R32). -/
theorem ofNat_flags_bits (a b c d e : Bool) :
    let v := BitVec.ofNat 64 (a.toNat + 2 * b.toNat + 4 * c.toNat + 8 * d.toNat + 16 * e.toNat)
    v.getLsbD 0 = a ∧ v.getLsbD 1 = b ∧ v.getLsbD 2 = c ∧ v.getLsbD 3 = d ∧ v.getLsbD 4 = e ∧
      v.extractLsb' 5 59 = 0 := by
  revert a b c d e
  decide

theorem pending_eq (s : State) :
    s.pending = if s.cfg.inputSel then decide (s.bbuf ≠ []) else decide (s.ebuf ≠ []) := by
  split
  next h => exact pending_bytes h
  next h => exact pending_edges (by simpa using h)

theorem outAvail_eq (s : State) : s.outAvail = decide (s.outq ≠ []) := by
  rw [State.outAvail]
  cases s.outq <;> simp

/-- The buffers a close swaps play no part in the session. -/
@[simp] theorem swapped_run (s : State) : s.swapped.run = s.run := by
  unfold State.swapped
  split <;> rfl

theorem Delivers.run_eq {s t : State} (h : Delivers s t) : t.run = s.run := by
  obtain ⟨new, ht, -⟩ := h
  rw [ht]

/-- Every other operation leaves `RUN` as it is (R15). -/
theorem exec_run_eq {i : Instr} {s t : State} (hreset : i ≠ .reset) (hstart : i ≠ .start) (hstop : i ≠ .stop)
    (h : exec i s = .next t) : t.run = s.run := by
  by_cases hi : worksOnPass i = true
  · obtain ⟨p, hp, -⟩ := exec_worksOnPass i s hi
    cases hp.symm.trans h
    rfl
  cases i with
  | reset => exact absurd rfl hreset
  | start => exact absurd rfl hstart
  | stop => exact absurd rfl hstop
  | cfgw r v => obtain rfl | ⟨-, rfl⟩ := execCfgw_next h <;> rfl
  | cfgr r => obtain ⟨v, rfl | rfl⟩ := execCfgr_next h <;> rfl
  | hdradd len packed => obtain rfl | ⟨-, rfl⟩ := execHdradd_next h <;> rfl
  | hdrclr => obtain rfl | rfl := execHdrclr_next h <;> rfl
  | edge level ts => obtain rfl | ⟨-, -, -, rfl⟩ := execEdge_next h <;> rfl
  | rxbyte value ts => obtain rfl | ⟨-, -, -, rfl⟩ := execRxbyte_next h <;> rfl
  | outpop => cases h; rfl
  | bclose =>
    obtain ⟨p, rfl, -⟩ := execBclose_next h
    exact swapped_run s
  | sdec =>
    obtain ⟨p, rfl, -⟩ := execSdec_next h
    rfl
  | emit => cases h; rfl
  | poll now =>
    obtain rfl | hd := execPoll_next h
    · rfl
    · exact hd.run_eq.trans (swapped_run s)
  | _ => exact absurd rfl hi

/-- Settles O9: the state after RESET is `State.reset` but for the trace and the tick, of which R38 says nothing. -/
theorem resetPutsEveryItemAtItsResetValue : Obligations.ResetPutsEveryItemAtItsResetValue := by
  intro s
  refine ⟨_, rfl, ?_⟩
  rintro u (rfl | rfl) <;> exact ⟨rfl, rfl, rfl, rfl, rfl, rfl, rfl, rfl, rfl, rfl, rfl⟩

/-- Settles O14: register 0x0B is `State.status`, whose five flags are its five low bits. -/
theorem statusReadsTheSessionAndTheBuffers : Obligations.StatusReadsTheSessionAndTheBuffers := by
  intro s
  obtain ⟨hrun, hpending, havail, hcfg, hcmd, hzero⟩ := ofNat_flags_bits s.run s.pending s.outAvail s.cfgErr s.cmdErr
  exact ⟨s.status, rfl, hrun, hpending.trans (pending_eq s), havail.trans (outAvail_eq s), hcfg, hcmd, hzero⟩

/-- Settles O58: every operation but START, STOP and RESET keeps `RUN`, START sets it only on a valid configuration, and
STOP and RESET leave it 0. -/
theorem onlyStartStopAndResetMoveTheSession : Obligations.OnlyStartStopAndResetMoveTheSession := by
  intro i s t h
  have unmoved (hrun : t.run = s.run) :
      (s.run = false → t.run = true → i = .start ∧ s.cfg.valid = true) ∧
        (s.run = true → t.run = false → i = .stop ∨ i = .reset) := by
    rw [hrun]
    exact ⟨fun h0 h1 => absurd (h0.symm.trans h1) (by decide), fun h1 h0 => absurd (h1.symm.trans h0) (by decide)⟩
  by_cases hreset : i = .reset
  · subst hreset
    cases h
    exact ⟨fun _ ht => absurd ht Bool.false_ne_true, fun _ _ => .inr rfl⟩
  by_cases hstop : i = .stop
  · subst hstop
    cases h
    exact ⟨fun _ ht => absurd ht Bool.false_ne_true, fun _ _ => .inl rfl⟩
  by_cases hstart : i = .start
  · subst hstart
    obtain rfl | rfl | ⟨-, hvalid, rfl⟩ := execStart_next h
    · exact unmoved rfl
    · exact unmoved rfl
    · exact ⟨fun _ _ => ⟨rfl, hvalid⟩, fun _ ht => absurd ht.symm Bool.false_ne_true⟩
  · exact unmoved (exec_run_eq hreset hstart hstop h)

/-- Settles O60: each of these operations answers the state with a new pass. -/
theorem passStagesTouchOnlyThePass : Obligations.PassStagesTouchOnlyThePass := by
  intro s bits i hi
  have hw : worksOnPass i = true := by
    revert i
    simp [worksOnPass]
  obtain ⟨p, hp, -⟩ := exec_worksOnPass i s hw
  exact ⟨p, hp⟩

end Sys2Proof.Machine
end

section
/-! SUPPORT. Every operation keeps the invariant (Safety.lean `State.Inv`), one lemma for each thing an operation can do. -/

namespace Sys2Proof.Machine

/-! ### The configuration and the header table -/

/-- CFGW writes `CTRL` only as register 0x0A (R20). -/
theorem writeReg_ctrl (c : Cfg) (r : Byte) (v : U64) :
    (writeReg c r v).ctrl = if r.toNat = 0x0A then v else c.ctrl := by
  unfold writeReg
  split
  case h_11 hr => rw [if_pos hr]
  case h_12 => rw [if_neg (by assumption)]
  all_goals next hr => rw [if_neg (by omega)]

/-- A CFGW that is not ignored meets no session and no event, and leaves `CTRL`'s reserved bits 0 (R192). -/
theorem State.Inv.write_register {s : State} (h : s.Inv) {r : Byte} {v : U64} (hr : cfgwRejected s r v = false) :
    ({ s with cfg := writeReg s.cfg r v } : State).Inv := by
  rw [← Bool.not_eq_true, cfgwRejected_iff] at hr
  push Not at hr
  obtain ⟨hrun, -, -, hctrl⟩ := hr
  have hstopped : s.run = false := by simpa using hrun
  obtain ⟨he, hb⟩ := h.stopped_empty hstopped
  refine { h with
    ctrl_reserved := ?_
    run_valid := fun hopen => absurd hopen hrun
    edge_path := fun _ => hb
    byte_path := fun _ => he }
  show (writeReg s.cfg r v).ctrl.toNat < 4
  rw [writeReg_ctrl]
  split
  next hr => exact hctrl hr
  next => exact h.ctrl_reserved

theorem headerBytes_length (len : Byte) (packed : U64) : (headerBytes len packed).length = len.toNat := by
  simp [headerBytes]

/-- A HDRADD that is not ignored finds a free slot and a length of 1 to 8 (R194). -/
theorem State.Inv.add_header {s : State} (h : s.Inv) {len : Byte} {packed : U64}
    (hr : hdraddRejected Config.nHdr s len packed = false) :
    ({ s with hdr := s.hdr ++ [headerBytes len packed] } : State).Inv := by
  rw [← Bool.not_eq_true, hdraddRejected_iff] at hr
  push Not at hr
  obtain ⟨-, hmin, hmax, hfull, -⟩ := hr
  refine { h with hdr_count := ?_, hdr_lengths := ?_ }
  · have hle := h.hdr_count
    simp only [List.length_append, List.length_singleton]
    omega
  · intro x hx
    rcases List.mem_append.1 hx with hx | hx
    · exact h.hdr_lengths x hx
    · rw [List.mem_singleton.1 hx, headerBytes_length]
      exact ⟨hmin, hmax⟩

theorem State.Inv.clear_headers {s : State} (h : s.Inv) : ({ s with hdr := [] } : State).Inv :=
  { h with hdr_count := Nat.zero_le _, hdr_lengths := by simp }

/-! ### The session -/

/-- Emptying both buffers keeps the invariant whether the session is then open, on a valid configuration, or not. -/
theorem State.Inv.clear_capture {s : State} (h : s.Inv) (run : Bool) (hv : run = true → s.cfg.valid = true) :
    ({ clearCapture s with run := run } : State).Inv :=
  { h with
    run_valid := hv
    stopped_empty := fun _ => ⟨rfl, rfl⟩
    edge_path := fun _ => rfl
    byte_path := fun _ => rfl
    ebuf_sorted := .nil
    bbuf_sorted := .nil
    ebuf_last := fun _ hx => absurd hx (by simp)
    bbuf_last := fun _ hx => absurd hx (by simp) }

/-- After reset nothing is captured, no header is stored, and no session is open (R38). -/
theorem State.inv_reset : State.reset.Inv where
  ctrl_reserved := by decide
  hdr_count := Nat.zero_le _
  hdr_lengths := by simp [State.reset]
  run_valid hopen := absurd hopen (by decide)
  stopped_empty _ := ⟨rfl, rfl⟩
  edge_path _ := rfl
  byte_path _ := rfl
  ebuf_sorted := .nil
  bbuf_sorted := .nil
  ebuf_last := by simp [State.reset]
  bbuf_last := by simp [State.reset]
  outq_legal := by simp [State.reset]
  packets_legal := by simp [State.reset, Pass.reset]

/-- Settles O10. -/
theorem invariantHoldsAtReset : Obligations.InvariantHoldsAtReset := State.inv_reset

/-! ### Capture -/

/-- A record no older than the last one of a buffer keeps the buffer's timestamps sorted (R101, R102). -/
theorem sorted_concat {α : Type} (ts : α → U64) {l : List α} {x : α} {last : U64}
    (hs : (l.map fun y => (ts y).toNat).Pairwise (· ≤ ·)) (hlast : ∀ y, l.getLast? = some y → ts y = last)
    (hx : l = [] ∨ last.toNat ≤ (ts x).toNat) : ((l ++ [x]).map fun y => (ts y).toNat).Pairwise (· ≤ ·) := by
  have hbound : ∀ a ∈ l.map fun y => (ts y).toNat, a ≤ (ts x).toNat := by
    intro a ha
    have hne : l ≠ [] := by
      rintro rfl
      simp at ha
    calc a ≤ (l.map fun y => (ts y).toNat).getLast (by simpa using hne) := hs.rel_getLast ha
      _ = last.toNat := by rw [List.getLast_map, hlast _ (List.getLast?_eq_some_getLast hne)]
      _ ≤ (ts x).toNat := hx.resolve_left hne
  rw [List.map_append, List.pairwise_append]
  refine ⟨hs, by simp, fun a ha b hb => ?_⟩
  rw [show b = (ts x).toNat by simpa using hb]
  exact hbound a ha

theorem State.Inv.push_edge {s : State} (h : s.Inv) {level : Level} {ts : U64} (hrun : s.run = true)
    (hsel : s.cfg.inputSel = false) (hts : s.ebuf = [] ∨ s.lastTs.toNat ≤ ts.toNat) : (pushEdge s level ts).Inv :=
  { h with
    stopped_empty := fun hstopped => absurd (hrun.symm.trans hstopped) (by decide)
    byte_path := fun hbyte => absurd (hsel.symm.trans hbyte) (by decide)
    ebuf_sorted := sorted_concat EdgeEvent.timestampUs h.ebuf_sorted h.ebuf_last hts
    ebuf_last := by simp
    bbuf_last := by simp [h.edge_path hsel] }

theorem State.Inv.push_byte {s : State} (h : s.Inv) {value : Byte} {ts : U64} (hrun : s.run = true)
    (hsel : s.cfg.inputSel = true) (hts : s.bbuf = [] ∨ s.lastTs.toNat ≤ ts.toNat) : (pushByte s value ts).Inv :=
  { h with
    stopped_empty := fun hstopped => absurd (hrun.symm.trans hstopped) (by decide)
    edge_path := fun hedge => absurd (hsel.symm.trans hedge) (by decide)
    bbuf_sorted := sorted_concat RxByte.timestampUs h.bbuf_sorted h.bbuf_last hts
    bbuf_last := by simp
    ebuf_last := by simp [h.byte_path hsel] }

/-! ### The close and the stages -/

/-- The swap leaves the selected buffer empty, and the other one is empty already (R31, R47). -/
theorem State.Inv.swap {s : State} (h : s.Inv) : s.swapped.Inv := by
  unfold State.swapped
  split
  next hbyte =>
    have he := h.byte_path hbyte
    exact { h with
      stopped_empty := fun _ => ⟨he, rfl⟩
      edge_path := fun _ => rfl
      bbuf_sorted := .nil
      bbuf_last := fun _ hx => absurd hx (by simp) }
  next hedge =>
    have hb := h.edge_path (by simpa using hedge)
    exact { h with
      stopped_empty := fun _ => ⟨rfl, hb⟩
      byte_path := fun _ => rfl
      ebuf_sorted := .nil
      ebuf_last := fun _ hx => absurd hx (by simp) }

theorem swapped_pass (s : State) : s.swapped.pass = s.pass := by
  unfold State.swapped
  split <;> rfl

/-- Legal packets may join `OUTQ`. -/
theorem State.Inv.append_outq {s : State} (h : s.Inv) {new : List Packet} (hnew : ∀ q ∈ new, q.Legal) :
    ({ s with outq := s.outq ++ new } : State).Inv :=
  { h with outq_legal := fun q hq => (List.mem_append.1 hq).elim (h.outq_legal q) (hnew q) }

/-- Everything PSEG, CSUM and EMIT deliver is legal, and so is what they leave in the pass. -/
theorem State.Inv.delivers {s t : State} (h : s.Inv) (hd : Delivers s t) : t.Inv := by
  obtain ⟨new, ht, hnew, hpass⟩ := hd
  rw [ht]
  exact (h.append_outq fun q hq => h.made_legal q (hnew q hq)).with_pass _ fun q hq =>
    (hpass q hq).elim (h.made_legal q) (h.packets_legal q)

/-- A new pass with the packets of the old one. -/
theorem State.Inv.with_pass_same {s : State} (h : s.Inv) {p : Pass} (hp : p.packets = s.pass.packets) :
    ({ s with pass := p } : State).Inv :=
  h.with_pass p (hp ▸ h.packets_legal)

/-- PSEG's packets are legal: they carry a slot of the table or none, and no verdict yet (R171, R72). -/
theorem State.Inv.segmentBytes_legal {s : State} (h : s.Inv) (bytes : List DecodedByte) :
    ∀ q ∈ segmentBytes s.hdr bytes, q.Legal := by
  intro q hq
  obtain ⟨hne, hchk, hslot⟩ := segmentBytes_mem s.hdr bytes q hq
  exact ⟨hne, fun k hk => Nat.lt_of_lt_of_le (hslot k hk) h.hdr_count, by simp [hchk]⟩

theorem exec_worksOnPass_inv {i : Instr} {s t : State} (hi : worksOnPass i = true) (h : s.Inv)
    (he : exec i s = .next t) : t.Inv := by
  obtain ⟨p, hp, hpackets⟩ := exec_worksOnPass i s hi
  cases hp.symm.trans he
  obtain hsame | hpseg | rfl := hpackets
  · exact h.with_pass_same hsame
  · exact h.with_pass p (hpseg ▸ h.segmentBytes_legal _)
  · exact h.with_pass _ (csumPass_mem _ _ h.packets_legal)

/-! ### Every operation, and the step -/

theorem State.Inv.command_error {s : State} (h : s.Inv) : (commandError s).Inv := h.with_flags _ _ _ _ _

theorem State.Inv.return_result {s : State} (h : s.Inv) (r : Result) : (returnResult s r).Inv := h.with_flags _ _ _ _ _

theorem exec_inv {i : Instr} {s t : State} (h : s.Inv) (he : exec i s = .next t) : t.Inv := by
  by_cases hi : worksOnPass i = true
  · exact exec_worksOnPass_inv hi h he
  cases i with
  | reset =>
    cases he
    exact State.inv_reset.with_flags _ _ _ _ _
  | cfgw r v =>
    obtain rfl | ⟨hr, rfl⟩ := execCfgw_next he
    · exact h.command_error
    · exact h.write_register hr
  | cfgr r =>
    obtain ⟨v, rfl | rfl⟩ := execCfgr_next he
    · exact h.return_result v
    · exact h.command_error.return_result v
  | hdradd len packed =>
    obtain rfl | ⟨hr, rfl⟩ := execHdradd_next he
    · exact h.command_error
    · exact h.add_header hr
  | hdrclr =>
    obtain rfl | rfl := execHdrclr_next he
    · exact h.command_error
    · exact h.clear_headers
  | start =>
    obtain rfl | rfl | ⟨-, hv, rfl⟩ := execStart_next he
    · exact h
    · exact h.with_flags _ _ _ _ _
    · exact (h.clear_capture true fun _ => hv).with_flags _ _ _ _ _
  | stop =>
    cases he
    exact h.clear_capture false (by simp)
  | edge level ts =>
    obtain rfl | ⟨hrun, hsel, hts, rfl⟩ := execEdge_next he
    · exact h
    · exact h.push_edge hrun hsel hts
  | rxbyte value ts =>
    obtain rfl | ⟨hrun, hsel, hts, rfl⟩ := execRxbyte_next he
    · exact h
    · exact h.push_byte hrun hsel hts
  | poll now =>
    obtain rfl | hd := execPoll_next he
    · exact h
    · exact h.swap.delivers hd
  | outpop =>
    cases he
    exact { h with outq_legal := fun q hq => h.outq_legal q (List.mem_of_mem_tail hq) }
  | bclose =>
    obtain ⟨p, rfl, hp⟩ := execBclose_next he
    exact h.swap.with_pass_same (hp.trans (congrArg Pass.packets (swapped_pass s)).symm)
  | sdec =>
    obtain ⟨p, rfl, hp⟩ := execSdec_next he
    exact h.with_pass_same hp
  | emit =>
    cases he
    exact (h.append_outq h.packets_legal).with_pass _ h.packets_legal
  | _ => exact absurd rfl hi

/-- A trace item that is no operation at most sets `CMD_ERR` (R198). -/
theorem undefinedItem_next {item : Input} {s t : State} (h : undefinedItem item s = .next t) : t = commandError s := by
  cases item with
  | command w => cases h; rfl
  | stage id => cases h
  | wire shape bits => cases h

/-- What a step answers: the state itself when nothing is pending, else what the item makes of the issued state. -/
theorem step_next {s t : State} (h : step s = .next t) :
    t = s ∨ ∃ rest, t = commandError (s.issue rest) ∨ ∃ i, exec i (s.issue rest) = .next t := by
  unfold step at h
  split at h
  next => cases h; exact .inl rfl
  next item rest _ =>
    split at h
    next i _ => exact .inr ⟨rest, .inr ⟨i, h⟩⟩
    next => exact .inr ⟨rest, .inl (undefinedItem_next h)⟩

/-- Settles O11: an issued item meets the invariant, since the trace and the tick are no part of it, and every operation
keeps it. -/
theorem everyStepKeepsTheInvariant : Obligations.EveryStepKeepsTheInvariant := by
  intro s t h hstep
  have hissue (rest : List Input) : (s.issue rest).Inv := h.with_flags _ _ _ _ _
  obtain rfl | ⟨rest, rfl | ⟨i, he⟩⟩ := step_next hstep
  · exact h
  · exact (hissue rest).command_error
  · exact exec_inv (hissue rest) he

end Sys2Proof.Machine
end

section
/-! SUPPORT. A decode pass reads nothing of the pass it finds but the streams (10_state.md R13): two passes that agree on
them go through SDEC, PSEG, CSUM and EMIT side by side. -/

namespace Sys2Proof.Machine

/-! ### Two passes side by side -/

/-- The two passes agree on everything a trip of the SDEC loop reads before it writes it. -/
structure SameSearch (p q : Pass) : Prop where
  tl : p.tl = q.tl
  tlTotal : p.tlTotal = q.tlTotal
  streams : p.streams = q.streams
  tCur : p.tCur = q.tCur
  dbytes : p.dbytes = q.dbytes
  first : p.first = q.first

/-- A start edge has been found at `t`, and no bit of its frame is sampled yet (R17, R150). -/
structure Anchored (t : Nat) (p : Pass) : Prop where
  answer : p.answer = true
  startEdge : p.startEdge = t
  bitIdx : p.bitIdx = 0
  frameSr : p.frameSr = []

/-- Two searches that agree, and found the same start edge or none. -/
def SameFound (p q : Pass) : Prop :=
  SameSearch p q ∧ ((p.answer = false ∧ q.answer = false) ∨ ∃ t, Anchored t p ∧ Anchored t q)

variable {p q : Pass}

theorem anchored_anchorAt (p : Pass) (t : Nat) : Anchored t (anchorAt p t) := ⟨rfl, rfl, rfl, rfl⟩

theorem SameSearch.of_keepsStream {p' q' : Pass} (h : SameSearch p q) (hp : KeepsStream p p') (hq : KeepsStream q q')
    (tCur : p'.tCur = q'.tCur) (dbytes : p'.dbytes = q'.dbytes) (first : p'.first = q'.first) : SameSearch p' q' where
  tl := hp.tl.trans (h.tl.trans hq.tl.symm)
  tlTotal := hp.tlTotal.trans (h.tlTotal.trans hq.tlTotal.symm)
  streams := hp.streams.trans (h.streams.trans hq.streams.symm)
  tCur := tCur
  dbytes := dbytes
  first := first

/-! ### What the stages read of the pass -/

theorem SameSearch.levelAt_eq (h : SameSearch p q) (e : Env) (t : Int) : p.levelAt e t = q.levelAt e t := by
  simp only [Pass.levelAt, h.tl, h.tlTotal]

theorem SameSearch.fallAt_eq (h : SameSearch p q) (e : Env) (t : Nat) : fallAt e p t = fallAt e q t := by
  simp only [fallAt, h.levelAt_eq]

theorem SameSearch.firstLevel_eq (h : SameSearch p q) (e : Env) : firstLevel e p = firstLevel e q := by
  simp only [firstLevel, Pass.stream, h.streams]

theorem SameSearch.hstopTest_eq (h : SameSearch p q) (e : Env) : hstopTest e p = hstopTest e q := by
  simp only [hstopTest, h.tlTotal, h.tCur]

theorem SameSearch.votesAt_eq (h : SameSearch p q) (hs : p.startEdge = q.startEdge) (e : Env) (i : Nat) :
    votesAt e p i = votesAt e q i := by
  simp only [votesAt, h.levelAt_eq, hs]

/-! ### A trip, side by side -/

theorem SameSearch.anchor0 (h : SameSearch p q) (e : Env) : SameFound (anchor0Pass e p) (anchor0Pass e q) := by
  unfold anchor0Pass
  rw [h.firstLevel_eq e]
  split
  · exact ⟨{ h with }, .inl ⟨rfl, rfl⟩⟩
  · exact ⟨{ h with }, .inr ⟨0, anchored_anchorAt p 0, anchored_anchorAt q 0⟩⟩

theorem SameSearch.hunt (h : SameSearch p q) (e : Env) : SameFound (huntPass e p) (huntPass e q) := by
  unfold huntPass
  rw [h.fallAt_eq e, h.tCur]
  split
  · exact ⟨{ h with tCur := rfl }, .inr ⟨_, anchored_anchorAt _ _, anchored_anchorAt _ _⟩⟩
  · exact ⟨{ h with tCur := rfl }, .inl ⟨rfl, rfl⟩⟩

/-- The mark of the first trip is cleared. -/
theorem SameFound.not_first (h : SameFound p q) : SameFound { p with first := false } { q with first := false } := by
  obtain ⟨hsame, hnone | ⟨t, hp, hq⟩⟩ := h
  · exact ⟨{ hsame with first := rfl }, .inl hnone⟩
  · exact ⟨{ hsame with first := rfl }, .inr ⟨t, { hp with }, { hq with }⟩⟩

/-- The search of a trip is one HUNT, or ANCHOR0 and, when it does not anchor, one HUNT. -/
theorem SameSearch.search (h : SameSearch p q) (e : Env) : SameFound (findStart e p) (findStart e q) := by
  cases hf : p.first with
  | false =>
    rw [findStart_later e p hf, findStart_later e q (h.first ▸ hf)]
    exact h.hunt e
  | true =>
    have hf' : q.first = true := h.first ▸ hf
    have hanchor := h.anchor0 e
    obtain ⟨hsame, ⟨hp, hq⟩ | ⟨t, hp, hq⟩⟩ := h.anchor0 e
    · rw [findStart_hunted e p hf hp, findStart_hunted e q hf' hq]
      exact (hsame.hunt e).not_first
    · rw [findStart_anchored e p hf hp.answer, findStart_anchored e q hf' hq.answer]
      exact hanchor.not_first

/-- The same start edge gives the same frame, the same byte, and the same cursor behind it. -/
theorem SameSearch.frame (h : SameSearch p q) {t : Nat} (hp : Anchored t p) (hq : Anchored t q) (e : Env) :
    SameSearch (decodeFrame e p) (decodeFrame e q) := by
  obtain ⟨hkp, hfp, htp⟩ := decodeFrame_spec e p
  obtain ⟨hkq, hfq, htq⟩ := decodeFrame_spec e q
  have hstart : p.startEdge = q.startEdge := hp.startEdge.trans hq.startEdge.symm
  refine h.of_keepsStream hkp hkq ?_ ?_ ?_
  · rw [htp, htq, hstart]
  · rw [decodeFrame_bytes e p hp.bitIdx hp.frameSr, decodeFrame_bytes e q hq.bitIdx hq.frameSr, h.dbytes]
    simp only [h.votesAt_eq hstart]
  · rw [hfp, hfq, h.first]

theorem SameSearch.trip (h : SameSearch p q) (e : Env) : SameSearch (tripPass e p) (tripPass e q) := by
  unfold tripPass
  obtain ⟨hsame, ⟨hp, hq⟩ | ⟨t, hp, hq⟩⟩ := h.search e
  · rw [if_neg (by simp [hp]), if_neg (by simp [hq])]
    exact hsame
  · rw [if_pos hp.answer, if_pos hq.answer]
    exact hsame.frame hp hq e

/-! ### The loop, side by side -/

theorem SameSearch.trips (e : Env) (fuel : Nat) (h : SameSearch p q) :
    Option.Rel SameSearch (tripsUntilStop e fuel p) (tripsUntilStop e fuel q) := by
  induction fuel generalizing p q with
  | zero => exact .none
  | succ n ih =>
    have htested : SameSearch (hstopPass e p) (hstopPass e q) := { h with }
    have hanswer : (hstopPass e p).answer = (hstopPass e q).answer := h.hstopTest_eq e
    rw [tripsUntilStop_succ, tripsUntilStop_succ, hanswer]
    split
    · exact .some htested
    · exact ih (htested.trip e)

/-- Of what a trip reads, pass entry overwrites all but the streams (R130). -/
theorem sameSearch_enterPass (h : p.streams = q.streams) : SameSearch (enterPass p) (enterPass q) := by
  have hs : p.stream = q.stream := congrArg (·.headD []) h
  exact ⟨congrArg (timelineFrom 0) hs, congrArg streamTotal hs, h, rfl, rfl, rfl⟩

theorem sdecPass_same (e : Env) (h : p.streams = q.streams) :
    Option.Rel SameSearch (sdecPass e p) (sdecPass e q) := by
  have henter := sameSearch_enterPass h
  unfold sdecPass
  rw [henter.tlTotal]
  exact henter.trips e _

end Sys2Proof.Machine
end

section
/-! SUPPORT. The close sequence on two states that differ in the pass alone, and the statement that this difference never
shows (10_state.md R13). -/

namespace Sys2Proof.Machine

/-- Related options are both none, or hold related values. -/
theorem optionRel_elim {α : Type} {R : α → α → Prop} {a b : Option α} (h : Option.Rel R a b) :
    (a = none ∧ b = none) ∨ ∃ x y, a = some x ∧ b = some y ∧ R x y := by
  cases h with
  | none => exact .inl ⟨rfl, rfl⟩
  | some hxy => exact .inr ⟨_, _, rfl, rfl, hxy⟩

theorem optionRel_mono {α : Type} {R S : α → α → Prop} {a b : Option α} (h : Option.Rel R a b)
    (hRS : ∀ x y, R x y → S x y) : Option.Rel S a b := by
  cases h with
  | none => exact .none
  | some hxy => exact .some (hRS _ _ hxy)

/-- The two states differ in the pass alone, and not in the streams still to decode. -/
def SameBurst (s t : State) : Prop := SameButPass s t ∧ s.pass.streams = t.pass.streams

theorem sameButPass_iff (s t : State) : SameButPass s t ↔ ∃ p : Pass, t = { s with pass := p } := by
  constructor
  · exact fun h => ⟨t.pass, h.symm⟩
  · rintro ⟨p, rfl⟩
    rfl

/-- What PSEG, CSUM and EMIT deliver depends on the bytes alone. -/
theorem finishStream_sameButPass (s : State) {p q : Pass} (hd : p.dbytes = q.dbytes) :
    SameButPass (finishStream { s with pass := p }) (finishStream { s with pass := q }) := by
  have hpackets : (csumPass s.env { p with packets := segmentBytes s.hdr p.dbytes }).packets =
      (csumPass s.env { q with packets := segmentBytes s.hdr q.dbytes }).packets := by
    unfold csumPass
    rw [hd]
    split <;> rfl
  exact congrArg (fun new => { s with outq := s.outq ++ new, pass := (finishStream { s with pass := q }).pass }) hpackets

theorem finishStream_same (s : State) {p q : Pass} (hd : p.dbytes = q.dbytes) (hs : p.streams = q.streams) :
    SameBurst (finishStream { s with pass := p }) (finishStream { s with pass := q }) := by
  refine ⟨finishStream_sameButPass s hd, ?_⟩
  rw [(finishStream_delivers _).2, (finishStream_delivers _).2]
  exact congrArg List.tail hs

theorem decodeStream_same {s t : State} (h : SameBurst s t) :
    Option.Rel SameBurst (decodeStream s) (decodeStream t) := by
  obtain ⟨hpass, hs⟩ := h
  obtain ⟨p, rfl⟩ := (sameButPass_iff s t).1 hpass
  have henv : ({ s with pass := p } : State).env = s.env := rfl
  unfold decodeStream
  rw [henv]
  obtain ⟨ha, hb⟩ | ⟨a, b, ha, hb, hsame⟩ := optionRel_elim (sdecPass_same s.env hs)
  · rw [ha, hb]
    exact .none
  · rw [ha, hb]
    exact .some (finishStream_same s hsame.dbytes hsame.streams)

theorem decodeStreams_same (n : Nat) {s t : State} (h : SameBurst s t) :
    Option.Rel SameBurst (decodeStreams n s) (decodeStreams n t) := by
  induction n generalizing s t with
  | zero => exact .some h
  | succ n ih =>
    unfold decodeStreams
    obtain ⟨hs, ht⟩ | ⟨s', t', hs, ht, hsame⟩ := optionRel_elim (decodeStream_same h)
    · rw [hs, ht]
      exact .none
    · rw [hs, ht]
      exact ih hsame

/-- SPLIT makes the streams of the burst alone. -/
theorem decodeBurst_same {s t : State} (h : SameButPass s t) (hrle : s.pass.rle = t.pass.rle) :
    Option.Rel SameBurst (decodeBurst s) (decodeBurst t) := by
  obtain ⟨p, rfl⟩ := (sameButPass_iff s t).1 h
  have hcut : SameBurst (withPass s splitPass) (withPass { s with pass := p } splitPass) :=
    ⟨rfl, congrArg (splitStreams s.env) hrle⟩
  simp only [decodeBurst]
  rw [hcut.2]
  exact decodeStreams_same _ hcut

theorem closeBurst_bytes (now : U64) {s : State} (hsel : s.cfg.inputSel = true) :
    closeBurst now s = some (finishStream (closeBytes { s with pass := { s.pass with closeTs := now } })) := by
  have hclose : closeBuffer { s with pass := { s.pass with closeTs := now } } = closeBytes _ := if_pos hsel
  rw [closeBurst, hclose, if_pos hsel]

theorem closeBurst_edges (now : U64) {s : State} (hsel : ¬ s.cfg.inputSel = true) :
    closeBurst now s = decodeBurst (closeEdges { s with pass := { s.pass with closeTs := now } }) := by
  have hclose : closeBuffer { s with pass := { s.pass with closeTs := now } } = closeEdges _ := if_neg hsel
  rw [closeBurst, hclose, if_neg hsel]

/-- The close sequence writes the bytes, or the burst and its streams, before it reads them (R100, R105). -/
theorem closeBurst_same (now : U64) (s : State) (p : Pass) :
    Option.Rel SameButPass (closeBurst now s) (closeBurst now { s with pass := p }) := by
  by_cases hsel : s.cfg.inputSel = true
  · rw [closeBurst_bytes now hsel, closeBurst_bytes now (s := { s with pass := p }) hsel]
    exact .some (finishStream_sameButPass { s with bbuf := [], bank := !s.bank }
      (p := { s.pass with closeTs := now, dbytes := s.bbuf.map framedByte })
      (q := { p with closeTs := now, dbytes := s.bbuf.map framedByte }) rfl)
  · rw [closeBurst_edges now hsel, closeBurst_edges now (s := { s with pass := p }) hsel]
    exact optionRel_mono (decodeBurst_same rfl rfl) fun _ _ h => h.1

theorem execPoll_same (now : U64) (s : State) (p : Pass) :
    SameOutcome (execPoll now s) (execPoll now { s with pass := p }) := by
  have hwhen : pollCloses now { s with pass := p } = pollCloses now s := rfl
  unfold execPoll
  rw [hwhen]
  split
  · obtain ⟨ha, hb⟩ | ⟨a, b, ha, hb, hsame⟩ := optionRel_elim (closeBurst_same now s p)
    · rw [ha, hb]
      rfl
    · rw [ha, hb]
      exact hsame
  · rfl

/-- A choice that does not depend on the pass. -/
theorem rel_ite {α : Type} (R : α → α → Prop) (c : Bool) {a a' b b' : α} (ha : R a a') (hb : R b b') :
    R (if c then a else b) (if c then a' else b') := by
  split
  · exact ha
  · exact hb

/-- Settles O55: RESET overwrites the pass, a POLL reads of it only what its own stages wrote, and the other port operations
neither read nor write it. -/
theorem deadStateNeverShows : Obligations.DeadStateNeverShows := by
  intro i s t hi h
  obtain ⟨p, rfl⟩ := (sameButPass_iff s t).1 h
  cases i with
  | reset | stop | outpop => rfl
  | cfgw r v => exact rel_ite SameButPass (cfgwRejected s r v) rfl rfl
  | cfgr r =>
    have hread : readReg { s with pass := p } r = readReg s r := rfl
    show SameOutcome (execCfgr r s) (execCfgr r { s with pass := p })
    unfold execCfgr
    rw [hread]
    split <;> rfl
  | hdradd len packed => exact rel_ite SameButPass (hdraddRejected Config.nHdr s len packed) rfl rfl
  | hdrclr => exact rel_ite SameButPass s.run rfl rfl
  | start => exact rel_ite SameButPass s.run rfl (rel_ite SameButPass s.cfg.valid rfl rfl)
  | edge level ts =>
    exact rel_ite SameOutcome (!s.run || s.cfg.inputSel) rfl
      (rel_ite SameOutcome (!s.ebuf.isEmpty && ts.toNat < s.lastTs.toNat) rfl rfl)
  | rxbyte value ts =>
    exact rel_ite SameOutcome (!s.run || !s.cfg.inputSel) rfl
      (rel_ite SameOutcome (!s.bbuf.isEmpty && ts.toNat < s.lastTs.toNat) rfl rfl)
  | poll now => exact execPoll_same now s p
  | _ => exact absurd hi (by simp [isPortOp])

end Sys2Proof.Machine
end

section
/-! SUPPORT. What an open session keeps (20_memory.md R54, R56): the configuration, the header table and, between the
buffer and the snapshots taken of it, the edges. -/

namespace Sys2Proof.Machine

/-! ### The step -/

theorem step_of_decode {s : State} {item : Input} {rest : List Input} {i : Instr} (hinput : s.input = item :: rest)
    (hdecode : decode item = some i) : step s = exec i (s.issue rest) := by
  unfold step
  rw [hinput]
  dsimp only
  rw [hdecode]

/-- Settles O6: the issued state is `s` with the item gone, nothing returned, and the tick moved on. -/
theorem stepRunsTheDecodedOperation : Obligations.StepRunsTheDecodedOperation := by
  intro s item rest i hinput hdecode
  exact step_of_decode hinput hdecode

/-! ### Host operations on an open session -/

section
variable {s : State} (hrun : s.run = true)
include hrun

theorem execCfgw_open (r : Byte) (v : U64) : execCfgw r v s = .next (commandError s) := by
  rw [execCfgw, if_pos ((cfgwRejected_iff s r v).2 (.inl hrun))]

theorem execHdradd_open (len : Byte) (packed : U64) : execHdradd len packed s = .next (commandError s) := by
  rw [execHdradd, if_pos ((hdraddRejected_iff Config.nHdr s len packed).2 (.inl hrun))]

theorem execHdrclr_open : execHdrclr s = .next (commandError s) := by
  rw [execHdrclr, if_pos hrun]

theorem execStart_open : execStart s = .next s := by
  rw [execStart, if_pos hrun]

end

/-! ### The buffer and its snapshots -/

@[simp] theorem swapped_cfg (s : State) : s.swapped.cfg = s.cfg := by
  unfold State.swapped
  split <;> rfl

@[simp] theorem swapped_hdr (s : State) : s.swapped.hdr = s.hdr := by
  unfold State.swapped
  split <;> rfl

/-- BCLOSE's snapshot is what the swap takes out of `EBUF` (R47). -/
theorem snapshot_append_swapped (s : State) : edgeSnapshot .bclose s ++ s.swapped.ebuf = s.ebuf := by
  unfold State.swapped
  cases hsel : s.cfg.inputSel <;> simp [edgeSnapshot, hsel]

/-- A POLL that closes takes the snapshot BCLOSE takes, any other takes none. -/
theorem edgeSnapshot_poll (now : U64) (s : State) :
    edgeSnapshot (.poll now) s = if pollCloses now s then edgeSnapshot .bclose s else [] := by
  cases hclose : pollCloses now s <;> cases hsel : s.cfg.inputSel <;> simp [edgeSnapshot, hclose, hsel]

/-- An EDGE adds its event exactly when it is not dropped (R101). -/
theorem acceptedEdge_edge (level : Level) (ts : U64) (s : State) :
    acceptedEdge (.edge level ts) s = if !s.run || s.cfg.inputSel then [] else [⟨level, ts⟩] := by
  cases hrun : s.run <;> cases hsel : s.cfg.inputSel <;> simp [acceptedEdge, hrun, hsel]

/-- An EDGE is dropped, or accepted and appended. -/
theorem execEdge_accepts {s t : State} {level : Level} {ts : U64} (h : execEdge level ts s = .next t) :
    (acceptedEdge (.edge level ts) s = [] ∧ t = s) ∨
      (acceptedEdge (.edge level ts) s = [⟨level, ts⟩] ∧ t = pushEdge s level ts) := by
  rw [acceptedEdge_edge]
  unfold execEdge at h
  split at h
  next hdropped =>
    cases h
    exact .inl ⟨if_pos hdropped, rfl⟩
  next hopen =>
    split at h
    next => cases h
    next =>
      cases h
      exact .inr ⟨if_neg hopen, rfl⟩

/-- A POLL changes nothing, or closes the burst. -/
theorem execPoll_closes {s t : State} {now : U64} (h : execPoll now s = .next t) :
    (pollCloses now s = false ∧ t = s) ∨ (pollCloses now s = true ∧ Delivers s.swapped t) := by
  cases hclose : pollCloses now s with
  | false =>
    rw [execPoll, hclose] at h
    cases h
    exact .inl ⟨rfl, rfl⟩
  | true =>
    rw [execPoll, hclose, if_pos rfl] at h
    split at h
    next u hu =>
      cases h
      exact .inr ⟨rfl, closeBurst_delivers now s _ hu⟩
    next => cases h

/-! ### One operation in an open session -/

/-- What an operation `i` from `s` to `t` keeps of an open session: the configuration, the header table, and the edges,
each of which is in the snapshot taken or still in `EBUF`. -/
structure KeepsSession (i : Instr) (s t : State) : Prop where
  cfg : t.cfg = s.cfg
  hdr : t.hdr = s.hdr
  edges : edgeSnapshot i s ++ t.ebuf = s.ebuf ++ acceptedEdge i s

section
variable {i : Instr} {s t : State}

/-- An operation that takes no snapshot, accepts no edge and leaves `EBUF` alone. -/
theorem KeepsSession.of_idle (hsnap : edgeSnapshot i s = []) (hacc : acceptedEdge i s = []) (cfg : t.cfg = s.cfg)
    (hdr : t.hdr = s.hdr) (ebuf : t.ebuf = s.ebuf) : KeepsSession i s t where
  cfg := cfg
  hdr := hdr
  edges := by rw [hsnap, hacc, ebuf, List.nil_append, List.append_nil]

/-- An operation that accepts no edge, takes BCLOSE's snapshot, and swaps as BCLOSE does. -/
theorem KeepsSession.of_swap {p : Pass} {out : List Packet} (hsnap : edgeSnapshot i s = edgeSnapshot .bclose s)
    (hacc : acceptedEdge i s = []) (ht : t = { s.swapped with pass := p, outq := out }) : KeepsSession i s t := by
  subst ht
  refine ⟨swapped_cfg s, swapped_hdr s, ?_⟩
  rw [hsnap, hacc, List.append_nil]
  exact snapshot_append_swapped s

theorem worksOnPass_idle (hi : worksOnPass i = true) (s : State) : edgeSnapshot i s = [] ∧ acceptedEdge i s = [] := by
  cases i with
  | edge | poll | bclose => exact absurd hi Bool.false_ne_true
  | _ => exact ⟨rfl, rfl⟩

/-- No operation but RESET, which clears the configuration, and STOP, which discards the edges, loses any of them. -/
theorem exec_keepsSession (hreset : i ≠ .reset) (hstop : i ≠ .stop) (hrun : s.run = true) (h : exec i s = .next t) :
    KeepsSession i s t := by
  by_cases hi : worksOnPass i = true
  · obtain ⟨p, hp, -⟩ := exec_worksOnPass i s hi
    obtain ⟨hsnap, hacc⟩ := worksOnPass_idle hi s
    cases hp.symm.trans h
    exact .of_idle hsnap hacc rfl rfl rfl
  cases i with
  | reset => exact absurd rfl hreset
  | stop => exact absurd rfl hstop
  | cfgw r v =>
    cases (execCfgw_open hrun r v).symm.trans h
    exact .of_idle rfl rfl rfl rfl rfl
  | cfgr r => obtain ⟨v, rfl | rfl⟩ := execCfgr_next h <;> exact .of_idle rfl rfl rfl rfl rfl
  | hdradd len packed =>
    cases (execHdradd_open hrun len packed).symm.trans h
    exact .of_idle rfl rfl rfl rfl rfl
  | hdrclr =>
    cases (execHdrclr_open hrun).symm.trans h
    exact .of_idle rfl rfl rfl rfl rfl
  | start =>
    cases (execStart_open hrun).symm.trans h
    exact .of_idle rfl rfl rfl rfl rfl
  | edge level ts =>
    obtain ⟨hacc, rfl⟩ | ⟨hacc, rfl⟩ := execEdge_accepts h
    · exact .of_idle rfl hacc rfl rfl rfl
    · exact ⟨rfl, rfl, by rw [hacc]; rfl⟩
  | rxbyte value ts => obtain rfl | ⟨-, -, -, rfl⟩ := execRxbyte_next h <;> exact .of_idle rfl rfl rfl rfl rfl
  | poll now =>
    have hsnap := edgeSnapshot_poll now s
    obtain ⟨hwait, rfl⟩ | ⟨hclose, new, ht, -⟩ := execPoll_closes h
    · rw [hwait] at hsnap
      exact .of_idle hsnap rfl rfl rfl rfl
    · rw [hclose] at hsnap
      exact .of_swap hsnap rfl ht
  | outpop | emit =>
    cases h
    exact .of_idle rfl rfl rfl rfl rfl
  | bclose =>
    obtain ⟨p, rfl, -⟩ := execBclose_next h
    exact .of_swap rfl rfl rfl
  | sdec =>
    obtain ⟨p, rfl, -⟩ := execSdec_next h
    exact .of_idle rfl rfl rfl rfl rfl
  | _ => exact absurd rfl hi

/-- A session stays open over every operation but RESET and STOP. -/
theorem exec_stays_open (hreset : i ≠ .reset) (hstop : i ≠ .stop) (hrun : s.run = true) (h : exec i s = .next t) :
    t.run = true := by
  obtain ⟨-, hclose⟩ := onlyStartStopAndResetMoveTheSession i s t h
  exact Bool.of_not_eq_false fun hend => (hclose hrun hend).elim hstop hreset

end

/-- Settles O57: STOP leaves both alone too. -/
theorem configurationIsLockedWhileRunning : Obligations.ConfigurationIsLockedWhileRunning := by
  intro i s t hreset hrun h
  by_cases hstop : i = .stop
  · subst hstop
    cases h
    exact ⟨rfl, rfl⟩
  · have hkeeps := exec_keepsSession hreset hstop hrun h
    exact ⟨hkeeps.cfg, hkeeps.hdr⟩

/-! ### Runs in an open session -/

/-- A run that completes, cut behind its first operation. -/
theorem runInstrs_cons_next {i : Instr} {is : List Instr} {s t : State} (h : runInstrs (i :: is) s = .next t) :
    ∃ u, exec i s = .next u ∧ runInstrs is u = .next t := by
  unfold runInstrs at h
  split at h
  next u hu => exact ⟨u, hu, h⟩
  next => cases h
  next => cases h

theorem collectRun_cons (f : Instr → State → List EdgeEvent) {i : Instr} (is : List Instr) {s u : State}
    (h : exec i s = .next u) : collectRun f (i :: is) s = f i s ++ collectRun f is u := by
  rw [collectRun, h]

/-- The edges met, followed by those accepted, are the snapshots, followed by the edges left. -/
theorem runInstrs_keeps_edges {is : List Instr} {s t : State} (hops : ∀ i ∈ is, i ≠ .reset ∧ i ≠ .stop)
    (hrun : s.run = true) (h : runInstrs is s = .next t) :
    collectRun edgeSnapshot is s ++ t.ebuf = s.ebuf ++ collectRun acceptedEdge is s := by
  induction is generalizing s with
  | nil =>
    cases h
    exact (List.append_nil _).symm
  | cons i is ih =>
    obtain ⟨u, hu, hrest⟩ := runInstrs_cons_next h
    obtain ⟨⟨hreset, hstop⟩, hops⟩ := List.forall_mem_cons.1 hops
    have hstep := (exec_keepsSession hreset hstop hrun hu).edges
    have htail := ih hops (exec_stays_open hreset hstop hrun hu) hrest
    rw [collectRun_cons _ _ hu, collectRun_cons _ _ hu]
    calc edgeSnapshot i s ++ collectRun edgeSnapshot is u ++ t.ebuf
      _ = edgeSnapshot i s ++ u.ebuf ++ collectRun acceptedEdge is u := by
        rw [List.append_assoc, htail, List.append_assoc]
      _ = s.ebuf ++ (acceptedEdge i s ++ collectRun acceptedEdge is u) := by rw [hstep, List.append_assoc]

/-- A START that opens a session leaves `EBUF` empty (R196). -/
theorem execStart_opens {s t : State} (hrun : s.run = false) (h : execStart s = .next t) (hopen : t.run = true) :
    t.ebuf = [] := by
  have hmoved : ¬ t.run = s.run := by rw [hrun, hopen]; decide
  obtain rfl | rfl | ⟨-, -, rfl⟩ := execStart_next h
  · exact absurd rfl hmoved
  · exact absurd rfl hmoved
  · rfl

/-- Settles O54: one operation conserves the edges, hence so does a run, and a session opens on an empty `EBUF`. -/
theorem noEdgeIsLostOrSeenTwice : Obligations.NoEdgeIsLostOrSeenTwice := by
  constructor
  · intro i s t hreset hstop hrun h
    exact (exec_keepsSession hreset hstop hrun h).edges
  · intro s s0 t is hrun hstart hopen hops h
    have hkeeps := runInstrs_keeps_edges hops hopen h
    rwa [execStart_opens hrun hstart hopen, List.nil_append] at hkeeps

end Sys2Proof.Machine
end

section
/-! SUPPORT. The decoder and the encoder, kind by kind of trace item, and the rows of R80 by mask and match
(30_encoding.md section 4). -/

namespace Sys2Proof

/-! ### The decoder is the converse of the encoder -/

/-- The encoding of a port operation is decoded to it. -/
theorem decodeCommand_of_encode {i : Instr} {w : BitVec 80} (h : encode i = .command w) : decodeCommand w = some i := by
  cases i with
  | reset | cfgw | cfgr | hdradd | hdrclr | start | stop | rxbyte | poll | outpop =>
    cases h
    simp [decodeCommand]
  | edge level ts =>
    cases h
    cases level <;> simp [decodeCommand]
  | _ => cases h

/-- A word that decodes has, in the fields its operation does not use, the zeros the encoder writes there (R75). -/
theorem encode_of_decodeCommand {i : Instr} {w : BitVec 80} (h : decodeCommand w = some i) : encode i = .command w := by
  rw [← commandWord_fields w]
  unfold decodeCommand at h
  dsimp only at h
  generalize opField w = op, aField w = a, vField w = v at h ⊢
  have word {op' a' : Byte} {v' : U64} (hop : op.toNat = op'.toNat) (ha : a = a') (hv : v = v') :
      Input.command (commandWord op' a' v') = .command (commandWord op a v) := by
    rw [BitVec.eq_of_toNat_eq hop, ha, hv]
  split at h
  -- `A` and `V` are operands
  case h_2 hop | h_4 hop | h_9 hop =>
    cases h
    exact word hop rfl rfl
  -- `A` and `V` must be zero
  case h_1 hop | h_5 hop | h_6 hop | h_7 hop | h_11 hop =>
    obtain ⟨⟨ha, hv⟩, hi⟩ := Option.ite_none_right_eq_some.1 h
    cases hi
    exact word hop ha hv
  case h_3 hop =>
    obtain ⟨hv, hi⟩ := Option.ite_none_right_eq_some.1 h
    cases hi
    exact word hop rfl hv
  case h_10 hop =>
    obtain ⟨ha, hi⟩ := Option.ite_none_right_eq_some.1 h
    cases hi
    exact word hop ha rfl
  -- `A` is a level
  case h_8 hop =>
    split at h
    next ha =>
      cases h
      exact word hop ha rfl
    next =>
      obtain ⟨ha, hi⟩ := Option.ite_none_right_eq_some.1 h
      cases hi
      exact word hop ha rfl
  case h_12 => cases h

theorem decode_encode_command {i : Instr} {w : BitVec 80} (h : encode i = .command w) : decode (encode i) = some i := by
  rw [h]
  exact decodeCommand_of_encode h

/-- A command word decodes to an operation exactly when it is the operation's encoding. -/
theorem decodeCommand_eq_some_iff {w : BitVec 80} {i : Instr} : decodeCommand w = some i ↔ encode i = .command w :=
  ⟨encode_of_decodeCommand, decodeCommand_of_encode⟩

theorem encode_of_decodeStage {i : Instr} {id : Byte} (h : decodeStage id = some i) : encode i = .stage id := by
  unfold decodeStage at h
  split at h
  case h_16 => cases h
  all_goals
    rename_i hid
    cases h
    exact congrArg Input.stage (BitVec.eq_of_toNat_eq hid.symm)

@[simp] theorem encode_frameInstr (shape : Shape) (bits : List Level) : encode (frameInstr shape bits) = .wire shape bits := by
  cases shape <;> rfl

@[simp] theorem decodeWire_eq_some_iff {shape : Shape} {bits : List Level} {i : Instr} :
    decodeWire shape bits = some i ↔ bits.length = shape.width ∧ frameInstr shape bits = i := by
  simp [decodeWire]

/-- Settles O1: a port operation and a stage decode to themselves, a frame does when it has the length of its shape. -/
theorem decodeOfEncodeIsTheOperation : Obligations.DecodeOfEncodeIsTheOperation := by
  intro i hwf
  cases i with
  | reset | cfgw | cfgr | hdradd | hdrclr | start | stop | edge | rxbyte | poll | outpop => exact decode_encode_command rfl
  | bclose | split | tlbuild | levelat | sdec | hstop | anchor0 | hunt | sample | maj3 => rfl
  | resync | fdec | pseg | csum | emit => rfl
  | frame8N1 | frame8E1 | frame8O1 | frame8N2 | frame7E1 | frame7O2 | frame5N1 =>
    exact decodeWire_eq_some_iff.2 ⟨of_decide_eq_true hwf, rfl⟩

/-- Settles O2: kind by kind of trace item. -/
theorem encodeOfDecodeIsTheItem : Obligations.EncodeOfDecodeIsTheItem := by
  intro item i h
  cases item with
  | command w => exact encode_of_decodeCommand h
  | stage id => exact encode_of_decodeStage h
  | wire shape bits =>
    obtain ⟨-, rfl⟩ := decodeWire_eq_some_iff.1 h
    exact encode_frameInstr shape bits

/-! ### Mask and match (R80) -/

/-- A byte is a level when all but its lowest bit are zero. -/
theorem and_levelMask_eq_zero_iff (a : Byte) : a &&& 0xFE = 0 ↔ (if a.getLsbD 0 then 1 else 0) = a := by
  revert a; decide

/-- A row of R80 fixes `OP` and masks `A` and `V`: it holds of the word of operation `i` and of no other when the two masks
say of the fields `A` and `V` that they are what the encoder writes there. -/
theorem row_iff_decodeCommand {w : BitVec 80} {i : Instr} (op aMask a : Byte) (vMask v : U64)
    (hencode : encode i = .command (commandWord op a v)) (ha : aField w &&& aMask = 0 ↔ a = aField w)
    (hv : vField w &&& vMask = 0 ↔ v = vField w) :
    w &&& commandWord 0xFF aMask vMask = commandWord op 0 0 ↔ decodeCommand w = some i := by
  have hop : opField w &&& 0xFF = opField w := BitVec.and_allOnes
  rw [decodeCommand_eq_some_iff, hencode, Input.command.injEq, ← commandWord_fields w]
  simp only [commandWord_and, commandWord_inj, hop, ha, hv, eq_comm (a := op)]

/-- Settles O3: a field the row's mask covers must be zero, one it leaves out is free, and `A` of EDGE is a level. -/
theorem commandWordIsTheOperationOfItsRow : Obligations.CommandWordIsTheOperationOfItsRow := by
  intro w
  have zero {n : Nat} (x : BitVec n) : x &&& BitVec.allOnes n = 0 ↔ 0 = x := by rw [BitVec.and_allOnes, eq_comm]
  have free {n : Nat} (x : BitVec n) : x &&& 0 = 0 ↔ x = x := iff_of_true BitVec.and_zero rfl
  have level : aField w &&& 0xFE = 0 ↔ (if w.getLsbD 64 then 1 else 0) = aField w := by
    simpa [aField] using and_levelMask_eq_zero_iff (aField w)
  exact ⟨
    row_iff_decodeCommand 0x01 _ _ _ _ rfl (zero _) (zero _), -- RESET
    row_iff_decodeCommand 0x02 _ _ _ _ rfl (free _) (free _), -- CFGW
    row_iff_decodeCommand 0x03 _ _ _ _ rfl (free _) (zero _), -- CFGR
    row_iff_decodeCommand 0x04 _ _ _ _ rfl (free _) (free _), -- HDRADD
    row_iff_decodeCommand 0x05 _ _ _ _ rfl (zero _) (zero _), -- HDRCLR
    row_iff_decodeCommand 0x06 _ _ _ _ rfl (zero _) (zero _), -- START
    row_iff_decodeCommand 0x07 _ _ _ _ rfl (zero _) (zero _), -- STOP
    row_iff_decodeCommand 0x08 _ _ _ _ rfl level (free _), -- EDGE
    row_iff_decodeCommand 0x09 _ _ _ _ rfl (free _) (free _), -- RXBYTE
    row_iff_decodeCommand 0x0A _ _ _ _ rfl (zero _) (free _), -- POLL
    row_iff_decodeCommand 0x0B _ _ _ _ rfl (zero _) (zero _)⟩ -- OUTPOP

/-- Settles O4, by running the decoder on each item. -/
theorem wordsOfTheSpecDecode : Obligations.WordsOfTheSpecDecode := by
  unfold Obligations.WordsOfTheSpecDecode
  decide

end Sys2Proof
end

section
/-! SUPPORT. The record layouts (30_encoding.md R70, R71). -/

namespace Sys2Proof.Machine

/-- A flag above a field. -/
theorem getLsbD_ofBool_append {n : Nat} (b : Bool) (x : BitVec n) : (BitVec.ofBool b ++ x).getLsbD n = b := by
  rw [BitVec.getLsbD_append, if_neg (Nat.lt_irrefl n), Nat.sub_self]
  cases b <;> rfl

theorem unpackEdge_packEdge (x : EdgeEvent) : unpackEdge (packEdge x) = x :=
  congrArg₂ EdgeEvent.mk (getLsbD_ofBool_append _ _) BitVec.extractLsb'_append_eq_right

theorem unpackRxByte_packRxByte (x : RxByte) : unpackRxByte (packRxByte x) = x :=
  congrArg₂ RxByte.mk BitVec.extractLsb'_append_eq_left BitVec.extractLsb'_append_eq_right

theorem unpackRunLength_packRunLength (x : RunLength) : unpackRunLength (packRunLength x) = x :=
  congrArg₂ RunLength.mk (getLsbD_ofBool_append _ _) BitVec.extractLsb'_append_eq_right

theorem unpackDecodedByte_packDecodedByte (x : DecodedByte) : unpackDecodedByte (packDecodedByte x) = x := by
  have hvalue : (packDecodedByte x).extractLsb' 0 8 = x.value := by
    apply BitVec.eq_of_getLsbD_eq
    intro i hi
    rw [BitVec.getLsbD_extractLsb', packDecodedByte, BitVec.getLsbD_append, if_pos (by omega), BitVec.getLsbD_append,
      if_pos (by omega), Nat.zero_add, decide_eq_true hi, Bool.true_and]
  have hparity : (packDecodedByte x).getLsbD 8 = x.parityOk := by
    rw [packDecodedByte, BitVec.getLsbD_append]
    exact getLsbD_ofBool_append _ _
  have hframing : (packDecodedByte x).getLsbD 9 = x.framingOk := getLsbD_ofBool_append _ _
  rw [unpackDecodedByte, hvalue, hparity, hframing]

theorem packTlEntry_eq_some_iff {x : TlEntry} {w : BitVec 65} :
    packTlEntry x = some w ↔ x.start < 2 ^ 64 ∧ BitVec.ofBool x.level ++ BitVec.ofNat 64 x.start = w := by
  rw [packTlEntry, Option.ite_none_right_eq_some, Option.some_inj]

theorem unpackTlEntry_of_packTlEntry {x : TlEntry} {w : BitVec 65} (h : packTlEntry x = some w) : unpackTlEntry w = x := by
  obtain ⟨hstart, rfl⟩ := packTlEntry_eq_some_iff.1 h
  refine congrArg₂ TlEntry.mk ?_ (getLsbD_ofBool_append _ _)
  exact (congrArg BitVec.toNat BitVec.extractLsb'_append_eq_right).trans
    ((BitVec.toNat_ofNat _ _).trans (Nat.mod_eq_of_lt hstart))

/-- Settles O5: record by record. -/
theorem recordLayoutsLoseNothing : Obligations.RecordLayoutsLoseNothing :=
  ⟨unpackEdge_packEdge, unpackRxByte_packRxByte, unpackRunLength_packRunLength, unpackDecodedByte_packDecodedByte,
    fun _ _ h => unpackTlEntry_of_packTlEntry h,
    fun _ hstart => Option.isSome_of_mem (packTlEntry_eq_some_iff.2 ⟨hstart, rfl⟩)⟩

end Sys2Proof.Machine
end

section
/-! SUPPORT. The named frames (30_encoding.md R64), and the frame of the ideal transmitter (R62, R85), bit by bit. -/

namespace Sys2Proof.Machine

/-! ### The length of a frame and of a bit -/

/-- Settles O43: the shortest legal frame has one data bit, no parity and one stop bit, the longest 8, one and 255. -/
theorem frameLengthIsTheTemplates : Obligations.FrameLengthIsTheTemplates := by
  intro c
  refine ⟨frameLen_eq c, fun hvalid => ?_⟩
  obtain ⟨-, -, hdata1, hdata8, -, hstop1, -, -⟩ := (valid_iff c).1 hvalid
  have hstop255 := c.stopBits.isLt
  rw [frameLen_eq, frameLength]
  split <;> omega

/-- Settles O44: the quotient of R66, between two multiples of the divisor. -/
theorem bitTimeIsOneFloor : Obligations.BitTimeIsOneFloor := by
  intro e p hbaud
  rw [bitTime_nat e p hbaud]
  exact ⟨Nat.div_mul_le_self _ _, Nat.lt_mul_of_div_lt (Nat.lt_succ_self _) (by omega)⟩

/-! ### The named frames -/

/-- A frame of a shape, of that shape's length, is judged under that shape's template. -/
theorem exec_frameInstr_judged (s : State) (shape : Shape) (bits : List Level)
    (hlength : bits.length =
      frameLength (shapeTemplate shape).dataBits (shapeTemplate shape).parity.toNat (shapeTemplate shape).stopBits) :
    ∃ b : DecodedByte,
      exec (frameInstr shape bits) s =
        .next { s with pass := { s.pass with frameSr := bits, dbytes := s.pass.dbytes ++ [b] } } ∧
      FrameJudged (shapeTemplate shape).dataBits (shapeTemplate shape).parity.toNat (shapeTemplate shape).stopBits bits b := by
  have hdata : (shapeTemplate shape).dataBits ≤ 8 := by cases shape <;> decide
  refine ⟨decodeFrameBits s.env (shapeTemplate shape) bits, ?_, decodeFrameBits_judged s.env _ bits hdata hlength⟩
  cases shape <;> rfl

/-- Settles O46: the seven shapes of R64. -/
theorem namedFramesAreDecodedUnderTheirShape : Obligations.NamedFramesAreDecodedUnderTheirShape := by
  intro s bits
  have judged (shape : Shape) := exec_frameInstr_judged s shape bits
  exact ⟨judged .s8N1, judged .s8E1, judged .s8O1, judged .s8N2, judged .s7E1, judged .s7O2, judged .s5N1⟩

/-! ### The transmitted frame, bit by bit -/

@[simp] theorem transmitData_length (n : Nat) (v : Byte) : (transmitData n v).length = n := by simp [transmitData]

theorem transmitParity_length (t : Template) (data : List Level) : (transmitParity t data).length = t.parityBits := by
  have hzero : t.parity = 0 ↔ t.parity.toNat = 0 := BitVec.toNat_eq
  simp only [transmitParity, Template.parityBits, hzero]
  split
  next h => rw [if_pos h]; rfl
  next h => rw [if_neg (by omega)]; rfl
  next h => rw [if_neg (by omega)]; rfl
  next h _ _ => rw [if_neg h]; rfl

/-- The parity bit makes the number of ones even under `PARITY = 1` and odd under `PARITY = 2`. -/
theorem transmitParity_balances (t : Template) (data : List Level) (hparity : t.parity.toNat = 1 ∨ t.parity.toNat = 2) :
    ∃ b, transmitParity t data = [b] ∧ (data.count true + b.toNat) % 2 = t.parity.toNat - 1 := by
  have hc := Nat.mod_two_eq_zero_or_one (data.count true)
  obtain hp | hp := hparity
  · refine ⟨data.count true % 2 == 1, by simp only [transmitParity, hp], ?_⟩
    obtain hc | hc := hc <;> simp [hc, hp, Nat.add_mod]
  · refine ⟨data.count true % 2 == 0, by simp only [transmitParity, hp], ?_⟩
    obtain hc | hc := hc <;> simp [hc, hp, Nat.add_mod]

theorem frameLevels_length (t : Template) (v : Byte) : (frameLevels t v).length = t.len := by
  simp only [frameLevels, List.length_cons, List.length_append, transmitData_length, transmitParity_length,
    List.length_replicate, Template.len]
  omega

/-- The data bits follow the start bit, least significant first. -/
theorem frameLevels_data (t : Template) (v : Byte) {i : Nat} (hi : i < t.dataBits) :
    (frameLevels t v).getD (1 + i) false = v.getLsbD i := by
  rw [Nat.add_comm, frameLevels, List.getD_cons_succ, List.append_assoc,
    List.getD_append _ _ _ _ (by rwa [transmitData_length])]
  simp [transmitData, hi]

/-- The parity bit follows the data bits. -/
theorem frameLevels_parity (t : Template) (v : Byte) {b : Level} (hb : transmitParity t (transmitData t.dataBits v) = [b]) :
    (frameLevels t v).getD (t.dataBits + 1) false = b := by
  rw [frameLevels, hb, List.getD_cons_succ, List.append_assoc, List.getD_append_right _ _ _ _ (by simp)]
  simp

/-- Behind them every bit is a stop bit. -/
theorem frameLevels_stop (t : Template) (v : Byte) {j : Nat} (hlow : frameLength t.dataBits t.parity.toNat 0 ≤ j)
    (hhigh : j < frameLength t.dataBits t.parity.toNat t.stopBits) : (frameLevels t v).getD j false = true := by
  have hhead : (transmitData t.dataBits v ++ transmitParity t (transmitData t.dataBits v)).length =
      t.dataBits + t.parityBits := by simp [transmitParity_length]
  have := Template.len_eq t
  simp only [Template.len, frameLength] at this hlow hhigh
  obtain ⟨k, rfl⟩ : ∃ k, j = k + 1 := ⟨j - 1, by omega⟩
  rw [frameLevels, List.getD_cons_succ, List.getD_append_right _ _ _ _ (by omega)]
  exact List.getD_replicate _ (by omega)

/-- The low `n` bits of a number, weighted, add up to it modulo `2^n`. -/
theorem sum_testBit (x n : Nat) : ((List.range n).map fun i => (x.testBit i).toNat * 2 ^ i).sum = x % 2 ^ n := by
  induction n with
  | zero => simp [Nat.mod_one]
  | succ n ih =>
    rw [List.range_succ, List.map_append, List.sum_append, ih, Nat.mod_pow_succ]
    simp [Nat.toNat_testBit, Nat.mul_comm]

/-- The number of ones that FDEC counts is that of the data sent and of the parity bit behind them. -/
theorem onesWithParity_frameLevels (t : Template) (v : Byte) {b : Level}
    (hb : transmitParity t (transmitData t.dataBits v) = [b]) :
    onesWithParity t.dataBits (frameLevels t v) = (transmitData t.dataBits v).count true + b.toNat := by
  rw [onesWithParity, frameLevels_parity t v hb, transmitData, count_true_map]
  congr 2
  apply List.map_congr_left
  intro i hi
  rw [frameLevels_data t v (List.mem_range.1 hi)]

theorem FrameJudged.value_frameLevels {t : Template} {v : Byte} {b : DecodedByte}
    (h : FrameJudged t.dataBits t.parity.toNat t.stopBits (frameLevels t v) b) (hv : v.toNat < 2 ^ t.dataBits) : b.value = v := by
  apply BitVec.eq_of_toNat_eq
  calc b.value.toNat
    _ = ((List.range t.dataBits).map fun i => (v.toNat.testBit i).toNat * 2 ^ i).sum := by
      rw [h.value]
      congr 1
      apply List.map_congr_left
      intro i hi
      rw [frameLevels_data t v (List.mem_range.1 hi)]
      rfl
    _ = v.toNat := by rw [sum_testBit, Nat.mod_eq_of_lt hv]

theorem FrameJudged.framing_frameLevels {t : Template} {v : Byte} {b : DecodedByte}
    (h : FrameJudged t.dataBits t.parity.toNat t.stopBits (frameLevels t v) b) : b.framingOk = true :=
  h.framing.2 ⟨rfl, fun _ hlow hhigh => frameLevels_stop t v hlow hhigh⟩

theorem FrameJudged.parity_frameLevels {t : Template} {v : Byte} {b : DecodedByte}
    (h : FrameJudged t.dataBits t.parity.toNat t.stopBits (frameLevels t v) b) (hparity : t.parity.toNat ≠ 3) :
    b.parityOk = true := by
  have hlt := t.parity.isLt
  obtain hp | hp | hp : t.parity.toNat = 0 ∨ t.parity.toNat = 1 ∨ t.parity.toNat = 2 := by omega
  · exact h.parity_none hp
  · obtain ⟨p, hsent, hsum⟩ := transmitParity_balances t (transmitData t.dataBits v) (.inl hp)
    rw [h.parity_even hp, onesWithParity_frameLevels t v hsent, hsum, hp]
  · obtain ⟨p, hsent, hsum⟩ := transmitParity_balances t (transmitData t.dataBits v) (.inr hp)
    rw [h.parity_odd hp, onesWithParity_frameLevels t v hsent, hsum, hp]

/-- Settles O47: the frame sent is judged as R161 to R164 say, bit by bit as the transmitter set them. -/
theorem aTransmittedFrameDecodesToItsByte : Obligations.ATransmittedFrameDecodesToItsByte := by
  intro e v hvalid hv
  obtain ⟨-, -, -, hdata8, hparity, -⟩ := (valid_iff e.toCfg).1 hvalid
  have hlength := frameLevels_length e.template v
  refine ⟨hlength, ?_⟩
  have judged := decodeFrameBits_judged e e.template (frameLevels e.template v) hdata8 (hlength.trans (Template.len_eq _))
  generalize decodeFrameBits e e.template (frameLevels e.template v) = b at judged ⊢
  obtain ⟨value, parityOk, framingOk⟩ := b
  obtain rfl : value = v := judged.value_frameLevels hv
  obtain rfl : parityOk = true := judged.parity_frameLevels hparity
  obtain rfl : framingOk = true := judged.framing_frameLevels
  rfl

end Sys2Proof.Machine
end

section
/-! SUPPORT. Capture and the burst (40_capture.md R101 to R106): what EDGE and RXBYTE answer, what BCLOSE takes from the
selected buffer, and what SPLIT cuts. -/

namespace Sys2Proof.Machine

/-! ### EDGE, RXBYTE -/

theorem execEdge_dropped {s : State} (level : Level) (ts : U64) (h : s.run = false ∨ s.cfg.inputSel = true) :
    execEdge level ts s = .next s := by
  rw [execEdge, if_pos (by simpa using h)]

/-- In a session on the edge input only the timestamp decides. -/
theorem execEdge_selected {s : State} (level : Level) (ts : U64) (hrun : s.run = true) (hsel : s.cfg.inputSel = false) :
    execEdge level ts s =
      if s.ebuf ≠ [] ∧ ts.toNat < s.lastTs.toNat then .refused .contractViolation else .next (pushEdge s level ts) := by
  simp [execEdge, hrun, hsel]

theorem execRxbyte_dropped {s : State} (value : Byte) (ts : U64) (h : s.run = false ∨ s.cfg.inputSel = false) :
    execRxbyte value ts s = .next s := by
  rw [execRxbyte, if_pos (by simpa using h)]

/-- In a session on the byte input only the timestamp decides. -/
theorem execRxbyte_selected {s : State} (value : Byte) (ts : U64) (hrun : s.run = true) (hsel : s.cfg.inputSel = true) :
    execRxbyte value ts s =
      if s.bbuf ≠ [] ∧ ts.toNat < s.lastTs.toNat then .refused .contractViolation else .next (pushByte s value ts) := by
  simp [execRxbyte, hrun, hsel]

/-- A timestamp is accepted exactly when it does not go back inside a burst (R101, R102). -/
theorem not_goesBack {α : Type} {buf : List α} {ts last : Nat} (h : buf = [] ∨ last ≤ ts) : ¬ (buf ≠ [] ∧ ts < last) := by
  rintro ⟨hne, hlt⟩
  exact h.elim hne (Nat.not_le_of_lt hlt)

/-- Settles O20: the test for a drop comes first, then the timestamp's. -/
theorem edgeIsAppendedDroppedOrRefused : Obligations.EdgeIsAppendedDroppedOrRefused := by
  intro s level ts
  refine ⟨execEdge_dropped level ts, fun hrun hsel => ?_⟩
  have hexec := execEdge_selected level ts hrun hsel
  exact ⟨fun hback => hexec.trans (if_pos hback), fun hts => hexec.trans (if_neg (not_goesBack hts))⟩

/-- Settles O21: as for EDGE. -/
theorem rxbyteIsAppendedDroppedOrRefused : Obligations.RxbyteIsAppendedDroppedOrRefused := by
  intro s value ts
  refine ⟨execRxbyte_dropped value ts, fun hrun hsel => ?_⟩
  have hexec := execRxbyte_selected value ts hrun hsel
  exact ⟨fun hback => hexec.trans (if_pos hback), fun hts => hexec.trans (if_neg (not_goesBack hts))⟩

/-! ### BCLOSE -/

theorem execBclose_edges {s : State} (hsel : s.cfg.inputSel = false) : execBclose s = .next (closeEdges s) := by
  rw [execBclose, closeBuffer, if_neg (by simp [hsel])]

theorem execBclose_bytes {s : State} (hsel : s.cfg.inputSel = true) : execBclose s = .next (closeBytes s) := by
  rw [execBclose, closeBuffer, if_pos hsel]

/-- Settles O26: the runs are `runLengths` of the buffer. -/
theorem bcloseTurnsTheEventsIntoRuns : Obligations.BcloseTurnsTheEventsIntoRuns := by
  intro s hsel _ hsorted
  exact ⟨runLengths s.env s.pass.closeTs s.ebuf, execBclose_edges hsel, runLengths_get s.env s.pass.closeTs s.ebuf hsorted⟩

/-- Settles O27. -/
theorem bcloseTakesTheBytes : Obligations.BcloseTakesTheBytes := fun _ hsel => execBclose_bytes hsel

/-- Settles O28: the sum telescopes from event to event. -/
theorem burstDurationsSpanTheBurst : Obligations.BurstDurationsSpanTheBurst := by
  intro s t first rest hsel hbuf hsorted h
  cases (execBclose_edges hsel).symm.trans h
  rw [hbuf] at hsorted
  rw [closeEdges_pass, hbuf]
  exact runLengths_sum s.env s.pass.closeTs first rest hsorted

/-! ### SPLIT -/

theorem lastsAtLeast_iff (e : Env) (d k : Nat) : lastsAtLeast e d k = true ↔ 1000000 * k ≤ d * e.baud.toNat :=
  decide_eq_true_iff

theorem lastsAtLeast_eq_false_iff (e : Env) (d k : Nat) : lastsAtLeast e d k = false ↔ d * e.baud.toNat < 1000000 * k := by
  rw [← Bool.not_eq_true, lastsAtLeast_iff, Nat.not_le]

theorem splitStreams_flatten (e : Env) (rle : List RunLength) : (splitStreams e rle).flatten = rle := by
  unfold splitStreams
  split
  · exact List.append_nil rle
  · exact splitFrom_flatten e rle []

/-- Settles O29: the loop of R106 starts with no run collected, so every stream it closes obeys the threshold. -/
theorem splitCutsAfterEveryLongRun : Obligations.SplitCutsAfterEveryLongRun := by
  intro s
  refine ⟨splitStreams s.env s.pass.rle, rfl, splitStreams_flatten _ _, fun h0 => if_pos h0, fun h0 => ?_⟩
  have hcut : splitStreams s.env s.pass.rle = splitFrom s.env [] s.pass.rle := if_neg h0
  obtain ⟨hshort, hlong⟩ := splitFrom_cuts s.env s.pass.rle [] (by simp)
  rw [hcut]
  constructor
  · intro st hst
    obtain ⟨hne, hbelow⟩ := hshort st hst
    exact ⟨hne, fun x hx => (lastsAtLeast_eq_false_iff _ _ _).1 (hbelow x hx)⟩
  · intro st hst
    obtain ⟨x, hlast, hreaches⟩ := hlong st hst
    exact ⟨x, hlast, (lastsAtLeast_iff _ _ _).1 hreaches⟩

end Sys2Proof.Machine
end

section
/-! SUPPORT. POLL (40_capture.md R103): when it waits, and that a closing one is its stages run one after another (R100). -/

namespace Sys2Proof.Machine

theorem execPoll_waits {s : State} {now : U64} (h : pollCloses now s = false) : execPoll now s = .next s := by
  rw [execPoll, if_neg (by simp [h])]

/-- Settles O22: each of the disjuncts denies one of the three conditions of the close. -/
theorem pollBeforeTheIdleGapChangesNothing : Obligations.PollBeforeTheIdleGapChangesNothing := by
  intro s now h
  refine execPoll_waits (Bool.eq_false_iff.2 fun hcloses => ?_)
  obtain ⟨hrun, hpending, hgap⟩ := (pollCloses_iff now s).1 hcloses
  obtain hstopped | ⟨hsel, hempty⟩ | ⟨hsel, hempty⟩ | hearly := h
  · exact Bool.false_ne_true (hstopped.symm.trans hrun)
  · rw [pending_edges hsel] at hpending
    exact of_decide_eq_true hpending hempty
  · rw [pending_bytes hsel] at hpending
    exact of_decide_eq_true hpending hempty
  · exact Nat.not_lt_of_le hearly hgap

section
variable {s : State} {now : U64} (hrun : s.run = true)
  (hgap : s.lastTs.toNat + s.cfg.idleGapUs.toNat < now.toNat)
include hrun hgap

theorem pollCloses_edges (hsel : s.cfg.inputSel = false) (hbuf : s.ebuf ≠ []) : pollCloses now s = true :=
  (pollCloses_iff now s).2 ⟨hrun, (pending_iff s).2 (.inl ⟨hsel, hbuf⟩), hgap⟩

theorem pollCloses_bytes (hsel : s.cfg.inputSel = true) (hbuf : s.bbuf ≠ []) : pollCloses now s = true :=
  (pollCloses_iff now s).2 ⟨hrun, (pending_iff s).2 (.inr ⟨hsel, hbuf⟩), hgap⟩

end

/-- What is answered for a decode that ends in a state, or does not end (R103, log 21). -/
def decodeOutcome : Option State → Host.Outcome State Fault Refusal
  | some t => .next t
  | none => .fault .passNeverEnds

theorem execPoll_eq_of_closes {s : State} {now : U64} (h : pollCloses now s = true) :
    execPoll now s = decodeOutcome (closeBurst now s) := by
  rw [execPoll, if_pos h]
  cases closeBurst now s <;> rfl

/-- Settles O23: a legal configuration has a hunt step of at least 1, so the close sequence ends. -/
theorem pollPastTheIdleGapClosesTheBurst : Obligations.PollPastTheIdleGapClosesTheBurst := by
  intro s now hrun hvalid hsel hbuf hgap
  obtain ⟨-, -, -, -, -, -, hstep, -⟩ := (valid_iff s.cfg).1 hvalid
  obtain ⟨t, ht⟩ := closeBurst_isSome now s hstep
  have hexec : execPoll now s = .next t := by
    rw [execPoll_eq_of_closes (pollCloses_edges hrun hgap hsel hbuf), ht]
    rfl
  have hswap : s.swapped = { s with ebuf := [], bank := !s.bank } := if_neg (Bool.eq_false_iff.1 hsel)
  obtain ⟨new, heq, hmade, -⟩ := closeBurst_delivers now s t ht
  rw [hswap] at heq hmade
  refine ⟨t.pass, new, hexec.trans (congrArg _ heq), fun q hq => ?_⟩
  obtain ⟨hne, hslot, hchecked, -⟩ := hmade q hq
  exact ⟨hne, hslot, hchecked⟩

/-! ### The stages one after another -/

/-- The stages of one stream are its decode. -/
theorem runInstrs_decodeStream (s : State) (rest : List Instr) :
    runInstrs ([.sdec, .pseg, .csum, .emit] ++ rest) s =
      match decodeStream s with
      | some t => runInstrs rest t
      | none => .fault .passNeverEnds := by
  cases hp : sdecPass s.env s.pass with
  | none => simp [runInstrs, exec, execSdec, decodeStream, hp]
  | some p =>
    have hsdec : exec .sdec s = .next { s with pass := p } := by simp only [exec, execSdec, hp]
    have hdecode : decodeStream s = some (finishStream { s with pass := p }) := by simp only [decodeStream, hp]
    rw [List.cons_append, runInstrs_cons _ _ _ _ hsdec, hdecode]
    rfl

/-- The stages of `n` streams are the decode of `n` streams. -/
theorem runInstrs_decodeStreams (n : Nat) (s : State) :
    runInstrs (List.replicate n [Instr.sdec, .pseg, .csum, .emit]).flatten s = decodeOutcome (decodeStreams n s) := by
  induction n generalizing s with
  | zero => rfl
  | succ n ih =>
    rw [List.replicate_succ, List.flatten_cons, runInstrs_decodeStream, decodeStreams]
    cases decodeStream s with
    | none => rfl
    | some t => exact ih t

/-- Settles O25: BCLOSE and SPLIT lead to the state whose streams the close sequence decodes. -/
theorem closingPollIsItsStagesInOrder : Obligations.ClosingPollIsItsStagesInOrder := by
  intro s now hrun hgap closing
  constructor
  · intro hsel hbuf
    have hclose : exec .bclose closing = .next (closeEdges closing) := execBclose_edges hsel
    have hcut : runInstrs [.bclose, .split] closing = .next (withPass (closeEdges closing) splitPass) := by
      rw [runInstrs_cons _ _ _ _ hclose]
      rfl
    refine ⟨_, hcut, ?_⟩
    rw [closeStages, runInstrs_append _ _ _ _ hcut, runInstrs_decodeStreams]
    show execPoll now s = _
    rw [execPoll_eq_of_closes (pollCloses_edges hrun hgap hsel hbuf), closeBurst_edges now (Bool.eq_false_iff.1 hsel)]
    rfl
  · intro hsel hbuf
    have hclose : exec .bclose closing = .next (closeBytes closing) := execBclose_bytes hsel
    rw [runInstrs_cons _ _ _ _ hclose]
    show execPoll now s = _
    rw [execPoll_eq_of_closes (pollCloses_bytes hrun hgap hsel hbuf), closeBurst_bytes now hsel]
    rfl

end Sys2Proof.Machine
end

section
/-! SUPPORT. The packets a stream is delivered in: PSEG cuts exactly where a header matches, and CSUM judges each packet by
itself (45_packet.md R171 to R178). -/

namespace Sys2Proof.Machine

/-! ### PSEG -/

theorem matchSlot_eq_none_of_not_mem {hdr : List (List Byte)} {bytes : List DecodedByte} {p : Nat} (hp : p < bytes.length)
    (h : p ∉ headerPositions hdr bytes) : matchSlot hdr (bytes.drop p) = none := by
  by_contra hsome
  exact h ((mem_headerPositions hdr bytes p).2 ⟨hp, Option.isSome_iff_ne_none.2 hsome⟩)

/-- How a packet `q` stands among the packets `before` and `after` it (R171, R174): it carries the match at its first byte,
no header matches at a later one, and it is unclassified only in front. -/
structure CutAtHeaders (hdr : List (List Byte)) (before : List Packet) (q : Packet) (after : List Packet) : Prop where
  slot : q.hdr = matchSlot hdr (q.bytes ++ after.flatMap (·.bytes))
  leading : q.hdr = none → before = []
  inside : ∀ k, 0 < k → k < q.bytes.length → matchSlot hdr ((q.bytes ++ after.flatMap (·.bytes)).drop k) = none

/-- An unclassified packet in front, when no header matches within it. -/
theorem CutAtHeaders.of_leading {hdr : List (List Byte)} {bytes : List DecodedByte} {q : Packet} {after : List Packet}
    (hslot : q.hdr = none) (hne : q.bytes ≠ []) (hall : q.bytes ++ after.flatMap (·.bytes) = bytes)
    (hfree : ∀ k < q.bytes.length, k ∉ headerPositions hdr bytes) : CutAtHeaders hdr [] q after := by
  have hnone : ∀ k < q.bytes.length, matchSlot hdr ((q.bytes ++ after.flatMap (·.bytes)).drop k) = none := by
    intro k hk
    rw [hall]
    refine matchSlot_eq_none_of_not_mem (Nat.lt_of_lt_of_le hk ?_) (hfree k hk)
    simp [← hall]
  exact ⟨hslot.trans (hnone 0 (List.length_pos_iff.2 hne)).symm, fun _ => rfl, fun k _ hk => hnone k hk⟩

/-- A packet that opens at a header position, whatever stands before it. -/
theorem CutAtHeaders.of_position {hdr : List (List Byte)} {bytes : List DecodedByte} {first : Nat} {rest : List Nat}
    (hpos : headerPositions hdr bytes = first :: rest) {opened after : List Packet} {q : Packet}
    (h : packetsFrom hdr bytes (first :: rest) = opened ++ q :: after) (before : List Packet) :
    CutAtHeaders hdr before q after := by
  have hsorted := headerPositions_sorted hdr bytes
  have hmem := mem_headerPositions hdr bytes
  rw [hpos] at hsorted hmem
  obtain ⟨hsome, hslot, hinside⟩ := packetsFrom_cuts hdr bytes first rest hsorted (fun p hp => ((hmem p).1 hp).1)
    (fun p _ hp => ((hmem p).trans (and_iff_right hp)).symm) opened after q h
  exact ⟨hslot, fun hnone => absurd hsome (by simp [hnone]), hinside⟩

/-- Positions below the first header position are none. -/
theorem not_mem_headerPositions_of_lt {hdr : List (List Byte)} {bytes : List DecodedByte} {first : Nat} {rest : List Nat}
    (hpos : headerPositions hdr bytes = first :: rest) {k : Nat} (hk : k < first) : k ∉ headerPositions hdr bytes := by
  have hsorted := headerPositions_sorted hdr bytes
  rw [hpos] at hsorted ⊢
  rw [List.mem_cons]
  rintro (rfl | hrest)
  · exact Nat.lt_irrefl _ hk
  · exact Nat.lt_asymm hk (List.rel_of_pairwise_cons hsorted hrest)

/-- Every packet of PSEG is cut so: the leading one, if there is one, and each that opens at a position. -/
theorem segmentBytes_cuts {hdr : List (List Byte)} {bytes : List DecodedByte} {before after : List Packet} {q : Packet}
    (h : segmentBytes hdr bytes = before ++ q :: after) : CutAtHeaders hdr before q after := by
  have hne : q.bytes ≠ [] := (segmentBytes_mem hdr bytes q (by simp [h])).1
  have hbytes : before.flatMap (·.bytes) ++ (q.bytes ++ after.flatMap (·.bytes)) = bytes := by
    rw [← segmentBytes_bytes hdr bytes, h, List.flatMap_append, List.flatMap_cons]
  cases hpos : headerPositions hdr bytes with
  | nil =>
    rw [segmentBytes_none _ _ hpos] at h
    split at h
    next => simp at h
    next =>
      obtain ⟨rfl, hq⟩ | ⟨-, hq⟩ := List.singleton_eq_append_iff.1 h
      · obtain ⟨rfl, rfl⟩ := List.cons.inj hq
        exact .of_leading rfl hne hbytes (by simp [hpos])
      · exact absurd hq (by simp)
  | cons first rest =>
    rw [segmentBytes_eq _ _ _ _ hpos, leadingPacket] at h
    split at h
    next => exact .of_position hpos h before
    next =>
      cases before with
      | nil =>
        obtain ⟨rfl, rfl⟩ := List.cons.inj h
        refine .of_leading rfl hne hbytes fun k hk => not_mem_headerPositions_of_lt hpos ?_
        exact Nat.lt_of_lt_of_le hk (List.length_take_le _ _)
      | cons b bs => exact .of_position hpos (List.cons.inj h).2 (b :: bs)

/-! ### CSUM -/

/-- What CSUM makes of one packet (R178). -/
def judgePacket (e : Env) (q : Packet) : Packet := if e.chkEn then checkPacket e q else q

theorem judgePacket_on {e : Env} (h : e.chkEn = true) (q : Packet) : judgePacket e q = checkPacket e q := if_pos h

theorem judgePacket_off {e : Env} (h : e.chkEn = false) (q : Packet) : judgePacket e q = q :=
  if_neg (Bool.eq_false_iff.1 h)

@[simp] theorem judgePacket_bytes (e : Env) (q : Packet) : (judgePacket e q).bytes = q.bytes := by
  unfold judgePacket
  split <;> rfl

@[simp] theorem judgePacket_hdr (e : Env) (q : Packet) : (judgePacket e q).hdr = q.hdr := by
  unfold judgePacket
  split <;> rfl

/-- The packets hold the same bytes as before. -/
theorem flatMap_bytes_judgePacket (e : Env) (packets : List Packet) :
    (packets.map (judgePacket e)).flatMap (·.bytes) = packets.flatMap (·.bytes) := by
  simp [List.flatMap_map]

theorem csumPass_packets (e : Env) (p : Pass) : (csumPass e p).packets = p.packets.map (judgePacket e) := by
  cases h : e.chkEn with
  | false => simp [csumPass, h, funext (judgePacket_off h)]
  | true => simp [csumPass, h, funext (judgePacket_on h)]

/-- Judged packets are cut as they were before. -/
theorem CutAtHeaders.judge {hdr : List (List Byte)} {before after : List Packet} {q : Packet}
    (h : CutAtHeaders hdr before q after) (e : Env) :
    CutAtHeaders hdr (before.map (judgePacket e)) (judgePacket e q) (after.map (judgePacket e)) := by
  obtain ⟨hslot, hleading, hinside⟩ := h
  constructor <;> simpa [flatMap_bytes_judgePacket]

/-- The verdict of a packet whose last byte is `last` (R178). -/
theorem verdict_concat (e : Env) (init : List DecodedByte) (last : DecodedByte) :
    let computed := (init.map fun b => b.value.toNat).sum % 256
    verdict e (init ++ [last]) =
      ⟨decide (computed = last.value.toNat), (last.value.toNat : Int) - (computed : Int)⟩ := by
  simp [verdict, checksum, receivedSum, beq_eq_decide, eq_comm]

/-! ### The byte input -/

/-- PSEG, CSUM and EMIT append the judged packets of `DBYTES`. -/
theorem finishStream_eq (s : State) : finishStream s = { s with
    pass := (finishStream s).pass, outq := s.outq ++ (segmentBytes s.hdr s.pass.dbytes).map (judgePacket s.env) } :=
  congrArg (fun new => { s with pass := (finishStream s).pass, outq := s.outq ++ new }) (csumPass_packets s.env _)

/-- A closing POLL on the byte input, in full (R103, R108). -/
theorem execPoll_bytes {s : State} {now : U64} (hcloses : pollCloses now s = true) (hsel : s.cfg.inputSel = true) :
    ∃ p : Pass, execPoll now s = .next { s with
      bbuf := [], bank := !s.bank, pass := p,
      outq := s.outq ++ (segmentBytes s.hdr (s.bbuf.map framedByte)).map (judgePacket s.env) } := by
  rw [execPoll_eq_of_closes hcloses, closeBurst_bytes now hsel, finishStream_eq]
  exact ⟨_, rfl⟩

/-- Settles O24: the packets are those PSEG cuts from the bytes, each judged by CSUM. -/
theorem pollOnTheByteInputDeliversTheBytes : Obligations.PollOnTheByteInputDeliversTheBytes := by
  intro s now hrun hsel hbuf hgap
  obtain ⟨p, hexec⟩ := execPoll_bytes (pollCloses_bytes hrun hgap hsel hbuf) hsel
  refine ⟨p, _, hexec, (flatMap_bytes_judgePacket _ _).trans (segmentBytes_bytes _ _), ?_⟩
  intro before after pkt hcut
  obtain ⟨cutBefore, tail, hseg, rfl, htail⟩ := List.map_eq_append_iff.1 hcut
  obtain ⟨q, cutAfter, rfl, rfl, rfl⟩ := List.map_eq_cons_iff.1 htail
  obtain ⟨hne, hunjudged, -⟩ := segmentBytes_mem s.hdr _ q (by rw [hseg]; simp)
  obtain ⟨hslot, hleading, hinside⟩ := (segmentBytes_cuts hseg).judge s.env
  refine ⟨(judgePacket_bytes s.env q).symm ▸ hne, hslot, hleading, hinside, fun hoff => ?_, fun hon init last hq => ?_⟩
  · rw [judgePacket_off (e := s.env) hoff]
    exact hunjudged
  · rw [judgePacket_bytes] at hq
    rw [judgePacket_on (e := s.env) hon, checkPacket, hq, verdict_concat]

end Sys2Proof.Machine
end

section
/-! SUPPORT. Where a query lands on the timeline of a stream, and the statements of the timeline (41_timeline.md). -/

namespace Sys2Proof.Machine

/-- `S_i <= S_j` for `i <= j` (R120): `S_j` is the total of the first `j` runs. -/
theorem streamTotal_take_mono (rle : List RunLength) {i j : Nat} (hij : i ≤ j) :
    streamTotal (rle.take i) ≤ streamTotal (rle.take j) := by
  simpa only [streamTotal, List.map_take] using sum_take_mono (rle.map fun x => x.durationUs.toNat) i j hij

/-- No entry starts after the end of the stream. -/
theorem streamTotal_take_le (rle : List RunLength) (j : Nat) : streamTotal (rle.take j) ≤ streamTotal rle := by
  rcases Nat.le_total j rle.length with h | h
  · simpa only [List.take_length] using streamTotal_take_mono rle h
  · rw [List.take_of_length_le h]

section
variable {rle : List RunLength} {tl : List TlEntry} {total : Nat} (h : IsTimeline rle tl total)
include h

theorem IsTimeline.start_eq {j : Nat} (hj : j < tl.length) : tl[j].start = streamTotal (rle.take j) := by
  have hentry := h.entry j (h.length ▸ hj)
  rw [List.getElem?_eq_getElem hj, Option.some_inj] at hentry
  rw [hentry, streamTotal]

/-- The lookup inside the stream finds the run that covers the time; runs of duration 0 before it are passed over. -/
theorem IsTimeline.lookupIndex_of_covers {t : Int} {j : Nat} (hj : j < rle.length)
    (hstart : (streamTotal (rle.take j) : Int) ≤ t) (hend : t < streamTotal (rle.take (j + 1))) :
    lookupIndex tl total t = j := by
  have htotal : total = streamTotal rle := h.total
  have hbound := streamTotal_take_le rle (j + 1)
  rw [lookupIndex, if_neg (by omega), if_neg (by omega)]
  refine entryIndex_eq tl t j (h.length ▸ hj) (fun i hi _ hij => ?_) (fun hnext => ?_)
  · have := streamTotal_take_mono rle hij
    rw [h.start_eq hi]
    omega
  · rwa [h.start_eq hnext]

/-- A query reads the level of the run its lookup finds. -/
theorem IsTimeline.levelAt_of_lookupIndex (e : Env) {t : Int} {j : Nat} (hj : j < rle.length)
    (hlookup : lookupIndex tl total t = j) : levelAt e tl total t = rle[j].level := by
  simp only [levelAt, hlookup, h.entry j hj]

/-- Before time 0 the line has the level of the first run (R122). -/
theorem IsTimeline.levelAt_before (e : Env) {t : Int} (hne : rle ≠ []) (ht : t < 0) :
    rle.head?.map (·.level) = some (levelAt e tl total t) := by
  have hj : 0 < rle.length := List.length_pos_iff.2 hne
  rw [h.levelAt_of_lookupIndex e hj (if_pos ht), List.head?_eq_getElem?, List.getElem?_eq_getElem hj, Option.map_some]

/-- From `TL_TOTAL` on the line has the level of the last run (R122). -/
theorem IsTimeline.levelAt_after (e : Env) {t : Int} (hne : rle ≠ []) (ht : (total : Int) ≤ t) :
    rle.getLast?.map (·.level) = some (levelAt e tl total t) := by
  have hj : rle.length - 1 < rle.length := Nat.sub_one_lt_of_lt (List.length_pos_iff.2 hne)
  have hlookup : lookupIndex tl total t = rle.length - 1 := by
    rw [lookupIndex, if_neg (by omega), if_pos ht, h.length]
  rw [h.levelAt_of_lookupIndex e hj hlookup, List.getLast?_eq_getElem?, List.getElem?_eq_getElem hj, Option.map_some]

end

/-- Settles O30: the current stream is the first of the pass, and `timelineFrom 0` is its timeline. -/
theorem tlbuildAddsUpTheDurations : Obligations.TlbuildAddsUpTheDurations := by
  intro s rle rest hstreams
  have hstream : s.pass.stream = rle := by simp [Pass.stream, hstreams]
  refine ⟨timelineFrom 0 rle, streamTotal rle, ?_, isTimeline_timelineFrom rle⟩
  rw [← hstream]
  rfl

/-- Settles O31: the three cases of R122 are where the lookup lands, on the first run, the last, or the covering one. -/
theorem levelatReadsTheCoveringEntry : Obligations.LevelatReadsTheCoveringEntry := by
  intro s rle hne h
  refine ⟨_, _, rfl, h.levelAt_before s.env hne, h.levelAt_after s.env hne, fun j hj hstart hend => ?_⟩
  exact h.levelAt_of_lookupIndex s.env hj (h.lookupIndex_of_covers hj hstart hend)

end Sys2Proof.Machine
end

section
/-! SUPPORT. The stages of the frame synchroniser run alone (42_frame_sync.md R131 to R137), and a trip as its stages
(R130). -/

namespace Sys2Proof.Machine

/-- How an equation about the pass becomes one about the state a stage answers. -/
theorem next_pass_congr {s : State} {p q : Pass} (h : p = q) :
    (.next { s with pass := p } : Host.Outcome State Fault Refusal) = .next { s with pass := q } := by rw [h]

/-! ### HSTOP, ANCHOR0, RESYNC -/

/-- Settles O32: the answer is the end test, which `hstopTest_iff` reads as R131 writes it. -/
theorem hstopTestsTheTimeThatRemains : Obligations.HstopTestsTheTimeThatRemains := by
  intro s
  refine ⟨hstopTest s.env s.pass, rfl, ?_⟩
  rw [hstopTest_iff, frameLen_eq]
  exact Iff.rfl

theorem anchor0Pass_low {e : Env} {p : Pass} (h : firstLevel e p = false) : anchor0Pass e p = anchorAt p 0 := by
  simp [anchor0Pass, h]

theorem anchor0Pass_high {e : Env} {p : Pass} (h : firstLevel e p = true) : anchor0Pass e p = { p with answer := false } :=
  if_pos h

theorem firstLevel_cons {p : Pass} {x : RunLength} {xs : List RunLength} {rest : List (List RunLength)} (e : Env)
    (h : p.streams = (x :: xs) :: rest) : firstLevel e p = x.level := by
  simp [firstLevel, Pass.stream, h]

/-- Settles O33: ANCHOR0 tests the level of the stream's first run. -/
theorem anchor0AnchorsAStreamThatStartsLow : Obligations.Anchor0AnchorsAStreamThatStartsLow := by
  intro s x xs rest hstreams
  have hfirst := firstLevel_cons s.env hstreams
  exact ⟨fun hlow => next_pass_congr (anchor0Pass_low (hfirst.trans hlow)),
    fun hhigh => next_pass_congr (anchor0Pass_high (hfirst.trans hhigh))⟩

/-- A frame has a start bit. -/
theorem frameLen_pos (c : Cfg) : 1 ≤ c.frameLen := by
  rw [frameLen_eq, frameLength]
  omega

/-- The RESYNC position as one floor of an exact product (R137, R66). -/
theorem resyncTime_nat (e : Env) (start : Nat) (hbaud : 1 ≤ e.baud.toNat) :
    resyncTime e start =
      start + 1000000 * (100 * (e.frameLen - 1) + e.resyncMarginPct.toNat) / (100 * e.baud.toNat) := by
  have hlen := frameLen_pos e.toCfg
  rw [resyncTime, ← bitTime_nat e _ hbaud]
  congr 2
  push_cast [hlen]
  rfl

/-- Settles O36: the product of R66 at `p = 100 (L - 1) + RESYNC_MARGIN_PCT`. -/
theorem resyncMovesTheCursorPastTheFrame : Obligations.ResyncMovesTheCursorPastTheFrame := by
  intro s hbaud
  rw [← frameLen_eq]
  exact next_pass_congr (congrArg (fun t => { s.pass with phase := .hunting, tCur := t })
    (resyncTime_nat s.env s.pass.startEdge hbaud))

/-! ### HUNT -/

theorem fallAt_iff (e : Env) (p : Pass) (t : Nat) : fallAt e p t = true ↔
    p.levelAt e t = true ∧ p.levelAt e ((t + e.huntStepUs.toNat : Nat) : Int) = false := by
  rw [fallAt, Bool.and_eq_true, Bool.not_eq_true']

theorem huntPass_found {e : Env} {p : Pass} (h : fallAt e p p.tCur = true) :
    huntPass e p = anchorAt { p with tlCursor := p.cursorAt ((p.tCur + e.huntStepUs.toNat : Nat) : Int) }
      (p.tCur + e.huntStepUs.toNat) :=
  if_pos h

theorem huntPass_moved {e : Env} {p : Pass} (h : fallAt e p p.tCur = false) :
    huntPass e p = { p with
      tlCursor := p.cursorAt ((p.tCur + e.huntStepUs.toNat : Nat) : Int)
      answer := false
      tCur := p.tCur + e.huntStepUs.toNat } :=
  if_neg (Bool.eq_false_iff.1 h)

/-- Settles O34: the two clauses are the two answers of HUNT's test. -/
theorem huntAnchorsAFallOrMovesOn : Obligations.HuntAnchorsAFallOrMovesOn := by
  intro s
  refine ⟨s.pass.cursorAt ((s.pass.tCur + s.cfg.huntStepUs.toNat : Nat) : Int), fun hfall => ?_, fun hnone => ?_⟩
  · exact next_pass_congr (huntPass_found ((fallAt_iff s.env _ _).2 hfall))
  · have hnone : fallAt s.env s.pass s.pass.tCur = false := Bool.eq_false_iff.2 fun h => hnone ((fallAt_iff _ _ _).1 h)
    exact next_pass_congr (huntPass_moved hnone)

/-- Whether the line falls at a time depends on the timeline alone. -/
theorem fallAt_congr (e : Env) {p q : Pass} (h : KeepsStream p q) (t : Nat) : fallAt e q t = fallAt e p t := by
  simp only [fallAt, Pass.levelAt, h.tl, h.tlTotal]

/-- `n` HUNTs that meet no fall move the cursor on by `n` steps. -/
theorem runInstrs_hunts_moved (n : Nat) (s : State)
    (hnone : ∀ j, j < n → fallAt s.env s.pass (s.pass.tCur + j * s.cfg.huntStepUs.toNat) = false) :
    ∃ p, runInstrs (List.replicate n .hunt) s = .next { s with pass := p } ∧ KeepsStream s.pass p ∧
      p.tCur = s.pass.tCur + n * s.cfg.huntStepUs.toNat := by
  induction n with
  | zero => exact ⟨s.pass, rfl, .refl _, by simp⟩
  | succ n ih =>
    obtain ⟨p, hrun, hkeeps, hcur⟩ := ih fun j hj => hnone j (by omega)
    have hfall : fallAt s.env p p.tCur = false := by
      rw [fallAt_congr _ hkeeps, hcur]
      exact hnone n (by omega)
    have hhunt : (huntPass s.env p).tCur = p.tCur + s.cfg.huntStepUs.toNat := by rw [huntPass_moved hfall]; rfl
    refine ⟨huntPass s.env p, ?_, hkeeps.trans (huntPass_spec _ _).1, ?_⟩
    · rw [List.replicate_succ', runInstrs_append _ _ _ _ hrun]
      rfl
    · rw [hhunt, hcur]
      ring

/-- Settles O35: `k` HUNTs bring the cursor before the first fall, and the next one anchors it. -/
theorem huntFindsTheFirstFall : Obligations.HuntFindsTheFirstFall := by
  intro s k lv hnone hhigh hlow
  have hfalls (j : Nat) : fallAt s.env s.pass (s.pass.tCur + j * s.cfg.huntStepUs.toNat) = true ↔
      lv j = true ∧ lv (j + 1) = false := by
    have hnext : s.pass.tCur + (j + 1) * s.cfg.huntStepUs.toNat =
        s.pass.tCur + j * s.cfg.huntStepUs.toNat + s.env.huntStepUs.toNat := by
      rw [Nat.add_mul, Nat.one_mul, Nat.add_assoc]
      rfl
    simp only [lv, hnext, fallAt_iff]
    exact Iff.rfl
  obtain ⟨p, hrun, hkeeps, hcur⟩ := runInstrs_hunts_moved k s fun j hj =>
    Bool.eq_false_iff.2 fun h => hnone j hj ((hfalls j).1 h)
  have hfall : fallAt s.env p p.tCur = true := by
    rw [fallAt_congr _ hkeeps, hcur]
    exact (hfalls k).2 ⟨hhigh, hlow⟩
  have hhunt := huntPass_found hfall
  refine ⟨{ s with pass := huntPass s.env p }, ?_, ?_, ?_, ?_⟩
  · rw [List.replicate_succ', runInstrs_append _ _ _ _ hrun]
    rfl
  · rw [hhunt]; rfl
  · rw [hhunt]; rfl
  · show (huntPass s.env p).startEdge = _
    rw [hhunt]
    show p.tCur + s.cfg.huntStepUs.toNat = _
    rw [hcur]
    ring

/-! ### A trip -/

/-- A stream that starts low is anchored at time 0 in its first trip (R132). -/
theorem tripPass_first_low {e : Env} {p : Pass} (hf : p.first = true) (hlow : firstLevel e p = false) :
    tripPass e p = { decodeFrame e (anchorAt p 0) with first := false } := by
  have hanchor := anchor0Pass_low hlow
  have hfind := findStart_anchored e p hf (by rw [hanchor]; rfl)
  rw [hanchor] at hfind
  rw [tripPass, hfind, ← decodeFrame_first]
  rfl

/-- Whether a trip is the first plays no part in HUNT. -/
theorem huntPass_first (e : Env) (p : Pass) (b : Bool) :
    huntPass e { p with first := b } = { huntPass e p with first := b } := by
  cases h : fallAt e p p.tCur with
  | false => rw [huntPass_moved h, huntPass_moved (p := { p with first := b }) h]; rfl
  | true => rw [huntPass_found h, huntPass_found (p := { p with first := b }) h]; rfl

/-- In a stream that starts high the first trip goes as a later one does (R130, R132). -/
theorem tripPass_first_high {e : Env} {p : Pass} (hf : p.first = true) (hhigh : firstLevel e p = true) :
    tripPass e p = tripPass e { p with first := false } := by
  have hanchor := anchor0Pass_high hhigh
  have hfirst := findStart_hunted e p hf (by rw [hanchor])
  rw [hanchor, huntPass_answer, ← huntPass_first] at hfirst
  unfold tripPass
  rw [hfirst, findStart_later e { p with first := false } rfl]

section
variable {e : Env} {p : Pass} (hhunts : p.first = true → firstLevel e p = true)
include hhunts

/-- A trip that does not anchor at time 0 searches by one HUNT. -/
theorem tripPass_eq_hunt : tripPass e p =
    if (huntPass e p).answer then { decodeFrame e (huntPass e p) with first := false }
    else { huntPass e p with first := false } := by
  have hlater : tripPass e p = tripPass e { p with first := false } := by
    cases hf : p.first with
    | false => rw [Pass.first_eta p false hf]
    | true => exact tripPass_first_high hf (hhunts hf)
  rw [hlater, tripPass, findStart_later e { p with first := false } rfl, huntPass_first, decodeFrame_first]

/-- Up to the mark of the first trip, a HUNT that finds a start edge and its frame are the trip. -/
theorem tripPass_hunt_found (hfall : fallAt e p p.tCur = true) :
    decodeFrame e (huntPass e p) = { tripPass e p with first := p.first } := by
  have hfirst : (decodeFrame e (huntPass e p)).first = p.first := (decodeFrame_spec e _).2.1.trans (huntPass_spec e p).2.1
  rw [tripPass_eq_hunt hhunts, if_pos (by rw [huntPass_found hfall]; rfl)]
  exact (Pass.first_eta _ _ hfirst).symm

/-- Up to the mark of the first trip, a HUNT that finds none is the trip. -/
theorem tripPass_hunt_moved (hfall : fallAt e p p.tCur = false) :
    huntPass e p = { tripPass e p with first := p.first } := by
  rw [tripPass_eq_hunt hhunts, if_neg (by rw [huntPass_moved hfall]; simp)]
  exact (Pass.first_eta _ _ (huntPass_spec e p).2.1).symm

end

/-- `L` SAMPLEs, FDEC and RESYNC behind a search. -/
theorem runInstrs_search_frame {is : List Instr} {s : State} {p : Pass} (h : runInstrs is s = .next { s with pass := p }) :
    runInstrs (is ++ (List.replicate s.env.frameLen .sample ++ [.fdec, .resync])) s =
      .next { s with pass := decodeFrame s.env p } := by
  rw [runInstrs_append _ _ _ _ h]
  exact runInstrs_frame { s with pass := p }

/-- Settles O39: the search of a trip is ANCHOR0, HUNT, or both, and the frame is the stages behind it. Only the trip clears the
mark of the first one. -/
theorem aTripIsItsStagesInOrder : Obligations.ATripIsItsStagesInOrder := by
  intro s frame
  have hlater (hf : s.pass.first = false) : { tripPass s.env s.pass with first := s.pass.first } = tripPass s.env s.pass :=
    Pass.first_eta _ _ ((tripPass_keeps _ _).2.trans hf.symm)
  have hhunts (hf : s.pass.first = false) (h : s.pass.first = true) : firstLevel s.env s.pass = true := by
    simp [hf] at h
  have hboth (hhigh : firstLevel s.env s.pass = true) :
      runInstrs [.anchor0, .hunt] s = .next { s with pass := huntPass s.env s.pass } := by
    rw [← huntPass_answer s.env s.pass false, ← anchor0Pass_high hhigh]
    rfl
  refine ⟨fun hf hfall => ?_, fun hf hfall => ?_, fun hf hlow => ?_, fun hf hhigh hfall => ?_, fun hf hhigh hfall => ?_⟩
  · exact (runInstrs_search_frame (is := [.hunt]) rfl).trans
      (next_pass_congr ((tripPass_hunt_found (hhunts hf) hfall).trans (hlater hf)))
  · exact next_pass_congr ((tripPass_hunt_moved (hhunts hf) hfall).trans (hlater hf))
  · have hfirst : (decodeFrame s.env (anchorAt s.pass 0)).first = true := (decodeFrame_spec _ _).2.1.trans hf
    have htrip : decodeFrame s.env (anchor0Pass s.env s.pass) = { tripPass s.env s.pass with first := true } := by
      rw [tripPass_first_low hf hlow, anchor0Pass_low hlow]
      exact (Pass.first_eta _ _ hfirst).symm
    exact (runInstrs_search_frame (is := [.anchor0]) rfl).trans (next_pass_congr htrip)
  · have htrip := tripPass_hunt_found (fun _ => hhigh) hfall
    rw [hf] at htrip
    exact (runInstrs_search_frame (hboth hhigh)).trans (next_pass_congr htrip)
  · have htrip := tripPass_hunt_moved (fun _ => hhigh) hfall
    rw [hf] at htrip
    exact (hboth hhigh).trans (next_pass_congr htrip)

/-- Settles O38: `tripPass_advances`, and that more end tests change nothing. -/
theorem everyDecodePassEnds : Obligations.EveryDecodePassEnds := by
  intro e p hstep
  refine ⟨fun q hf => Nat.lt_of_lt_of_le (Nat.lt_add_of_pos_right hstep) (tripPass_advances e q hf), ?_⟩
  obtain ⟨q, hq⟩ := tripsUntilStop_enterPass e p hstep
  exact ⟨q, hq, tripsUntilStop_mono e _ _ hq (Nat.add_le_add_right (Nat.div_le_self _ _) 3)⟩

end Sys2Proof.Machine
end

section
/-! SUPPORT. The start edges a decode pass meets, and the byte it takes from each (42_frame_sync.md R130 to R137). -/

namespace Sys2Proof.Machine

/-! ### Start edges in order -/

/-- Every start edge lies a step or more behind the cursor the search for it begins at. -/
theorem MeetsEdges.spaced {falls stops : Nat → Prop} {step : Nat} {resync : Nat → Nat} (hresync : ∀ t, t ≤ resync t)
    (hstep : 1 ≤ step) {cursor last : Nat} {edges : List Nat} (h : MeetsEdges falls stops step resync cursor edges last) :
    (∀ u ∈ edges, cursor + step ≤ u) ∧ edges.Pairwise fun t u => t < u ∧ resync t + step ≤ u := by
  induction edges generalizing cursor with
  | nil => exact ⟨by simp, .nil⟩
  | cons t rest ih =>
    obtain ⟨c, ⟨j, hc, -⟩, -, -, ht, hrest⟩ := h
    obtain ⟨hlater, hpairwise⟩ := ih hrest
    have := hresync t
    refine ⟨?_, List.pairwise_cons.2 ⟨fun u hu => ?_, hpairwise⟩⟩
    · rw [List.forall_mem_cons]
      refine ⟨by omega, fun u hu => ?_⟩
      have := hlater u hu
      omega
    · have := hlater u hu
      omega

theorem le_resyncTime (e : Env) (t : Nat) : t ≤ resyncTime e t := Nat.le_add_right _ _

/-! ### What a search and a frame read of the pass -/

/-- The line of the pass falls one hunt step after the cursor `c` (R133). -/
def Falls (e : Env) (p : Pass) (c : Nat) : Prop := fallAt e p c = true

/-- HSTOP is true at the cursor `c` (R131). -/
def Stops (e : Env) (p : Pass) (c : Nat) : Prop := hstopTest e { p with tCur := c } = true

/-- The start edges a pass over the timeline of `p` meets from a cursor on. -/
def Meets (e : Env) (p : Pass) : Nat → List Nat → Nat → Prop :=
  MeetsEdges (Falls e p) (Stops e p) e.huntStepUs.toNat (resyncTime e)

/-- FDEC of the `L` votes taken from the start edge `t` (R150, R151, R161). -/
def byteAt (e : Env) (p : Pass) (t : Nat) : DecodedByte :=
  decodeFrameBits e e.template ((List.range e.frameLen).map fun i => majority (votesAt e (anchorAt p t) i))

theorem stops_iff (e : Env) (p : Pass) (c : Nat) :
    Stops e p c ↔ p.tlTotal < c ∨ (p.tlTotal - c) * e.baud.toNat < 1000000 * e.frameLen :=
  hstopTest_iff e { p with tCur := c }

/-- The end test with `L` spelled by the three registers (R61). -/
theorem stops_iff_frameLength (s : State) (p : Pass) (c : Nat) : Stops s.env p c ↔
    p.tlTotal < c ∨ (p.tlTotal - c) * s.cfg.baud.toNat <
      1000000 * frameLength s.cfg.dataBits.toNat s.cfg.parity.toNat s.cfg.stopBits.toNat := by
  rw [stops_iff, ← frameLen_eq]
  rfl

/-- The start edges met, by the levels of the line and the time that remains. -/
theorem meets_iff (s : State) (p : Pass) {cursor last : Nat} {edges : List Nat} : Meets s.env p cursor edges last ↔
    MeetsEdges
      (fun c : Nat => levelAt s.env p.tl p.tlTotal c = true ∧
        levelAt s.env p.tl p.tlTotal (c + s.cfg.huntStepUs.toNat : Nat) = false)
      (fun c => p.tlTotal < c ∨ (p.tlTotal - c) * s.cfg.baud.toNat <
        1000000 * frameLength s.cfg.dataBits.toNat s.cfg.parity.toNat s.cfg.stopBits.toNat)
      s.cfg.huntStepUs.toNat (resyncTime s.env) cursor edges last := by
  have hfalls : Falls s.env p = _ := funext fun c => propext (fallAt_iff s.env p c)
  have hstops : Stops s.env p = _ := funext fun c => propext (stops_iff_frameLength s p c)
  rw [Meets, hfalls, hstops]
  exact Iff.rfl

theorem falls_congr (e : Env) {p q : Pass} (h : KeepsStream p q) (c : Nat) : Falls e q c ↔ Falls e p c := by
  rw [Falls, Falls, fallAt_congr e h]

theorem stops_congr (e : Env) {p q : Pass} (h : KeepsStream p q) (c : Nat) : Stops e q c ↔ Stops e p c := by
  rw [stops_iff, stops_iff, h.tlTotal]

theorem byteAt_congr (e : Env) {p q : Pass} (h : KeepsStream p q) (t : Nat) : byteAt e q t = byteAt e p t := by
  have hanchor : KeepsStream (anchorAt p t) (anchorAt q t) := { h with }
  simp only [byteAt, votesAt_congr e hanchor rfl]

/-- A frame anchored at `t` yields its byte and puts the cursor behind it. -/
theorem decodeFrame_anchorAt (e : Env) (p : Pass) (t : Nat) :
    (decodeFrame e (anchorAt p t)).tCur = resyncTime e t ∧
      (decodeFrame e (anchorAt p t)).dbytes = p.dbytes ++ [byteAt e p t] :=
  ⟨(decodeFrame_spec e _).2.2, decodeFrame_bytes e (anchorAt p t) rfl rfl⟩

/-! ### The loop -/

theorem hstopPass_keeps (e : Env) (p : Pass) : KeepsStream p (hstopPass e p) := ⟨rfl, rfl, rfl, rfl, rfl⟩

/-- Where the end test holds the loop ends with the pass as it stands. -/
theorem tripsUntilStop_of_stops {e : Env} {fuel : Nat} {p q : Pass} (h : tripsUntilStop e fuel p = some q)
    (hstop : Stops e p p.tCur) : q.tCur = p.tCur ∧ q.dbytes = p.dbytes := by
  cases fuel with
  | zero => simp [tripsUntilStop] at h
  | succ n =>
    have hanswer : (hstopPass e p).answer = true := hstop
    rw [tripsUntilStop_succ, if_pos hanswer, Option.some_inj] at h
    subst h
    exact ⟨rfl, rfl⟩

/-- Where it does not hold a trip follows. -/
theorem tripsUntilStop_of_not_stops {e : Env} {fuel : Nat} {p q : Pass} (h : tripsUntilStop e fuel p = some q)
    (hgo : ¬ Stops e p p.tCur) : ∃ n, fuel = n + 1 ∧ tripsUntilStop e n (tripPass e (hstopPass e p)) = some q := by
  cases fuel with
  | zero => simp [tripsUntilStop] at h
  | succ n =>
    have hanswer : ¬ (hstopPass e p).answer = true := hgo
    rw [tripsUntilStop_succ, if_neg hanswer] at h
    exact ⟨n, rfl, h⟩

/-- After the first trip the loop meets the start edges from its cursor on, and appends the byte of each. -/
theorem tripsUntilStop_meets {e : Env} {fuel : Nat} {p q : Pass} (hf : p.first = false)
    (h : tripsUntilStop e fuel p = some q) :
    ∃ edges, Meets e q p.tCur edges q.tCur ∧ q.dbytes = p.dbytes ++ edges.map (byteAt e q) := by
  induction fuel generalizing p with
  | zero => simp [tripsUntilStop] at h
  | succ n ih =>
    have hkeeps := (tripsUntilStop_spec e _ _ _ h).1
    by_cases hstop : Stops e p p.tCur
    · obtain ⟨hcur, hbytes⟩ := tripsUntilStop_of_stops h hstop
      refine ⟨[], ⟨hcur ▸ .refl _ _ _ _, hcur ▸ (stops_congr e hkeeps _).2 hstop⟩, by simp [hbytes]⟩
    · have hgo : ¬ Stops e q p.tCur := mt (stops_congr e hkeeps _).1 hstop
      obtain ⟨m, hm, htrip⟩ := tripsUntilStop_of_not_stops h hstop
      obtain rfl : n = m := Nat.succ.inj hm
      obtain ⟨edges, hmeets, hbytes⟩ := ih (tripPass_keeps e _).2 htrip
      cases hfall : fallAt e p p.tCur with
      | false =>
        have hnone : ¬ Falls e q p.tCur := mt (falls_congr e hkeeps _).1 (Bool.eq_false_iff.1 hfall)
        rw [tripPass_moved e (hstopPass e p) hf hfall] at hmeets hbytes
        exact ⟨edges, hmeets.step hgo hnone, hbytes⟩
      | true =>
        have hsome : Falls e q p.tCur := (falls_congr e hkeeps _).2 hfall
        rw [tripPass_found e (hstopPass e p) hf hfall] at hmeets hbytes
        obtain ⟨hcur, hbyte⟩ := decodeFrame_anchorAt e { hstopPass e p with
          tlCursor := (hstopPass e p).cursorAt (((hstopPass e p).tCur + e.huntStepUs.toNat : Nat) : Int) }
          ((hstopPass e p).tCur + e.huntStepUs.toNat)
        rw [hcur] at hmeets
        refine ⟨(p.tCur + e.huntStepUs.toNat) :: edges, hmeets.found hgo hsome, ?_⟩
        rw [hbytes, hbyte, List.map_cons, byteAt_congr e hkeeps, List.append_assoc]
        rfl

/-! ### The whole pass -/

/-- A pass over a stream that starts low, and does not end at once, anchors its first frame at time 0. -/
theorem enterPass_meets_low {e : Env} {fuel : Nat} {p q : Pass} (h : tripsUntilStop e fuel (enterPass p) = some q)
    (hlow : firstLevel e p = false) (hgo : ¬ Stops e (enterPass p) 0) :
    ∃ later, Meets e q (resyncTime e 0) later q.tCur ∧ q.dbytes = (0 :: later).map (byteAt e q) := by
  have hkeeps := (tripsUntilStop_spec e _ _ _ h).1
  obtain ⟨n, -, htrip⟩ := tripsUntilStop_of_not_stops h hgo
  obtain ⟨later, hmeets, hbytes⟩ := tripsUntilStop_meets (tripPass_keeps e _).2 htrip
  obtain ⟨hcur, hbyte⟩ := decodeFrame_anchorAt e (hstopPass e (enterPass p)) 0
  have hfirst : tripPass e (hstopPass e (enterPass p)) =
      { decodeFrame e (anchorAt (hstopPass e (enterPass p)) 0) with first := false } := tripPass_first_low rfl hlow
  rw [hfirst] at hmeets hbytes
  refine ⟨later, hcur ▸ hmeets, ?_⟩
  rw [hbytes, hbyte, List.map_cons, byteAt_congr e hkeeps]
  rfl

/-- Any other pass hunts from time 0. -/
theorem enterPass_meets_high {e : Env} {fuel : Nat} {p q : Pass} (h : tripsUntilStop e fuel (enterPass p) = some q)
    (hhigh : Stops e (enterPass p) 0 ∨ firstLevel e p = true) :
    ∃ edges, Meets e q 0 edges q.tCur ∧ q.dbytes = edges.map (byteAt e q) := by
  have hkeeps := (tripsUntilStop_spec e _ _ _ h).1
  by_cases hstop : Stops e (enterPass p) 0
  · obtain ⟨hcur, hbytes⟩ := tripsUntilStop_of_stops h hstop
    have hlast : Stops e q 0 := (stops_congr e hkeeps 0).2 hstop
    rw [hcur]
    exact ⟨[], ⟨.refl _ _ _ _, hlast⟩, hbytes⟩
  · have hhigh : firstLevel e p = true := hhigh.resolve_left hstop
    obtain ⟨n, -, htrip⟩ := tripsUntilStop_of_not_stops h hstop
    have hlater : tripsUntilStop e (n + 1) { enterPass p with first := false } = some q := by
      have hanswer : ¬ (hstopPass e { enterPass p with first := false }).answer = true := hstop
      rw [tripsUntilStop_succ, if_neg hanswer]
      rwa [tripPass_first_high (p := hstopPass e (enterPass p)) rfl hhigh] at htrip
    obtain ⟨edges, hmeets, hbytes⟩ := tripsUntilStop_meets rfl hlater
    exact ⟨edges, hmeets, hbytes⟩

/-- A stream that does not start low starts high, or is empty and the pass ends at once (R130, R132). -/
theorem stops_or_firstLevel {e : Env} {p : Pass} {rle : List RunLength} {rest : List (List RunLength)}
    (hstreams : p.streams = rle :: rest) (h : rle.head?.map (·.level) ≠ some false) :
    Stops e (enterPass p) 0 ∨ firstLevel e p = true := by
  cases rle with
  | nil =>
    have htotal : (enterPass p).tlTotal = 0 := by simp [enterPass, buildTimeline, Pass.stream, hstreams, streamTotal]
    have := frameLen_pos e.toCfg
    refine .inl ((stops_iff e _ 0).2 (.inr ?_))
    rw [htotal]
    omega
  | cons x xs =>
    rw [firstLevel_cons e hstreams]
    exact .inr (by simpa using h)

/-- `edges` are the start edges of the pass over `rle` that ends with `q`, and its bytes are those of `edges`. -/
structure DecodesEdges (e : Env) (rle : List RunLength) (q : Pass) (edges : List Nat) : Prop where
  anchored : rle.head?.map (·.level) = some false ∧ ¬ Stops e q 0 →
    ∃ later, edges = 0 :: later ∧ Meets e q (resyncTime e 0) later q.tCur
  hunted : ¬ (rle.head?.map (·.level) = some false ∧ ¬ Stops e q 0) → Meets e q 0 edges q.tCur
  spaced : edges.Pairwise fun t u => t < u ∧ resyncTime e t + e.huntStepUs.toNat ≤ u
  bytes : q.dbytes = edges.map (byteAt e q)

/-- A pass decodes the start edges it meets (R130). -/
theorem tripsUntilStop_decodesEdges {e : Env} {fuel : Nat} {p q : Pass} {rle : List RunLength}
    {rest : List (List RunLength)} (hstreams : p.streams = rle :: rest) (hstep : 1 ≤ e.huntStepUs.toNat)
    (h : tripsUntilStop e fuel (enterPass p) = some q) : ∃ edges, DecodesEdges e rle q edges := by
  have hstops := stops_congr e (tripsUntilStop_spec e _ _ _ h).1 0
  by_cases hanchored : rle.head?.map (·.level) = some false ∧ ¬ Stops e q 0
  · obtain ⟨hlow, hgo⟩ := hanchored
    have hfirst : firstLevel e p = false := by
      cases rle with
      | nil => cases hlow
      | cons x xs => rw [firstLevel_cons e hstreams]; exact Option.some.inj hlow
    obtain ⟨later, hmeets, hbytes⟩ := enterPass_meets_low h hfirst (mt hstops.2 hgo)
    obtain ⟨hlater, hpairwise⟩ := MeetsEdges.spaced (le_resyncTime e) hstep hmeets
    have hhead (u : Nat) (hu : u ∈ later) : 0 < u ∧ resyncTime e 0 + e.huntStepUs.toNat ≤ u :=
      ⟨by have := hlater u hu; omega, hlater u hu⟩
    exact ⟨0 :: later, fun _ => ⟨later, rfl, hmeets⟩, fun hnot => absurd ⟨hlow, hgo⟩ hnot,
      List.pairwise_cons.2 ⟨hhead, hpairwise⟩, hbytes⟩
  · have hhigh : Stops e (enterPass p) 0 ∨ firstLevel e p = true := by
      by_cases hlow : rle.head?.map (·.level) = some false
      · exact .inl (hstops.1 (Classical.not_not.1 fun hgo => hanchored ⟨hlow, hgo⟩))
      · exact stops_or_firstLevel hstreams hlow
    obtain ⟨edges, hmeets, hbytes⟩ := enterPass_meets_high h hhigh
    exact ⟨edges, fun hnot => absurd hnot hanchored, fun _ => hmeets,
      (MeetsEdges.spaced (le_resyncTime e) hstep hmeets).2, hbytes⟩

/-- The timeline a pass leaves is that of the current stream (R121). -/
theorem sdecPass_isTimeline {e : Env} {p q : Pass} {rle : List RunLength} {rest : List (List RunLength)}
    (hstreams : p.streams = rle :: rest) (h : sdecPass e p = some q) : IsTimeline rle q.tl q.tlTotal := by
  obtain ⟨hkeeps, -⟩ := sdecPass_spec e p q h
  have hstream : p.stream = rle := by simp [Pass.stream, hstreams]
  rw [hkeeps.tl, hkeeps.tlTotal, ← hstream]
  exact isTimeline_timelineFrom p.stream

theorem exec_sdec {s : State} {p : Pass} (h : sdecPass s.env s.pass = some p) : exec .sdec s = .next { s with pass := p } := by
  simp only [exec, execSdec, h]

/-- Settles O37: the loop appends the byte of each start edge it meets, as `DecodesEdges` says of the model's own tests, read here
as levels and times. -/
theorem sdecDecodesTheCurrentStream : Obligations.SdecDecodesTheCurrentStream := by
  intro s rle rest hstreams hstep
  obtain ⟨-, q, htrips, hsdec⟩ := everyDecodePassEnds s.env s.pass hstep
  obtain ⟨hkeeps, hdone, hstop⟩ := sdecPass_spec _ _ _ hsdec
  have henter : enterPass s.pass = { s.pass with
      tl := q.tl, tlTotal := q.tlTotal, tlCursor := 0, dbytes := [], tCur := 0, phase := .hunting, first := true } := by
    rw [hkeeps.tl, hkeeps.tlTotal]
    rfl
  rw [← hkeeps.tlTotal] at htrips
  obtain ⟨edges, hedges⟩ := tripsUntilStop_decodesEdges hstreams hstep htrips
  have hstops := stops_iff_frameLength s q
  refine ⟨q, edges, exec_sdec hsdec, henter, htrips, hdone, sdecPass_isTimeline hstreams hsdec,
    (hstops q.tCur).1 hstop, hkeeps.streams, hkeeps.rle, hkeeps.packets, hedges.spaced, fun ⟨hlow, hgo⟩ => ?_,
    fun hnot => ?_, hedges.bytes⟩
  · obtain ⟨later, rfl, hmeets⟩ := hedges.anchored ⟨hlow, mt (hstops 0).1 hgo⟩
    exact ⟨later, rfl, (meets_iff s q).1 hmeets⟩
  · exact (meets_iff s q).1 (hedges.hunted fun ⟨hlow, hgo⟩ => hnot ⟨hlow, mt (hstops 0).2 hgo⟩)

end Sys2Proof.Machine
end

section
/-! SUPPORT. A burst of frames sent back to back, decoded by one pass: where its start edges lie, and what is sampled behind
each (42_frame_sync.md R134, R137, R140). -/

namespace Sys2Proof.Machine

/-! ### The first fall fixes the next start edge -/

section
variable {falls stops : Nat → Prop} {resync : Nat → Nat} {cursor last : Nat} {edges : List Nat}

theorem MeetsEdges.eq_nil_of_no_fall (h : MeetsEdges falls stops 1 resync cursor edges last)
    (hnone : ∀ x, cursor ≤ x → ¬ falls x) : edges = [] := by
  cases edges with
  | nil => rfl
  | cons t rest =>
    obtain ⟨c, ⟨j, hc, -⟩, -, hfall, -⟩ := h
    exact absurd hfall (hnone c (by omega))

/-- A hunt in steps of 1 that does not stop before the first fall finds it. -/
theorem MeetsEdges.eq_cons_of_first_fall (h : MeetsEdges falls stops 1 resync cursor edges last) {c : Nat} (hle : cursor ≤ c)
    (hgo : ∀ x, x ≤ c → ¬ stops x) (hnone : ∀ x, cursor ≤ x → x < c → ¬ falls x) (hfall : falls c) :
    ∃ rest, edges = (c + 1) :: rest ∧ MeetsEdges falls stops 1 resync (resync (c + 1)) rest last := by
  cases edges with
  | nil =>
    obtain ⟨⟨j, hj, hwalk⟩, hstop⟩ := h
    have hpast : c < last := Nat.lt_of_not_le fun hle => hgo last hle hstop
    have hc := (hwalk (c - cursor) (by omega)).2
    rw [show cursor + (c - cursor) * 1 = c by omega] at hc
    exact absurd hfall hc
  | cons t rest =>
    obtain ⟨d, ⟨j, hd, hwalk⟩, -, hfound, rfl, hrest⟩ := h
    obtain hlt | rfl | hgt := Nat.lt_trichotomy d c
    · exact absurd hfound (hnone d (by omega) hlt)
    · exact ⟨rest, rfl, hrest⟩
    · have hc := (hwalk (c - cursor) (by omega)).2
      rw [show cursor + (c - cursor) * 1 = c by omega] at hc
      exact absurd hfall hc

end

/-! ### The line of a burst -/

/-- `level` is the line on which the frames of `bytes` follow one another from time 0 on, each bit `period` long, idle behind
them. -/
def IsSentLine (t : Template) (bytes : List Byte) (period : Nat) (level : Nat → Level) : Prop :=
  ∀ x, level x = (bytes.flatMap (frameLevels t)).getD (x / period) true

section
variable {t : Template} {bytes : List Byte} {period : Nat} {level : Nat → Level} (h : IsSentLine t bytes period level)
include h

/-- Within frame `f`, from `i` to `i + 1` bit periods behind its start edge, the line has the level of bit `i`. -/
theorem IsSentLine.level_bit {f i r : Nat} (hf : f < bytes.length) (hi : i < t.len) (hlow : i * period ≤ r)
    (hhigh : r < (i + 1) * period) : level (f * (t.len * period) + r) = (frameLevels t bytes[f]).getD i true := by
  have hperiod : 0 < period := Nat.pos_of_ne_zero fun h0 => by simp [h0] at hhigh
  have hbit : (f * (t.len * period) + r) / period = f * t.len + i := by
    rw [← Nat.mul_assoc, Nat.mul_comm _ period, Nat.mul_add_div hperiod, Nat.div_eq_of_lt_le hlow hhigh]
  rw [h, hbit]
  exact getD_flatMap_frame t.len (frameLevels t) bytes (fun v _ => frameLevels_length t v) f i hi hf

theorem IsSentLine.level_idle (hperiod : 0 < period) {x : Nat} (hx : bytes.length * (t.len * period) ≤ x) : level x = true := by
  rw [h]
  refine getD_flatMap_end t.len (frameLevels t) bytes (fun v _ => frameLevels_length t v) _ ?_
  rwa [Nat.le_div_iff_mul_le hperiod, Nat.mul_assoc]

theorem IsSentLine.level_start (hperiod : 0 < period) {f : Nat} (hf : f < bytes.length) :
    level (f * (t.len * period)) = false := by
  have hlen : 0 < t.len := by simp only [Template.len]; omega
  exact h.level_bit (r := 0) hf hlen (by simp) (by simpa using hperiod)

theorem IsSentLine.level_stop (hstop : 1 ≤ t.stopBits) {f r : Nat} (hf : f < bytes.length) (hlow : (t.len - 1) * period ≤ r)
    (hhigh : r < t.len * period) : level (f * (t.len * period) + r) = true := by
  have hlen := Template.len_eq t
  have hpos : 1 ≤ t.len := by simp only [Template.len]; omega
  rw [h.level_bit hf (i := t.len - 1) (by omega) hlow (by rwa [Nat.sub_add_cancel hpos])]
  have hlast : (frameLevels t bytes[f]).getD (t.len - 1) false = true :=
    frameLevels_stop t _ (by simp only [frameLength] at hlen ⊢; omega) (by omega)
  have hin : t.len - 1 < (frameLevels t bytes[f]).length := by rw [frameLevels_length]; omega
  rwa [List.getD_eq_getElem _ _ hin] at hlast ⊢

/-- Inside the last two bits of a frame the line does not fall: the last one is a stop bit. -/
theorem IsSentLine.no_fall (hstop : 1 ≤ t.stopBits) {f x : Nat} (hf : f < bytes.length)
    (hlow : f * (t.len * period) + (t.len - 2) * period ≤ x) (hhigh : x + 1 < f * (t.len * period) + t.len * period) :
    ¬ (level x = true ∧ level (x + 1) = false) := by
  obtain ⟨r, rfl⟩ : ∃ r, x = f * (t.len * period) + r := Nat.exists_eq_add_of_le (by omega)
  rintro ⟨hnow, hnext⟩
  have hlen : 2 ≤ t.len := by simp only [Template.len]; omega
  by_cases hlast : (t.len - 1) * period ≤ r + 1
  · have hhigh := h.level_stop hstop hf hlast (by omega)
    rw [← Nat.add_assoc, hnext] at hhigh
    cases hhigh
  · have hbit {q : Nat} (hlow : (t.len - 2) * period ≤ q) (hhigh : q < (t.len - 1) * period) :=
      h.level_bit hf (i := t.len - 2) (r := q) (by omega) hlow (by rwa [show t.len - 2 + 1 = t.len - 1 by omega])
    rw [hbit (by omega) (by omega)] at hnow
    rw [Nat.add_assoc, hbit (by omega) (by omega), hnow] at hnext
    cases hnext

/-- The line falls to the start bit of the next frame. -/
theorem IsSentLine.fall (hstop : 1 ≤ t.stopBits) (hperiod : 0 < period) {f : Nat} (hf : f + 1 < bytes.length) :
    level (f * (t.len * period) + (t.len * period - 1)) = true ∧
      level (f * (t.len * period) + (t.len * period - 1) + 1) = false := by
  have hpos : 1 ≤ t.len := by simp only [Template.len]; omega
  have hsplit : (t.len - 1) * period + period = t.len * period := by
    rw [← Nat.succ_mul, Nat.succ_eq_add_one, Nat.sub_add_cancel hpos]
  refine ⟨h.level_stop hstop (by omega) (by omega) (by omega), ?_⟩
  have hstart := h.level_start hperiod hf
  rwa [Nat.add_mul, Nat.one_mul, show t.len * period = t.len * period - 1 + 1 by omega, ← Nat.add_assoc,
    show t.len * period - 1 + 1 = t.len * period by omega] at hstart

/-- From a cursor inside the last two bits of frame `f`, the pass meets the start edge of each later frame and no other. -/
theorem IsSentLine.meets_later_frames {falls stops : Nat → Prop} {resync : Nat → Nat} {cursor last : Nat}
    (hstop : 1 ≤ t.stopBits) (hfalls : ∀ x, falls x ↔ level x = true ∧ level (x + 1) = false)
    (hgo : ∀ x, x ≤ (bytes.length - 1) * (t.len * period) → ¬ stops x) (hresync : ∀ x, resync x = x + cursor)
    (hlow : (t.len - 2) * period ≤ cursor) (hhigh : cursor < t.len * period) (k : Nat) {f : Nat}
    (hk : f + k + 1 = bytes.length) {edges : List Nat}
    (hmeets : MeetsEdges falls stops 1 resync (f * (t.len * period) + cursor) edges last) :
    edges = (List.range' (f + 1) k).map (· * (t.len * period)) := by
  have hperiod : 0 < period := Nat.pos_of_ne_zero fun h0 => by simp [h0] at hhigh
  induction k generalizing f edges with
  | zero =>
    refine hmeets.eq_nil_of_no_fall fun x hx hfall => ?_
    rw [hfalls] at hfall
    by_cases hinside : x + 1 < f * (t.len * period) + t.len * period
    · exact h.no_fall hstop (by omega) (by omega) hinside hfall
    · have hidle := h.level_idle hperiod (x := x + 1) (by rw [← hk, Nat.add_zero, Nat.add_mul]; omega)
      simp [hidle] at hfall
  | succ k ih =>
    have hnext : (f + 1) * (t.len * period) = f * (t.len * period) + (t.len * period - 1) + 1 := by
      rw [Nat.add_mul]
      omega
    have hbefore : (f + 1) * (t.len * period) ≤ (bytes.length - 1) * (t.len * period) := Nat.mul_le_mul_right _ (by omega)
    obtain ⟨rest, rfl, hrest⟩ := hmeets.eq_cons_of_first_fall (c := f * (t.len * period) + (t.len * period - 1)) (by omega)
      (fun x hx => hgo x (by omega))
      (fun x hx hc hfall => h.no_fall hstop (f := f) (by omega) (by omega) (by omega) ((hfalls x).1 hfall))
      ((hfalls _).2 (h.fall hstop hperiod (by omega)))
    rw [← hnext, hresync] at hrest
    rw [List.range'_succ, List.map_cons, ← hnext, ih (by omega) hrest]

end

/-! ### The bits of a frame -/

/-- The sampler reads every bit of one frame: the centre instant falls inside the bit, and so does one of its neighbours
(R140). -/
def SamplesInside (e : Env) (period : Nat) : Prop :=
  let bt := fun p : Nat => 1000000 * p / (100 * e.baud.toNat)
  let centre := fun i : Nat => 100 * i + e.sampleOffsetPct.toNat
  ∀ i, i < e.frameLen → i * period ≤ bt (centre i) ∧ bt (centre i) < (i + 1) * period ∧
    (i * period ≤ bt (centre i - e.voteSpacingPct.toNat) ∨ bt (centre i + e.voteSpacingPct.toNat) < (i + 1) * period)

section
variable {e : Env} {p : Pass} {bytes : List Byte} {period : Nat} (hvalid : e.valid = true)
  (hline : IsSentLine e.template bytes period fun x => levelAt e p.tl p.tlTotal x) (hsamples : SamplesInside e period)
include hvalid hline hsamples

/-- Whichever frame it is, the vote of a bit is the bit: the instants are taken from the frame's own start edge. -/
theorem majority_sent {f i : Nat} (hf : f < bytes.length) (hi : i < e.frameLen) :
    majority (votesAt e (anchorAt p (f * (e.frameLen * period))) i) = (frameLevels e.template bytes[f]).getD i true := by
  obtain ⟨hbaud, -, -, -, -, -, -, hspacing⟩ := (valid_iff e.toCfg).1 hvalid
  obtain ⟨hearly, hcentre, hlate⟩ := sampleTime_nat e (f * (e.frameLen * period)) i hbaud hspacing
  obtain ⟨hlow, hhigh, hside⟩ := hsamples i hi
  have hmono {a b : Nat} (hab : a ≤ b) : 1000000 * a / (100 * e.baud.toNat) ≤ 1000000 * b / (100 * e.baud.toNat) :=
    Nat.div_le_div_right (Nat.mul_le_mul_left _ hab)
  have hread {start r : Nat} (hstart : start = f * (e.frameLen * period) + r) (hlow : i * period ≤ r)
      (hhigh : r < (i + 1) * period) : levelAt e p.tl p.tlTotal start = (frameLevels e.template bytes[f]).getD i true := by
    rw [hstart]
    exact hline.level_bit hf hi hlow hhigh
  refine majority_of_two _ _ (hread hcentre hlow hhigh) (hside.imp (fun hin => ?_) fun hin => ?_)
  · exact hread hearly hin (Nat.lt_of_le_of_lt (hmono (Nat.sub_le _ _)) hhigh)
  · exact hread hlate (Nat.le_trans hlow (hmono (Nat.le_add_right _ _))) hin

/-- Each frame of the burst decodes to its byte. -/
theorem byteAt_sent {f : Nat} (hf : f < bytes.length) (hv : bytes[f].toNat < 2 ^ e.dataBits.toNat) :
    byteAt e p (f * (e.frameLen * period)) = ⟨bytes[f], true, true⟩ := by
  obtain ⟨hlength, hdecodes⟩ := aTransmittedFrameDecodesToItsByte e bytes[f] hvalid hv
  rw [← hdecodes, byteAt]
  congr 1
  refine List.ext_getElem (by simp [hlength]) fun i hi hi' => ?_
  rw [List.getElem_map, List.getElem_range, majority_sent hvalid hline hsamples hf (by omega), List.getD_eq_getElem _ _ hi']

end

/-! ### The pass over a burst -/

/-- While enough time for a frame remains behind `limit`, HSTOP is false up to there. -/
theorem not_stops_of_le {e : Env} {p : Pass} {limit x : Nat}
    (hroom : limit * e.baud.toNat + 1000000 * e.frameLen ≤ p.tlTotal * e.baud.toNat) (hx : x ≤ limit) : ¬ Stops e p x := by
  have hlen := frameLen_pos e.toCfg
  have hscaled : x * e.baud.toNat ≤ limit * e.baud.toNat := Nat.mul_le_mul_right _ hx
  rw [stops_iff, not_or]
  refine ⟨fun hover => ?_, ?_⟩
  · have : p.tlTotal * e.baud.toNat ≤ x * e.baud.toNat := Nat.mul_le_mul_right _ hover.le
    omega
  · rw [Nat.sub_mul]
    omega

/-- The timeline of `q` carries a burst of which one frame is read within the tolerance of R140, with room for a frame behind the
last start edge. -/
structure BurstWithinTolerance (e : Env) (q : Pass) (bytes : List Byte) (period : Nat) : Prop where
  nonempty : bytes ≠ []
  fits : ∀ v ∈ bytes, v.toNat < 2 ^ e.dataBits.toNat
  line : IsSentLine e.template bytes period fun x => levelAt e q.tl q.tlTotal x
  samples : SamplesInside e period
  cursor_low : (e.frameLen - 2) * period ≤ resyncTime e 0
  cursor_high : resyncTime e 0 < e.frameLen * period
  room : (bytes.length - 1) * (e.frameLen * period) * e.baud.toNat + 1000000 * e.frameLen ≤ q.tlTotal * e.baud.toNat

section
variable {e : Env} {q : Pass} {rle : List RunLength} {edges : List Nat} {bytes : List Byte} {period : Nat}
  (hedges : DecodesEdges e rle q edges) (hburst : BurstWithinTolerance e q bytes period) (hvalid : e.valid = true)
  (hlow : rle.head?.map (·.level) = some false) (hstep : e.huntStepUs.toNat = 1)
include hedges hburst hvalid hlow hstep

/-- The start edges of the pass are those of the frames: the first at time 0, every later one met by the hunt. -/
theorem DecodesEdges.edges_sent : edges = (List.range bytes.length).map (· * (e.frameLen * period)) := by
  obtain ⟨-, -, -, -, -, hstop, -⟩ := (valid_iff e.toCfg).1 hvalid
  obtain ⟨n, hn⟩ : ∃ n, bytes.length = n + 1 := Nat.exists_eq_succ_of_ne_zero (by simpa using hburst.nonempty)
  have hgo (x : Nat) (hx : x ≤ (bytes.length - 1) * (e.frameLen * period)) : ¬ Stops e q x := not_stops_of_le hburst.room hx
  have hfalls (x : Nat) : Falls e q x ↔
      levelAt e q.tl q.tlTotal x = true ∧ levelAt e q.tl q.tlTotal (x + 1 : Nat) = false := by
    rw [← hstep]
    exact fallAt_iff e q x
  have hresync (x : Nat) : resyncTime e x = x + resyncTime e 0 := by simp [resyncTime]
  obtain ⟨later, rfl, hmeets⟩ := hedges.anchored ⟨hlow, hgo 0 (Nat.zero_le _)⟩
  rw [Meets, hstep] at hmeets
  have hstart : MeetsEdges (Falls e q) (Stops e q) 1 (resyncTime e) (0 * (e.frameLen * period) + resyncTime e 0) later
      q.tCur := by
    rwa [Nat.zero_mul, Nat.zero_add]
  have hlater : later = (List.range' (0 + 1) n).map (· * (e.frameLen * period)) :=
    hburst.line.meets_later_frames hstop hfalls hgo hresync hburst.cursor_low hburst.cursor_high n (by omega) hstart
  rw [hlater, hn, List.range_eq_range', List.range'_succ, List.map_cons, Nat.zero_mul]

/-- The pass decodes the bytes sent. -/
theorem DecodesEdges.bytes_sent : q.dbytes = bytes.map fun v => ⟨v, true, true⟩ := by
  rw [hedges.bytes, hedges.edges_sent hburst hvalid hlow hstep, List.map_map]
  refine List.ext_getElem (by simp) fun f hf hf' => ?_
  have hf : f < bytes.length := by simpa using hf
  rw [List.getElem_map, List.getElem_map, List.getElem_range]
  exact byteAt_sent hvalid hburst.line hburst.samples hf (hburst.fits _ (List.getElem_mem hf))

end

/-- Settles O48: the pass decodes the start edges it meets (O37); these are the frames' own, and every frame is sampled from its
own start edge, so no error is carried over. -/
theorem aSenderWithinToleranceIsDecoded : Obligations.ASenderWithinToleranceIsDecoded := by
  intro s rle rest tl total period bytes len line bt centre cursor hvalid hstep hstreams htimeline hlow hne hbytes hlevel
    hsamples hcursorLow hcursorHigh hroom
  obtain ⟨hbaud, -, -, -, -, -, hhunt, -⟩ := (valid_iff s.cfg).1 hvalid
  obtain ⟨-, q, htrips, hsdec⟩ := everyDecodePassEnds s.env s.pass hhunt
  obtain ⟨edges, hedges⟩ := tripsUntilStop_decodesEdges hstreams hhunt htrips
  obtain ⟨htl, htotal⟩ := (sdecPass_isTimeline hstreams hsdec).unique
  obtain ⟨rfl, rfl⟩ := htimeline.unique
  rw [← htl, ← htotal] at hlevel
  rw [← htotal] at hroom
  have hcursor : resyncTime s.env 0 = cursor := (resyncTime_nat s.env 0 hbaud).trans (Nat.zero_add _)
  refine ⟨q, exec_sdec hsdec, ?_⟩
  rw [← hcursor] at hcursorLow hcursorHigh
  exact hedges.bytes_sent ⟨hne, hbytes, hlevel, hsamples, hcursorLow, hcursorHigh, hroom⟩ hvalid hlow hstep

end Sys2Proof.Machine
end

section
/-! SUPPORT. The majority of three samples, and the bit sampler run alone (43_bit_sampler.md R150 to R153). -/

namespace Sys2Proof.Machine

/-! ### MAJ3 -/

theorem majority_eq (v : Vote) : majority v = ((v.v0 && v.v1) || (v.v0 && v.v2) || (v.v1 && v.v2)) := by
  obtain ⟨a, b, c⟩ := v
  cases a <;> cases b <;> cases c <;> rfl

/-- Settles O41: two of three votes are 1 exactly when some pair of them is. -/
theorem maj3IsTheMajority : Obligations.Maj3IsTheMajority := fun s => ⟨_, rfl, majority_eq s.pass.vote⟩

/-! ### SAMPLE -/

theorem exec_sample (s : State) : exec .sample s = .next { s with pass := samplePass s.env s.pass } := rfl

/-- Settles O40: the instants are those of R67, and their majority is the one MAJ3 computes. -/
theorem sampleVotesAtTheThreeInstants : Obligations.SampleVotesAtTheThreeInstants := by
  intro s hbaud hspacing at_ a b c m
  obtain ⟨hearly, hcentre, hlate⟩ := sampleTime_nat s.env s.pass.startEdge s.pass.bitIdx hbaud hspacing
  have hvotes : votesAt s.env s.pass s.pass.bitIdx = ⟨a, b, c⟩ := by
    rw [votesAt, hearly, hcentre, hlate]
    rfl
  refine ⟨s.pass.cursorAt (sampleTime s.env s.pass.startEdge s.pass.bitIdx 1), ?_⟩
  rw [exec_sample, samplePass, hvotes, majority_eq]

/-! ### SAMPLEFRAME -/

/-- Any two of the three votes that agree decide (R153). -/
theorem majority_of_agreeing {x : Level} (vote : Int → Level) {j k : Int} (hne : j ≠ k) (hj : -1 ≤ j ∧ j ≤ 1)
    (hk : -1 ≤ k ∧ k ≤ 1) (hjx : vote j = x) (hkx : vote k = x) : majority ⟨vote (-1), vote 0, vote 1⟩ = x := by
  wlog hlt : j < k generalizing j k
  · exact this hne.symm hk hj hkx hjx (by omega)
  obtain ⟨rfl, rfl⟩ | ⟨rfl, rfl⟩ | ⟨rfl, rfl⟩ : j = -1 ∧ k = 0 ∨ j = -1 ∧ k = 1 ∨ j = 0 ∧ k = 1 := by omega
  · exact majority_of_two x _ hkx (.inl hjx)
  · rw [majority_eq, hjx, hkx]
    cases x <;> simp
  · exact majority_of_two x _ hjx (.inr hkx)

/-- Settles O42: bit by bit the majority is the bit sent, and `L` SAMPLEs from an empty `FRAME_SR` append just these. -/
theorem oneBadSampleOfABitIsOutvoted : Obligations.OneBadSampleOfABitIsOutvoted := by
  intro s bits hidx hempty hlength hread
  obtain ⟨-, -, -, -, -, hcount, hframe⟩ := sampleBits_spec s.env s.env.frameLen s.pass
  refine ⟨_, runInstrs_samples s.env.frameLen s, ?_, by rw [hcount, hidx, Nat.zero_add]⟩
  rw [hframe, hempty, hidx, List.nil_append]
  refine List.ext_getElem (by simp [hlength]) fun i _ hi => ?_
  obtain ⟨j, k, hne, hj, hj', hk, hk', hjbit, hkbit⟩ := hread i hi
  rw [List.getElem_map, List.getElem_range, Nat.zero_add]
  exact majority_of_agreeing (fun n => s.pass.levelAt s.env (sampleTime s.env s.pass.startEdge i n)) hne ⟨hj, hj'⟩
    ⟨hk, hk'⟩ hjbit hkbit

end Sys2Proof.Machine
end

section
/-! SUPPORT. FDEC run alone on the sampled frame (44_frame_decoder.md R161 to R164). -/

namespace Sys2Proof.Machine

theorem exec_fdec (s : State) : exec .fdec s = .next { s with pass := fdecPass s.env s.pass } := rfl

/-- Settles O45: FDEC appends what `decodeFrameBits` makes of `FRAME_SR` under the configured template, judged there. -/
theorem fdecJudgesTheSampledFrame : Obligations.FdecJudgesTheSampledFrame := by
  intro s hdata hlength
  have hjudged := decodeFrameBits_judged s.env s.cfg.template s.pass.frameSr hdata hlength
  exact ⟨decodeFrameBits s.env s.cfg.template s.pass.frameSr, exec_fdec s, hjudged⟩

end Sys2Proof.Machine
end

section
/-! SUPPORT. The header match slot by slot, and PSEG, CSUM and EMIT run alone (45_packet.md R171 to R180). -/

namespace Sys2Proof.Machine

/-! ### The match -/

/-- The header of slot `k` fits at the front of `rest` and equals its values byte by byte (R172). -/
def SlotFits (hdr : List (List Byte)) (rest : List DecodedByte) (k : Nat) : Prop :=
  ∃ h, hdr[k]? = some h ∧ h.length ≤ rest.length ∧ ∀ q, q < h.length → (rest[q]?.map (·.value)) = h[q]?

theorem slotFits_iff_isPrefixOf (hdr : List (List Byte)) (rest : List DecodedByte) (k : Nat) :
    SlotFits hdr rest k ↔ ∃ h, hdr[k]? = some h ∧ h.isPrefixOf (rest.map (·.value)) = true := by
  simp only [SlotFits, isPrefixOf_iff_getElem?, List.length_map, List.getElem?_map]

theorem slotFits_iff_getElem {hdr : List (List Byte)} {rest : List DecodedByte} {k : Nat} (hk : k < hdr.length) :
    SlotFits hdr rest k ↔ hdr[k].isPrefixOf (rest.map (·.value)) = true := by
  simp [slotFits_iff_isPrefixOf, List.getElem?_eq_getElem hk]

/-- A slot that fits is a slot of the table. -/
theorem SlotFits.lt {hdr : List (List Byte)} {rest : List DecodedByte} {k : Nat} (h : SlotFits hdr rest k) :
    k < hdr.length := by
  obtain ⟨header, hslot, -⟩ := h
  exact (List.getElem?_eq_some_iff.1 hslot).1

theorem matchSlot_eq_some_iff (hdr : List (List Byte)) (rest : List DecodedByte) (k : Nat) :
    matchSlot hdr rest = some k ↔ SlotFits hdr rest k ∧ ∀ j, j < k → ¬ SlotFits hdr rest j := by
  rw [matchSlot, List.findIdx?_eq_some_iff_getElem]
  constructor
  · rintro ⟨hk, hfits, hlower⟩
    exact ⟨(slotFits_iff_getElem hk).2 hfits, fun j hj => (slotFits_iff_getElem (hj.trans hk)).not.2 (hlower j hj)⟩
  · rintro ⟨hfits, hlower⟩
    have hk := hfits.lt
    exact ⟨hk, (slotFits_iff_getElem hk).1 hfits, fun j hj => (slotFits_iff_getElem (hj.trans hk)).not.1 (hlower j hj)⟩

theorem matchSlot_eq_none_iff (hdr : List (List Byte)) (rest : List DecodedByte) :
    matchSlot hdr rest = none ↔ ∀ k, ¬ SlotFits hdr rest k := by
  rw [matchSlot, List.findIdx?_eq_none_iff]
  constructor
  · intro hnone k hfits
    have hk := hfits.lt
    exact Bool.eq_false_iff.1 (hnone _ (List.getElem_mem hk)) ((slotFits_iff_getElem hk).1 hfits)
  · intro hnone header hmem
    obtain ⟨k, hk, rfl⟩ := List.mem_iff_getElem.1 hmem
    exact Bool.eq_false_iff.2 ((slotFits_iff_getElem hk).not.1 (hnone k))

/-- Settles O49: `fits` there is `SlotFits`, and the search finds the first slot that fits. -/
theorem matchIsTheLowestSlotThatFits : Obligations.MatchIsTheLowestSlotThatFits :=
  fun hdr rest => ⟨matchSlot_eq_some_iff hdr rest, matchSlot_eq_none_iff hdr rest⟩

/-! ### PSEG -/

theorem exec_pseg (s : State) : exec .pseg s = .next (psegState s) := rfl

theorem segmentBytes_eq_nil_iff (hdr : List (List Byte)) (bytes : List DecodedByte) :
    segmentBytes hdr bytes = [] ↔ bytes = [] := by
  constructor
  · intro hnil
    rw [← segmentBytes_bytes hdr bytes, hnil, List.flatMap_nil]
  · rintro rfl
    rfl

/-- Settles O50: PSEG drops no byte, and every packet it makes holds one and is not judged yet. -/
theorem psegPartitionsTheBytes : Obligations.PsegPartitionsTheBytes := by
  intro s
  refine ⟨segmentBytes s.hdr s.pass.dbytes, exec_pseg s, segmentBytes_bytes _ _, fun q hq => ?_,
    segmentBytes_eq_nil_iff _ _⟩
  obtain ⟨hne, hunjudged, -⟩ := segmentBytes_mem _ _ q hq
  exact ⟨hne, hunjudged⟩

/-- Settles O51: the three facts are how `segmentBytes` cuts. -/
theorem psegCutsExactlyAtHeaders : Obligations.PsegCutsExactlyAtHeaders := by
  intro s t hexec before after q hpackets
  obtain rfl : psegState s = t := Host.Outcome.next.inj ((exec_pseg s).symm.trans hexec)
  obtain ⟨hslot, hleading, hinside⟩ := segmentBytes_cuts (hdr := s.hdr) (bytes := s.pass.dbytes) hpackets
  exact ⟨hslot, hleading, hinside⟩

/-! ### CSUM -/

theorem exec_csum (s : State) : exec .csum s = .next { s with pass := csumPass s.env s.pass } := rfl

theorem csumPass_off {e : Env} (h : e.chkEn = false) (p : Pass) : csumPass e p = p := if_neg (Bool.eq_false_iff.1 h)

theorem csumPass_on {e : Env} (h : e.chkEn = true) (p : Pass) :
    csumPass e p = { p with packets := p.packets.map (checkPacket e) } := if_pos h

/-- Settles O52: with `CHK_EN` set CSUM checks packet by packet, and the verdict is the one `verdict_concat` writes out. -/
theorem csumGivesEveryPacketItsVerdict : Obligations.CsumGivesEveryPacketItsVerdict := by
  intro s
  constructor
  · intro hoff
    rw [exec_csum, csumPass_off (e := s.env) hoff]
  · intro hon _
    refine ⟨s.pass.packets.map (checkPacket s.env), ?_, List.length_map _, ?_⟩
    · rw [exec_csum, csumPass_on (e := s.env) hon]
    · intro j q hq init last hlast
      rw [List.getElem?_map, hq, Option.map_some, checkPacket, hlast, verdict_concat]

/-! ### EMIT -/

/-- Settles O53: what EMIT answers is, by definition, R180 with the next stream made current. -/
theorem emitAppendsThePackets : Obligations.EmitAppendsThePackets := fun _ => rfl

end Sys2Proof.Machine
end

section
/-! SUPPORT. The host control operations (46_control.md): what each answers in every state, by the registers and the
records it reads; the undefined command word; and what no operation but RESET takes back. -/

namespace Sys2Proof.Machine

/-! ### The undefined word (R198) -/

theorem commandWord_and_row {op a aMask : Byte} {v vMask : U64} (ha : a &&& aMask = 0) (hv : v &&& vMask = 0) :
    commandWord op a v &&& commandWord 0xFF aMask vMask = commandWord op 0 0 := by
  rw [commandWord_and, ha, hv, show op &&& 0xFF = op from BitVec.and_allOnes]

/-- The word of a port operation matches the operation's row of R80. -/
theorem exists_row_of_encode {i : Instr} {w : BitVec 80} (h : encode i = .command w) :
    ∃ row ∈ portRows, w &&& row.1 = row.2 := by
  have matched (op aMask : Byte) (vMask : U64) {a : Byte} {v : U64} (ha : a &&& aMask = 0) (hv : v &&& vMask = 0)
      (hrow : (commandWord 0xFF aMask vMask, commandWord op 0 0) ∈ portRows) :
      ∃ row ∈ portRows, commandWord op a v &&& row.1 = row.2 :=
    ⟨_, hrow, commandWord_and_row ha hv⟩
  cases i with
  | reset | hdrclr | start | stop | outpop =>
    cases h
    exact matched _ 0xFF 0xFFFFFFFFFFFFFFFF rfl rfl (by decide)
  | cfgw | hdradd | rxbyte =>
    cases h
    exact matched _ 0 0 BitVec.and_zero BitVec.and_zero (by decide)
  | cfgr =>
    cases h
    exact matched _ 0 0xFFFFFFFFFFFFFFFF BitVec.and_zero rfl (by decide)
  | poll =>
    cases h
    exact matched _ 0xFF 0 rfl BitVec.and_zero (by decide)
  | edge level =>
    cases h
    exact matched _ 0xFE 0 (by cases level <;> rfl) BitVec.and_zero (by decide)
  | _ => cases h

/-- A word that matches no row is no operation. -/
theorem decodeCommand_eq_none {w : BitVec 80} (h : ∀ row ∈ portRows, w &&& row.1 ≠ row.2) : decodeCommand w = none := by
  refine Option.eq_none_iff_forall_ne_some.2 fun i hi => ?_
  obtain ⟨row, hrow, hmatch⟩ := exists_row_of_encode (encode_of_decodeCommand hi)
  exact h row hrow hmatch

theorem step_of_decode_none {s : State} {item : Input} {rest : List Input} (hinput : s.input = item :: rest)
    (hdecode : decode item = none) : step s = undefinedItem item (s.issue rest) := by
  unfold step
  rw [hinput]
  dsimp only
  rw [hdecode]

/-- Settles O7: the word is no operation, and an undefined command word is answered by `commandError`. -/
theorem undefinedWordOnlySetsCmdErr : Obligations.UndefinedWordOnlySetsCmdErr := by
  intro s w rest hinput hrows
  exact step_of_decode_none hinput (decodeCommand_eq_none hrows)

/-! ### CFGW (R192) -/

theorem regWidth_eq_getD (r : Byte) : regWidth r = cfgWidths.getD r.toNat 64 := by
  revert r
  decide

/-- The reserved bits of `CTRL` are 0 (R31). -/
theorem extractLsb'_reserved_eq_zero_iff (v : U64) : v.extractLsb' 2 62 = 0 ↔ v.toNat < 4 := by
  have hv := v.isLt
  rw [← BitVec.toNat_inj, BitVec.extractLsb'_toNat, Nat.shiftRight_eq_div_pow]
  change v.toNat / 2 ^ 2 % 2 ^ 62 = 0 ↔ _
  omega

/-- Why a CFGW is ignored, by the list of widths and the reserved bits. -/
theorem cfgwRejected_iff_registers (s : State) (r : Byte) (v : U64) :
    cfgwRejected s r v = true ↔ s.run = true ∨ 0x0A < r.toNat ∨ 2 ^ cfgWidths.getD r.toNat 64 ≤ v.toNat ∨
      (r = 0x0A ∧ v.extractLsb' 2 62 ≠ 0) := by
  rw [cfgwRejected_iff, regWidth_eq_getD, ne_eq, extractLsb'_reserved_eq_zero_iff, not_lt, ← BitVec.toNat_inj (y := 0x0A)]
  rfl

theorem setWidth_setWidth_of_lt {n : Nat} {v : U64} (h : v.toNat < 2 ^ n) : (v.setWidth n).setWidth 64 = v := by
  apply BitVec.eq_of_toNat_eq
  rw [BitVec.toNat_setWidth, BitVec.toNat_setWidth, Nat.mod_eq_of_lt h, Nat.mod_eq_of_lt v.isLt]

/-- The written register reads the value cut to its width, and the other registers read what they read before (R20). -/
theorem cfgRegisters_writeReg (c : Cfg) {r : Byte} (v : U64) (hr : r.toNat ≤ 0x0A) :
    cfgRegisters (writeReg c r v) =
      (cfgRegisters c).set r.toNat ((v.setWidth (cfgWidths.getD r.toNat 64)).setWidth 64) := by
  interval_cases hnum : r.toNat <;> simp [writeReg, hnum, cfgRegisters] <;> rfl

theorem execCfgw_rejected {s : State} {r : Byte} {v : U64} (h : cfgwRejected s r v = true) :
    execCfgw r v s = .next (commandError s) := by
  rw [execCfgw, if_pos h]

theorem execCfgw_stored {s : State} {r : Byte} {v : U64} (h : ¬ cfgwRejected s r v = true) :
    execCfgw r v s = .next { s with cfg := writeReg s.cfg r v } := by
  rw [execCfgw, if_neg h]

/-- Settles O12: the first clause is `cfgwRejected`, and the second its negation. -/
theorem cfgwStoresTheValueOrSetsCmdErr : Obligations.CfgwStoresTheValueOrSetsCmdErr := by
  intro s r v
  refine ⟨fun h => execCfgw_rejected ((cfgwRejected_iff_registers s r v).2 h), fun hrun hr hv hreserved => ?_⟩
  have haccepted : ¬ cfgwRejected s r v = true := by
    rw [cfgwRejected_iff_registers]
    rintro (hopen | hnum | hwide | ⟨hctrl, hbits⟩)
    · exact absurd (hrun.symm.trans hopen) Bool.false_ne_true
    · exact absurd hr hnum.not_ge
    · exact absurd hv hwide.not_gt
    · exact hbits (hreserved hctrl)
  refine ⟨_, execCfgw_stored haccepted, ?_⟩
  rw [cfgRegisters_writeReg s.cfg v hr, setWidth_setWidth_of_lt hv]

/-! ### CFGR (R193) -/

/-- CFGR's register file is the configuration registers, STATUS, `LAST_TS` and `HDR_COUNT`, in the order of R20. -/
theorem readReg_eq_getElem? (s : State) (r : Byte) :
    readReg s r = (cfgRegisters s.cfg ++ [s.status, s.lastTs, BitVec.ofNat 64 s.hdr.length])[r.toNat]? := by
  unfold readReg
  split
  case h_15 =>
    refine (List.getElem?_eq_none ?_).symm
    change 14 ≤ r.toNat
    simp only [imp_false] at *
    omega
  all_goals next hnum => rw [hnum]; rfl

theorem execCfgr_of_some {s : State} {r : Byte} {v : U64} (h : readReg s r = some v) :
    execCfgr r s = .next (returnResult s (.value v)) := by
  simp only [execCfgr, h]

theorem execCfgr_of_none {s : State} {r : Byte} (h : readReg s r = none) :
    execCfgr r s = .next (returnResult (commandError s) (.value 0)) := by
  simp only [execCfgr, h]

/-- Settles O13: numbers above 0x0D are past the end of the register file. -/
theorem cfgrReturnsTheRegister : Obligations.CfgrReturnsTheRegister := by
  intro s r
  refine ⟨fun v h => execCfgr_of_some ((readReg_eq_getElem? s r).trans h), fun hr => execCfgr_of_none ?_⟩
  rw [readReg_eq_getElem?]
  exact List.getElem?_eq_none hr

/-! ### HDRADD and HDRCLR (R194, R195) -/

/-- Byte `q` of a header is bits 8q+7:8q of the packed word (R78). -/
theorem headerBytes_getElem? {len : Byte} (packed : U64) {q : Nat} (hq : q < len.toNat) :
    (headerBytes len packed)[q]? = some (BitVec.ofNat 8 (packed.toNat / 2 ^ (8 * q))) := by
  rw [headerBytes, List.getElem?_map, List.getElem?_range hq, Option.map_some, BitVec.extractLsb',
    Nat.shiftRight_eq_div_pow]

theorem execHdradd_rejected {s : State} {len : Byte} {packed : U64}
    (h : hdraddRejected Config.nHdr s len packed = true) : execHdradd len packed s = .next (commandError s) := by
  rw [execHdradd, if_pos h]

theorem execHdradd_stored {s : State} {len : Byte} {packed : U64}
    (h : ¬ hdraddRejected Config.nHdr s len packed = true) :
    execHdradd len packed s = .next { s with hdr := s.hdr ++ [headerBytes len packed] } := by
  rw [execHdradd, if_neg h]

/-- Settles O15: the first clause is `hdraddRejected`, and the second its negation. -/
theorem hdraddAppendsTheHeaderOrSetsCmdErr : Obligations.HdraddAppendsTheHeaderOrSetsCmdErr := by
  intro s len packed
  refine ⟨fun h => execHdradd_rejected ((hdraddRejected_iff _ s len packed).2 h),
    fun hrun hmin hmax hfree hfits => ?_⟩
  have haccepted : ¬ hdraddRejected Config.nHdr s len packed = true := by
    rw [hdraddRejected_iff]
    rintro (hopen | hshort | hlong | hfull | hwide)
    · exact absurd (hrun.symm.trans hopen) Bool.false_ne_true
    · exact absurd hmin hshort.not_ge
    · exact absurd hmax hlong.not_ge
    · exact hfree hfull
    · exact absurd hfits hwide.not_gt
  exact ⟨headerBytes len packed, execHdradd_stored haccepted, headerBytes_length len packed,
    fun _ hq => headerBytes_getElem? packed hq⟩

theorem execHdrclr_stopped {s : State} (hrun : s.run = false) : execHdrclr s = .next { s with hdr := [] } := by
  rw [execHdrclr, if_neg (Bool.eq_false_iff.1 hrun)]

/-- Settles O16: `RUN` decides. -/
theorem hdrclrEmptiesTheTable : Obligations.HdrclrEmptiesTheTable := fun _ => ⟨execHdrclr_open, execHdrclr_stopped⟩

/-! ### START and STOP (R196, R197) -/

section
variable {s : State} (hrun : s.run = false)
include hrun

theorem execStart_stopped : execStart s =
    .next (if s.cfg.valid then { clearCapture s with cfgErr := false, run := true } else configError s) := by
  rw [execStart, if_neg (Bool.eq_false_iff.1 hrun)]

theorem execStart_valid (hvalid : s.cfg.valid = true) :
    execStart s = .next { clearCapture s with cfgErr := false, run := true } := by
  rw [execStart_stopped hrun, if_pos hvalid]

theorem execStart_invalid (hinvalid : ¬ s.cfg.valid = true) : execStart s = .next (configError s) := by
  rw [execStart_stopped hrun, if_neg hinvalid]

end

/-- Settles O17: the conditions are `cfg_valid`, clause by clause. -/
theorem startOpensASessionOnAValidConfiguration : Obligations.StartOpensASessionOnAValidConfiguration := by
  intro s
  refine ⟨execStart_open, fun hrun => ⟨fun hvalid => ?_, fun hinvalid => ?_⟩⟩
  · exact execStart_valid hrun ((valid_iff s.cfg).2 hvalid)
  · exact execStart_invalid hrun ((valid_iff s.cfg).not.2 hinvalid)

/-- Nothing changes where the session is closed and both buffers are empty. -/
theorem State.stopped_eta {s : State} (hrun : s.run = false) (hebuf : s.ebuf = []) (hbbuf : s.bbuf = []) :
    { s with run := false, ebuf := [], bbuf := [] } = s := by
  cases s
  cases hrun
  cases hebuf
  cases hbbuf
  rfl

/-- Settles O18: by the invariant nothing is captured outside a session. -/
theorem stopDiscardsTheCapture : Obligations.StopDiscardsTheCapture := by
  intro s
  refine ⟨rfl, fun hinv hrun => ?_⟩
  obtain ⟨hebuf, hbbuf⟩ := hinv.stopped_empty hrun
  exact congrArg Host.Outcome.next (State.stopped_eta hrun hebuf hbbuf)

/-! ### OUTPOP (R199) -/

theorem execOutpop_eq {s : State} {queue : List Packet} (h : s.outq = queue) :
    execOutpop s = .next { s with result := .packet queue.head?, outq := queue.tail } := by
  subst h
  rfl

/-- Settles O19: the head is returned and the tail left; the empty queue is its own tail. -/
theorem outpopTakesTheOldestPacket : Obligations.OutpopTakesTheOldestPacket := by
  intro s
  refine ⟨fun hempty => ?_, fun pkt rest hqueue => execOutpop_eq hqueue⟩
  calc exec .outpop s = .next { s with result := .packet none, outq := [] } := execOutpop_eq hempty
    _ = .next { s with result := .packet none } := by rw [← hempty]

/-! ### What only RESET takes back (R190) -/

/-- `CMD_ERR` stays set once it is, and `OUTQ` only grows, at its end. -/
structure KeepsReports (s t : State) : Prop where
  cmdErr : s.cmdErr = true → t.cmdErr = true
  outq : ∃ new, t.outq = s.outq ++ new

section
variable {s t : State}

theorem KeepsReports.of_outq (hcmd : s.cmdErr = true → t.cmdErr = true) (hout : t.outq = s.outq) : KeepsReports s t :=
  ⟨hcmd, [], by rw [hout, List.append_nil]⟩

theorem KeepsReports.of_eq (hcmd : t.cmdErr = s.cmdErr) (hout : t.outq = s.outq) : KeepsReports s t :=
  .of_outq hcmd.trans hout

theorem keepsReports_commandError (s : State) : KeepsReports s (commandError s) := .of_outq (fun _ => rfl) rfl

@[simp] theorem swapped_cmdErr (s : State) : s.swapped.cmdErr = s.cmdErr := by
  unfold State.swapped
  split <;> rfl

@[simp] theorem swapped_outq (s : State) : s.swapped.outq = s.outq := by
  unfold State.swapped
  split <;> rfl

/-- A closing POLL appends its packets (R48). -/
theorem Delivers.keepsReports (h : Delivers s.swapped t) : KeepsReports s t := by
  obtain ⟨new, ht, -⟩ := h
  rw [ht]
  exact ⟨(swapped_cmdErr s).trans, new, congrArg (· ++ new) (swapped_outq s)⟩

/-- No operation but RESET, which clears both, and OUTPOP, which takes a packet, loses a report. -/
theorem exec_keepsReports {i : Instr} (hreset : i ≠ .reset) (houtpop : i ≠ .outpop) (h : exec i s = .next t) :
    KeepsReports s t := by
  by_cases hi : worksOnPass i = true
  · obtain ⟨p, hp, -⟩ := exec_worksOnPass i s hi
    cases hp.symm.trans h
    exact .of_eq rfl rfl
  cases i with
  | reset => exact absurd rfl hreset
  | outpop => exact absurd rfl houtpop
  | cfgw r v =>
    obtain rfl | ⟨-, rfl⟩ := execCfgw_next h
    · exact keepsReports_commandError s
    · exact .of_eq rfl rfl
  | cfgr r =>
    obtain ⟨v, rfl | rfl⟩ := execCfgr_next h
    · exact .of_eq rfl rfl
    · exact .of_outq (fun _ => rfl) rfl
  | hdradd len packed =>
    obtain rfl | ⟨-, rfl⟩ := execHdradd_next h
    · exact keepsReports_commandError s
    · exact .of_eq rfl rfl
  | hdrclr =>
    obtain rfl | rfl := execHdrclr_next h
    · exact keepsReports_commandError s
    · exact .of_eq rfl rfl
  | start => obtain rfl | rfl | ⟨-, -, rfl⟩ := execStart_next h <;> exact .of_eq rfl rfl
  | stop =>
    cases h
    exact .of_eq rfl rfl
  | edge level ts => obtain rfl | ⟨-, -, -, rfl⟩ := execEdge_next h <;> exact .of_eq rfl rfl
  | rxbyte value ts => obtain rfl | ⟨-, -, -, rfl⟩ := execRxbyte_next h <;> exact .of_eq rfl rfl
  | poll now =>
    obtain rfl | hdelivers := execPoll_next h
    · exact .of_eq rfl rfl
    · exact hdelivers.keepsReports
  | bclose =>
    obtain ⟨p, rfl, -⟩ := execBclose_next h
    exact .of_eq (swapped_cmdErr s) (swapped_outq s)
  | sdec =>
    obtain ⟨p, rfl, -⟩ := execSdec_next h
    exact .of_eq rfl rfl
  | emit =>
    cases h
    exact ⟨id, s.pass.packets, rfl⟩
  | _ => exact absurd rfl hi

end

/-- Settles O59: OUTPOP leaves the tail of `OUTQ`, and every other operation keeps what is reported. -/
theorem onlyResetClearsCmdErrAndDiscardsOutput : Obligations.OnlyResetClearsCmdErrAndDiscardsOutput := by
  intro i s t hreset h
  by_cases houtpop : i = .outpop
  · subst houtpop
    cases h
    exact ⟨id, .inl ⟨rfl, rfl⟩⟩
  · have hkeeps := exec_keepsReports hreset houtpop h
    exact ⟨hkeeps.cmdErr, .inr hkeeps.outq⟩

end Sys2Proof.Machine
end

section
/-! SUPPORT. What a port operation can answer in a state that keeps the invariant (60_exceptions.md R210, R216, R226): every
decode ends, and only a timestamp that goes back inside a burst is refused. -/

namespace Sys2Proof.Machine

/-- An outcome that one test decides is a next state, or a refusal where the test holds. -/
theorem next_or_refused_of_ite {back : Prop} [Decidable back] {o : Host.Outcome State Fault Refusal} {r : Refusal} {t : State}
    (h : o = if back then .refused r else .next t) : (∃ u, o = .next u) ∨ (o = .refused r ∧ back) := by
  by_cases hback : back
  · exact .inr ⟨h.trans (if_pos hback), hback⟩
  · exact .inl ⟨t, h.trans (if_neg hback)⟩

/-- In a session only a timestamp below `LAST_TS` is refused (R101); outside one EDGE is dropped. -/
theorem execEdge_next_or_goesBack (s : State) (level : Level) (ts : U64) :
    (∃ t, execEdge level ts s = .next t) ∨
      (execEdge level ts s = .refused .contractViolation ∧ ts.toNat < s.lastTs.toNat) := by
  by_cases hdropped : s.run = false ∨ s.cfg.inputSel = true
  · exact .inl ⟨s, execEdge_dropped level ts hdropped⟩
  obtain ⟨hrun, hsel⟩ : s.run = true ∧ s.cfg.inputSel = false := by simpa using hdropped
  exact (next_or_refused_of_ite (execEdge_selected level ts hrun hsel)).imp_right (.imp_right And.right)

/-- The same for RXBYTE on the byte input (R102). -/
theorem execRxbyte_next_or_goesBack (s : State) (value : Byte) (ts : U64) :
    (∃ t, execRxbyte value ts s = .next t) ∨
      (execRxbyte value ts s = .refused .contractViolation ∧ ts.toNat < s.lastTs.toNat) := by
  by_cases hdropped : s.run = false ∨ s.cfg.inputSel = false
  · exact .inl ⟨s, execRxbyte_dropped value ts hdropped⟩
  obtain ⟨hrun, hsel⟩ : s.run = true ∧ s.cfg.inputSel = true := by simpa using hdropped
  exact (next_or_refused_of_ite (execRxbyte_selected value ts hrun hsel)).imp_right (.imp_right And.right)

/-- A burst closes only in a session, whose configuration is legal (R34) and so has a hunt step of at least 1: every POLL
completes. -/
theorem State.Inv.execPoll_completes {s : State} (h : s.Inv) (now : U64) : ∃ t, execPoll now s = .next t := by
  cases hcloses : pollCloses now s with
  | false => exact ⟨s, execPoll_waits hcloses⟩
  | true =>
    have hrun := ((pollCloses_iff now s).1 hcloses).1
    obtain ⟨-, -, -, -, -, -, hstep, -⟩ := (valid_iff s.cfg).1 (h.run_valid hrun)
    obtain ⟨t, ht⟩ := closeBurst_isSome now s hstep
    exact ⟨t, by rw [execPoll_eq_of_closes hcloses, ht]; rfl⟩

/-- Settles O56: POLL is the one port operation that could fault, EDGE and RXBYTE are the two that can refuse, and the host's
other operations answer a next state outright. -/
theorem everyPortOperationCompletes : Obligations.EveryPortOperationCompletes := by
  intro i s hinv hport
  cases i with
  | edge level ts =>
    obtain hnext | ⟨hrefused, hback⟩ := execEdge_next_or_goesBack s level ts
    · exact .inl hnext
    · exact .inr ⟨hrefused, ts, hback, .inl ⟨level, rfl⟩⟩
  | rxbyte value ts =>
    obtain hnext | ⟨hrefused, hback⟩ := execRxbyte_next_or_goesBack s value ts
    · exact .inl hnext
    · exact .inr ⟨hrefused, ts, hback, .inr ⟨value, rfl⟩⟩
  | poll now => exact .inl (hinv.execPoll_completes now)
  | reset | cfgw | cfgr | hdradd | hdrclr | start | stop | outpop => exact .inl ⟨_, rfl⟩
  | _ => exact absurd hport Bool.false_ne_true

end Sys2Proof.Machine
end

section
/-! SUPPORT. The step with nothing pending (20_memory.md R46; 70_reset_and_hazards.md R230). -/

namespace Sys2Proof.Machine

/-- With the trace at its end a step fetches no item, and so issues and runs none. -/
theorem step_of_input_nil {s : State} (hinput : s.input = []) : step s = .next s := by
  unfold step
  rw [hinput]

/-- Settles O8. -/
theorem nothingRunsWithoutAnOperation : Obligations.NothingRunsWithoutAnOperation := by
  intro s hinput
  exact step_of_input_nil hinput

end Sys2Proof.Machine
end
